-- ==== Sys2Proof/Word.lean ====
section
/-! DEFINITION. The word types of HUFF-CORE (00_scope.md R8 to R10, R15, R16; 10_state.md R22, R25, R40). -/

namespace Sys2Proof

/-- A 32-bit register word (10_state.md R40); also a counter or weight of W_CNT bits (00_scope.md R12). -/
abbrev Word := BitVec 32

/-- A literal symbol, one 8-bit byte (00_scope.md R8). -/
abbrev Byte := BitVec 8

/-- A symbol of the alphabet 0 to 256, held in the 9 bits of a leaf field (00_scope.md R9, R10). -/
abbrev Symbol := BitVec 9

/-- An index into the node store (10_state.md R22, R25). -/
abbrev NodeIx := BitVec 10

/-- A byte offset in the register space (10_state.md R40). -/
abbrev Offset := BitVec 16

/-- A bit string in stream order: the head is the first bit written and the first read (00_scope.md R15). -/
abbrev Bits := List Bool

end Sys2Proof
end

