-- ==== Sys2Proof/Config.lean ====
section
/-! DEFINITION. The parameters of the implementation (00_scope.md R8 to R14; 92_eei_decisions.md, Open parameters)
and the free values: constants without a body, so that no proof can learn one. -/

namespace Sys2Proof.Config

/-- ALPH_SIZE: the number of literal symbols (R8). -/
abbrev alphSize : Nat := 256

/-- PSEUDO_EOF: the end-of-stream sentinel (R9). -/
abbrev pseudoEof : Symbol := 256

/-- NSYM: the number of symbols, 0 to 256 (R9). -/
abbrev nsym : Nat := 257

/-- LEAF_BITS: the width of a leaf's symbol field (R10). -/
abbrev leafBits : Nat := 9

/-- MAGIC_BITS: the width of the magic number (R11). -/
abbrev magicBits : Nat := 32

/-- NMAX: the capacity of the node store (R13). -/
abbrev nmax : Nat := 513

/-- MAXLEN: the greatest code length (R13). -/
abbrev maxLen : Nat := 256

/-- MAGIC (R11), the value State.reset takes. PRESUMED, unsafe, log 5: the spec leaves the parameter open and suggests
this default. Every rule is modelled over the field State.magic, so over any value. -/
def magic : Word := 0xFACE8201#32

/-- W_CNT (R12), the value State.reset takes: the spec's choice (log 6). The rules are modelled over State.wCnt. -/
def wCnt : Nat := 32

/-- HUFF_BASE (20_memory.md R73): where the platform puts the register space. OPEN, so without a body; no behaviour of
the block depends on it (log 8). -/
opaque huffBase : Nat

/-- The address, in the host's map, of the register at a byte offset (R73). -/
def hostAddress (offset : Offset) : Nat := huffBase + offset.toNat

/-- The free values: the n-th unspecified word drawn (10_state.md R43, 93_implementation_defined.md I20, I21, I32;
log 12). -/
opaque freeWord : Nat → Word

/-- The free choices: where a command is when reset stops it (70_reset_and_hazards.md R231, I31; log 13). -/
opaque freeChoice : Nat → Nat

end Sys2Proof.Config
end

