-- ==== Sys2Proof/Syntax.lean ====
section
/-! DEFINITION. The instructions: one constructor per row of spec/opcode_table.json. -/

namespace Sys2Proof

/-- The fifteen commands of 30_encoding.md R81, every other command word (R83), and the three stream rows of the
table, which are not commands: the two tree-header tokens (R89) and the magic field (R87). -/
inductive Instr where
  /-- NOP, 45_control.md R180. -/
  | nop
  /-- COUNT, 40_count_and_build.md R110. -/
  | count
  /-- REWIND, 40_count_and_build.md R111. -/
  | rewind
  /-- BUILD, 40_count_and_build.md R113. -/
  | build
  /-- GENCODES, 41_code_table.md R130. -/
  | gencodes
  /-- WRMAGIC, 42_header_codec.md R140. -/
  | wrmagic
  /-- WRTREE, 42_header_codec.md R141. -/
  | wrtree
  /-- ENCODE, 43_encoder.md R160. -/
  | encode
  /-- CLOSE, 43_encoder.md R161. -/
  | close
  /-- RDMAGIC, 42_header_codec.md R145. -/
  | rdmagic
  /-- RDTREE, 42_header_codec.md R148. -/
  | rdtree
  /-- DECODE, 44_decoder.md R170. -/
  | decode
  /-- COMPRESS, 45_control.md R182. -/
  | compress
  /-- DECOMPRESS, 45_control.md R183. -/
  | decompress
  /-- CLEAR, 45_control.md R181. -/
  | clear
  /-- (reserved): a command word that is none of the above, 30_encoding.md R83. -/
  | reserved (word : Word)
  /-- HDR_INTERNAL: the tree-header token of an internal node, 30_encoding.md R89. -/
  | hdrInternal
  /-- HDR_LEAF: the tree-header token of a leaf, 30_encoding.md R89. -/
  | hdrLeaf (sym : Symbol)
  /-- MAGIC_FIELD: the first 32 bits of a compressed stream, 30_encoding.md R87. -/
  | magicField (value : Word)
  deriving DecidableEq, Repr

end Sys2Proof
end

