-- ==== Sys2Proof/WellFormed.lean ====
section
/-! DEFINITION. Which terms of Instr stand for something a stream or the CMD register can hold. -/

namespace Sys2Proof

/-- The fifteen words of 30_encoding.md R81. -/
def definedWord (w : Word) : Bool := decide (w.toNat ≤ 13) || decide (w.toNat = 15)

/-- A reserved word is none of the defined ones (30_encoding.md R83); a leaf token names a symbol 0 to 256 (R89). The
other constructors have no operand that could be wrong. -/
def WellFormed : Instr → Bool
  | .reserved w => !definedWord w
  | .hdrLeaf s => decide (s.toNat ≤ 256)
  | .nop | .count | .rewind | .build | .gencodes | .wrmagic | .wrtree | .encode | .close | .rdmagic | .rdtree
  | .decode | .compress | .decompress | .clear | .hdrInternal | .magicField _ => true

end Sys2Proof
end

