-- ==== Sys2Proof/Decode.lean ====
section
/-! DEFINITION. Bit strings as numbers (00_scope.md R16), the decoder and, after it, the encoder
(30_encoding.md R80 to R92). -/

namespace Sys2Proof

/-! ### Bit strings -/

/-- bin_n(v): the n low-order bits of v, most significant first (00_scope.md R16). -/
def bin : Nat → Nat → Bits
  | 0, _ => []
  | n + 1, v => v.testBit n :: bin n v

/-- val(s) with the value so far in front: one more bit doubles it. -/
def valFrom : Nat → Bits → Nat
  | acc, [] => acc
  | acc, b :: s => valFrom (2 * acc + b.toNat) s

/-- val(s): the unsigned number whose most-significant-bit-first string is s (00_scope.md R16). -/
def val (s : Bits) : Nat := valFrom 0 s

/-! ### The decoder -/

/-- Where an instruction's bits come from: the CMD register, IN while RDTREE reads a tree header, or IN while RDMAGIC
reads the magic field. The source decides what the bits mean (30_encoding.md R80, R87, R89). -/
inductive Source where
  | cmd
  | header
  | magic
  deriving DecidableEq, Repr

/-- Why bits are no instruction: too few of them. -/
inductive DecodeError where
  /-- Fewer than the 32 bits of a command word (30_encoding.md R84). -/
  | shortCommand
  /-- No marker bit (30_encoding.md R89). -/
  | noMarker
  /-- A leaf marker with fewer than 9 bits after it (30_encoding.md R89). -/
  | shortLeaf
  /-- Fewer than the 32 bits of a magic field (30_encoding.md R87). -/
  | shortMagic
  deriving DecidableEq, Repr

/-- The opcode map of 30_encoding.md R81. -/
def opcodeMap : List (Byte × Instr) :=
  [(0x00, .nop), (0x01, .count), (0x02, .rewind), (0x03, .build), (0x04, .gencodes), (0x05, .wrmagic), (0x06, .wrtree),
   (0x07, .encode), (0x08, .close), (0x09, .rdmagic), (0x0A, .rdtree), (0x0B, .decode), (0x0C, .compress),
   (0x0D, .decompress), (0x0F, .clear)]

/-- OP, bits 7:0 of a command word (30_encoding.md R80). -/
def opField (w : Word) : Byte := w.setWidth 8

/-- RSVD, bits 31:8 of a command word (30_encoding.md R80). -/
def rsvdField (w : Word) : BitVec 24 := w.extractLsb' 8 24

/-- The command a word stands for. Every word has a meaning: one outside the opcode map is a reserved word
(30_encoding.md R81, R83). -/
def decodeCommand (w : Word) : Instr :=
  if rsvdField w ≠ 0 then .reserved w else ((opcodeMap.lookup (opField w)).getD (.reserved w))

/-- A token of the tree header (30_encoding.md R89). -/
inductive Token where
  | internal
  | leaf (sym : Symbol)
  deriving DecidableEq, Repr

/-- How many bits a token has, told by its first one (30_encoding.md R92). -/
def tokenLength (marker : Bool) : Nat := if marker then 10 else 1

/-- The token with this marker and, for a leaf, this field (30_encoding.md R89). -/
def tokenOf (marker : Bool) (field : Nat) : Token := if marker then .leaf (BitVec.ofNat 9 field) else .internal

/-- Reads one token (30_encoding.md R89). -/
def decodeToken : Bits → Except DecodeError (Token × Bits)
  | [] => .error .noMarker
  | m :: rest =>
    if rest.length < tokenLength m - 1 then .error .shortLeaf
    else .ok (tokenOf m (val (rest.take (tokenLength m - 1))), rest.drop (tokenLength m - 1))

/-- The instruction a token is. -/
def Token.instr : Token → Instr
  | .internal => .hdrInternal
  | .leaf s => .hdrLeaf s

/-- The decoder: one instruction from the front of a bit string, and the bits after it. -/
def decode (src : Source) (b : Bits) : Except DecodeError (Instr × Bits) :=
  match src with
  | .cmd => if b.length < 32 then .error .shortCommand
            else .ok (decodeCommand (BitVec.ofNat 32 (val (b.take 32))), b.drop 32)
  | .header => (decodeToken b).map fun p => (p.1.instr, p.2)
  | .magic => if b.length < Config.magicBits then .error .shortMagic
              else .ok (.magicField (BitVec.ofNat 32 (val (b.take Config.magicBits))), b.drop Config.magicBits)

/-- The host's question about a row of spec/opcode_table.json: 32 bits are a command word, the 1 and 10 bits of a
header token come in one and two bytes (log 18). -/
def decodeTableWord (nbits w : Nat) : Option Instr :=
  let read (src : Source) (n : Nat) : Option Instr :=
    match decode src (bin n w) with
    | .ok (i, []) => some i
    | _ => none
  if nbits = 32 then (if w < 2 ^ 32 then read .cmd 32 else none)
  else if nbits ≤ 8 then (if w < 2 then read .header 1 else none)
  else if nbits ≤ 16 then (if w < 2 ^ 10 then read .header 10 else none)
  else none

/-! ### The encoder -/

/-- Where an instruction's bits stand. -/
def Instr.source : Instr → Source
  | .hdrInternal | .hdrLeaf _ => .header
  | .magicField _ => .magic
  | .nop | .count | .rewind | .build | .gencodes | .wrmagic | .wrtree | .encode | .close | .rdmagic | .rdtree
  | .decode | .compress | .decompress | .clear | .reserved _ => .cmd

/-- The word the host writes to CMD for a command (30_encoding.md R81); none for a stream row. -/
def commandWord : Instr → Option Word
  | .nop => some 0x00000000
  | .count => some 0x00000001
  | .rewind => some 0x00000002
  | .build => some 0x00000003
  | .gencodes => some 0x00000004
  | .wrmagic => some 0x00000005
  | .wrtree => some 0x00000006
  | .encode => some 0x00000007
  | .close => some 0x00000008
  | .rdmagic => some 0x00000009
  | .rdtree => some 0x0000000A
  | .decode => some 0x0000000B
  | .compress => some 0x0000000C
  | .decompress => some 0x0000000D
  | .clear => some 0x0000000F
  | .reserved w => some w
  | .hdrInternal | .hdrLeaf _ | .magicField _ => none

/-- The encoder: the bits of an instruction in stream order (30_encoding.md R81, R87, R89). -/
def encode (i : Instr) : Bits :=
  match i with
  | .hdrInternal => [false]
  | .hdrLeaf s => true :: bin Config.leafBits s.toNat
  | .magicField m => bin Config.magicBits m.toNat
  | .nop | .count | .rewind | .build | .gencodes | .wrmagic | .wrtree | .encode | .close | .rdmagic | .rdtree
  | .decode | .compress | .decompress | .clear | .reserved _ => bin 32 ((commandWord i).getD 0).toNat

end Sys2Proof
end

