-- ==== Sys2Proof/Machine/State.lean ====
section
/-! DEFINITION. The state of HUFF-CORE (10_state.md), the reasons a step can stop, and the state after reset
(10_state.md R46, 70_reset_and_hazards.md R230). -/

namespace Sys2Proof.Machine

/-- One entry of the node store (10_state.md R25). -/
structure Node where
  /-- LEAF: true for a leaf. -/
  leaf : Bool
  /-- SYM: meaningful only for a leaf. -/
  sym : Symbol
  /-- WEIGHT. -/
  weight : Word
  /-- LEFT: meaningful only for an internal node. -/
  left : NodeIx
  /-- RIGHT: meaningful only for an internal node. -/
  right : NodeIx
  deriving DecidableEq, Repr

/-- One entry of the code table (10_state.md R30). -/
structure Code where
  /-- LEN: 0 means no code. -/
  len : BitVec 9
  /-- BITS: the code, a bit string of length LEN. -/
  bits : Bits
  deriving DecidableEq, Repr

/-- One unfinished call of rd() inside RDTREE (42_header_codec.md R148): an internal node that waits for its left
subtree, or for its right one with the index of the left in hand. -/
inductive RdFrame where
  | waitLeft
  | waitRight (left : NodeIx)
  deriving DecidableEq, Repr

/-- A place between two stream operations of a command: INPOS and the length of OUTBITS there. OUTBITS only grows, so
its length says which of its bits were written (20_memory.md R60, R63; log 13). -/
structure PortMark where
  inPos : Nat
  outLen : Nat
  deriving DecidableEq, Repr

/-- What the host may do (10_state.md R44), one move each. -/
inductive HostMove where
  /-- Write a word at an offset; at 0x000 this is a command (R44 action 1, R39, R43). -/
  | write (offset : Offset) (word : Word)
  /-- Read the register at an offset (R44 action 2). -/
  | read (offset : Offset)
  /-- Attach a bit string to the input port (R44 action 3). -/
  | attachIn (bits : Bits)
  /-- Take the whole bytes of the output and detach it (R44 action 4). -/
  | takeOut
  /-- Assert reset (R44 action 5). -/
  | reset
  /-- Write a word to CMD and assert reset while the command runs (70_reset_and_hazards.md R231). -/
  | writeThenReset (word : Word)
  deriving DecidableEq, Repr

/-- What the host has observed (30_encoding.md R85: the lines READ and TAKE_OUT). -/
inductive HostEvent where
  | readValue (offset : Offset) (value : Word)
  | tookOut (bytes : List Byte)
  deriving DecidableEq, Repr

/-- The error kinds (60_exceptions.md R200). -/
inductive ErrorKind where
  | badMagicNumber
  | malformedHeader
  | truncatedPayload
  | missingCode
  | capacityExceeded
  | illegalCommand
  | sequenceError
  deriving DecidableEq, Repr

/-- The preconditions a command can have (30_encoding.md R81, R82). -/
inductive Precondition where
  /-- FREQ_VALID = 1. -/
  | freqValid
  /-- TREE_VALID = 1. -/
  | treeValid
  /-- TREE_SRC = 0. -/
  | treeBuilt
  /-- CODES_VALID = 1. -/
  | codesValid
  deriving DecidableEq, Repr

/-- The whole machine: first what the spec names, then the model's own fields. -/
structure State where
  /-- MAGIC (10_state.md R47): the parameter of 00_scope.md R11. -/
  magic : Word
  /-- W_CNT (00_scope.md R12): the parameter. -/
  wCnt : Nat
  /-- STATUS.BUSY (10_state.md R36). -/
  busy : Bool
  /-- STATUS.ERR (R36). -/
  err : Bool
  /-- STATUS.FREQ_VALID (R33). -/
  freqValid : Bool
  /-- STATUS.TREE_VALID (R34). -/
  treeValid : Bool
  /-- STATUS.TREE_SRC (R34): true when the tree came from RDTREE. -/
  treeSrc : Bool
  /-- STATUS.CODES_VALID (R35). -/
  codesValid : Bool
  /-- STATUS.ERRCODE (R36). -/
  errCode : BitVec 4
  /-- ERRINFO.SUBCAUSE (R37). -/
  subcause : BitVec 8
  /-- ERRINFO.FAILOP (R37). -/
  failOp : BitVec 8
  /-- ERRDATA (R38). -/
  errData : Word
  /-- CUROP (R21). -/
  curOp : Byte
  /-- CSTEP (R21). -/
  cstep : BitVec 3
  /-- FREQ (R23). -/
  freq : Vector Word 257
  /-- TOTAL (R24). -/
  total : Word
  /-- NODE (R25). -/
  nodes : Vector Node 513
  /-- NCOUNT (R27). -/
  ncount : NodeIx
  /-- ROOT (R28). -/
  root : NodeIx
  /-- CODE (R30). -/
  codes : Vector Code 257
  /-- PQ (R31): a set, so a list without repeats. -/
  pq : List NodeIx
  /-- CUR (R32). -/
  cur : NodeIx
  /-- MARKS (42_header_codec.md R148). -/
  marks : BitVec 10
  /-- The unfinished calls of rd(), innermost first (42_header_codec.md R148). -/
  rdStack : List RdFrame
  /-- INBITS (10_state.md R45). -/
  inBits : Bits
  /-- INPOS (R45). -/
  inPos : Nat
  /-- OUTBITS (R45). -/
  outBits : Bits
  /-- The model's own: where the ports stood after each stream operation since the last CMD write, newest first
  (log 13). -/
  portTrace : List PortMark
  /-- The model's own: how many free values have been drawn (log 12). -/
  draws : Nat
  /-- The model's own: the host's moves still to come, oldest first (log 1). -/
  script : List HostMove
  /-- The model's own: what the host has observed, oldest first (log 2). -/
  hostLog : List HostEvent
  deriving DecidableEq, Repr

/-- Why the machine stops. None of these is an error of the hardware: its errors are next states with ERR = 1
(60_exceptions.md R206). Each is raised only in a state that no run from reset reaches, where a table breaks what the
spec says always holds of it (logs 14, 15). -/
inductive Fault where
  /-- A tree walk (GENCODES, WRTREE, DECODE) or BUILD met a node index outside the store, or a walk went deeper than
  any tree in the store can be (10_state.md R26, 41_code_table.md R130). Safe. -/
  | nodeStoreBroken
  /-- new_node was called with NCOUNT = NMAX, which its callers guarantee against (10_state.md R29). Raised by BUILD
  and the header tokens. Safe. -/
  | nodeStoreFull
  /-- GENCODES met a leaf whose SYM is no symbol (10_state.md R25). Safe. -/
  | symbolOutOfTable
  /-- BUILD found every count 0, though FREQ[256] is 1 after every COUNT (10_state.md R23). Safe. -/
  | noLeaf
  /-- A loop reached the bound 70_reset_and_hazards.md R247 gives its work without ending. Never raised. Safe. -/
  | loopBound
  deriving DecidableEq, Repr

/-- Why the model gives an instruction or a host move no next state. -/
inductive Refusal where
  /-- An instruction with no meaning yet. Raised by exec's arms only. Safe. -/
  | notModelled (mnemonic : String)
  /-- A command while BUSY = 1: the host has no such move (70_reset_and_hazards.md R241 item 1; log 16). Safe. -/
  | hostBusy
  /-- A register access that is not word-aligned: the host has no such move (R241 item 4; log 16). Safe. -/
  | misaligned
  /-- A header token or magic field while the engine is not in the command that reads it (30_encoding.md R87, R89;
  log 4). Safe. -/
  | notReadingStream
  /-- A step with BUSY = 1 inside a command other than RDMAGIC and RDTREE: commands are indivisible
  (70_reset_and_hazards.md R246; log 3). Safe. -/
  | insideCommand
  deriving DecidableEq, Repr

/-- The outcome of an instruction or a step. -/
abbrev Outcome := Host.Outcome State Fault Refusal

/-- A node-store entry that nothing has written: DESIGN CHOICE, unsafe, log 9. -/
def Node.unwritten : Node := { leaf := false, sym := 0, weight := 0, left := 0, right := 0 }

/-- A code-table entry that nothing has written: DESIGN CHOICE, unsafe, log 9. Also what GENCODES gives a symbol
without a code (41_code_table.md R133). -/
def Code.absent : Code := { len := 0, bits := [] }

/-- The machine right after reset (10_state.md R46). The flags and error fields are the spec's; the tables and hidden
registers are logs 9 and 10, the ports log 11, MAGIC log 5, the model's own fields logs 1, 2, 12 and 13. -/
def State.reset : State where
  magic := Config.magic
  wCnt := Config.wCnt
  busy := false
  err := false
  freqValid := false
  treeValid := false
  treeSrc := false
  codesValid := false
  errCode := 0
  subcause := 0
  failOp := 0
  errData := 0
  curOp := 0
  cstep := 0
  freq := Vector.replicate 257 0
  total := 0
  nodes := Vector.replicate 513 Node.unwritten
  ncount := 0
  root := 0
  codes := Vector.replicate 257 Code.absent
  pq := []
  cur := 0
  marks := 0
  rdStack := []
  inBits := []
  inPos := 0
  outBits := []
  portTrace := []
  draws := 0
  script := []
  hostLog := []

end Sys2Proof.Machine
end

