-- ==== Sys2Proof/Machine/Flags.lean ====
section
/-! DEFINITION. The STATUS flags, the error fields and the preconditions they decide (10_state.md R33 to R38,
30_encoding.md R81, R82, 60_exceptions.md R200). -/

namespace Sys2Proof.Machine

/-- ERRCODE of an error kind (60_exceptions.md R200). -/
def ErrorKind.code : ErrorKind → BitVec 4
  | .badMagicNumber => 1
  | .malformedHeader => 2
  | .truncatedPayload => 3
  | .missingCode => 4
  | .capacityExceeded => 5
  | .illegalCommand => 6
  | .sequenceError => 7

/-- Every table loses its meaning (45_control.md R181, 60_exceptions.md R206). -/
def State.clearValid (s : State) : State :=
  { s with freqValid := false, treeValid := false, treeSrc := false, codesValid := false }

/-- The error fields as they are while ERR = 0 (45_control.md R181, 10_state.md R36 to R38). -/
def State.clearError (s : State) : State :=
  { s with err := false, errCode := 0, subcause := 0, failOp := 0, errData := 0 }

/-- Whether a precondition holds (30_encoding.md R81). -/
def Precondition.holds (p : Precondition) (s : State) : Bool :=
  match p with
  | .freqValid => s.freqValid
  | .treeValid => s.treeValid
  | .treeBuilt => !s.treeSrc
  | .codesValid => s.codesValid

/-- SUBCAUSE of the SequenceError an unmet precondition raises (60_exceptions.md R205). -/
def Precondition.subcause : Precondition → BitVec 8
  | .freqValid => 1
  | .treeValid => 2
  | .treeBuilt => 3
  | .codesValid => 4

/-- The first unmet precondition, in the order listed (30_encoding.md R82, 60_exceptions.md R208). -/
def firstUnmet (ps : List Precondition) (s : State) : Option Precondition := ps.find? fun p => !p.holds s

/-- A word with one bit set, or none. -/
def bitAt (b : Bool) (i : Nat) : Word := if b then BitVec.twoPow 32 i else 0

/-- STATUS (10_state.md R36). -/
def State.status (s : State) : Word :=
  bitAt s.busy 0 ||| bitAt s.err 1 ||| bitAt s.freqValid 2 ||| bitAt s.treeValid 3 ||| bitAt s.treeSrc 4 |||
    bitAt s.codesValid 5 ||| (s.errCode.setWidth 32 <<< 8)

/-- ERRINFO (10_state.md R37). -/
def State.errInfo (s : State) : Word := s.subcause.setWidth 32 ||| (s.failOp.setWidth 32 <<< 8)

end Sys2Proof.Machine
end

