-- ==== Sys2Proof/Machine/Operands.lean ====
section
/-! DEFINITION. The implicit operands of the commands: the cells of FREQ, NODE and CODE (10_state.md R23, R25, R30),
and the host's view of the registers and readout windows (R41 to R43). -/

namespace Sys2Proof.Machine

/-- A symbol as an index of the 257-entry tables; none for the field values 257 to 511. -/
def symbolIndex (s : Symbol) : Option (Fin 257) := if h : s.toNat < 257 then some ⟨s.toNat, h⟩ else none

/-- A byte read from IN as an index of the 257-entry tables (40_count_and_build.md R110: v in 0 .. 255). -/
def byteIndex (v : Nat) : Fin 257 := ⟨v % 256, by omega⟩

/-- The index of the end-of-stream symbol 256 (00_scope.md R9). -/
def eofIndex : Fin 257 := ⟨256, by omega⟩

/-- FREQ[i]. -/
def State.freqAt (s : State) (i : Fin 257) : Word := s.freq[i.val]

/-- FREQ[i] <- v. -/
def State.setFreq (s : State) (i : Fin 257) (v : Word) : State := { s with freq := s.freq.set i.val v i.isLt }

/-- CODE[i]. -/
def State.codeAt (s : State) (i : Fin 257) : Code := s.codes[i.val]

/-- CODE[i].BITS <- p; CODE[i].LEN <- |p| (41_code_table.md R130). -/
def State.setCode (s : State) (i : Fin 257) (p : Bits) : State :=
  { s with codes := s.codes.set i.val { len := BitVec.ofNat 9 p.length, bits := p } i.isLt }

/-- NODE[i]; none for an index outside the store. -/
def State.nodeAt (s : State) (i : NodeIx) : Option Node := s.nodes[i.toNat]?

/-- NODE[i].WEIGHT. The index is always one new_node answered, so the store holds it (40_count_and_build.md R113). -/
def State.weightAt (s : State) (i : NodeIx) : Word := ((s.nodeAt i).map Node.weight).getD 0

/-! ### The host's view -/

/-- A word holding up to 32 bits of a string from bit 31 down, the rest 0 (10_state.md R42, the CODE bits window). -/
def leftWord (b : Bits) : Word := BitVec.ofNat 32 (val (b.take 32 ++ List.replicate (32 - b.length) false))

/-- Word 0 of a node's window entry (10_state.md R42). -/
def Node.word0 (n : Node) : Word :=
  if n.leaf then BitVec.twoPow 32 31 ||| n.sym.setWidth 32
  else n.left.setWidth 32 ||| (n.right.setWidth 32 <<< 16)

/-- A value that has meaning only while a flag is set (10_state.md R41 to R43). -/
def onlyWhile (flag : Bool) (v : Option Word) : Option Word := if flag then v else none

/-- The register at a byte offset (10_state.md R41, R42); none where a read is unspecified (R43). -/
def State.register (s : State) (offset : Nat) : Option Word :=
  if offset = 0x000 then some 0
  else if offset = 0x004 then some s.status
  else if offset = 0x008 then some s.errInfo
  else if offset = 0x00C then some s.errData
  else if offset = 0x010 then some s.magic
  else if offset = 0x014 then onlyWhile s.treeValid (some (s.root.setWidth 32))
  else if offset = 0x018 then onlyWhile s.treeValid (some (s.ncount.setWidth 32))
  else if offset = 0x01C then onlyWhile s.freqValid (some s.total)
  else if 0x0400 ≤ offset ∧ offset < 0x0400 + 4 * 257 then
    onlyWhile s.freqValid (s.freq[(offset - 0x0400) / 4]?)
  else if 0x1000 ≤ offset ∧ offset < 0x1000 + 4 * 257 then
    onlyWhile s.codesValid (s.codes[(offset - 0x1000) / 4]?.map fun c => c.len.setWidth 32)
  else if 0x2000 ≤ offset ∧ offset < 0x2000 + 32 * 257 then
    onlyWhile s.codesValid (s.codes[(offset - 0x2000) / 32]?.map fun c =>
      leftWord ((c.bits.take c.len.toNat).drop (32 * ((offset - 0x2000) % 32 / 4))))
  else if 0x8000 ≤ offset ∧ offset < 0x8000 + 8 * 513 then
    onlyWhile (s.treeValid && decide ((offset - 0x8000) / 8 < s.ncount.toNat))
      (s.nodes[(offset - 0x8000) / 8]?.map fun n => if (offset - 0x8000) % 8 < 4 then n.word0 else n.weight)
  else none

end Sys2Proof.Machine
end

