-- ==== Sys2Proof/Machine/Ops.lean ====
section
/-! DEFINITION. The operations the commands share: the stream ports (20_memory.md R62 to R67), error entry and return
(60_exceptions.md R206, R210), new_node (10_state.md R29) and command decode (30_encoding.md R82). -/

namespace Sys2Proof.Machine

/-! ### Stream ports -/

/-- Where the ports stand now. -/
def State.portMark (s : State) : PortMark := { inPos := s.inPos, outLen := s.outBits.length }

/-- A stream operation is over: its place joins the trace (log 13). -/
def State.mark (s : State) : State := { s with portTrace := s.portMark :: s.portTrace }

/-- The bits of IN not yet read. -/
def State.unread (s : State) : Bits := s.inBits.drop s.inPos

/-- Moves the read position to p. -/
def State.seek (s : State) (p : Nat) : State := State.mark { s with inPos := p }

/-- readBits(n) (20_memory.md R62): none is EOS. -/
def readBits (n : Nat) (s : State) : Option Nat × State :=
  if s.inPos + n > s.inBits.length then (none, s.seek s.inBits.length)
  else (some (val (s.unread.take n)), s.seek (s.inPos + n))

/-- writeStr(b) (20_memory.md R63). -/
def writeStr (b : Bits) (s : State) : State := State.mark { s with outBits := s.outBits ++ b }

/-- writeBits(n, v) (20_memory.md R63). -/
def writeBits (n v : Nat) (s : State) : State := writeStr (bin n v) s

/-- reset() of a readable stream (20_memory.md R64). -/
def rewindIn (s : State) : State := s.seek 0

/-- close() (20_memory.md R65), at most k padding bits. -/
def padOut : Nat → State → State
  | 0, s => s
  | k + 1, s => if s.outBits.length % 8 = 0 then s else padOut k (writeBits 1 0 s)

/-- close() (20_memory.md R65): it writes between 0 and 7 bits. -/
def closeOut (s : State) : State := padOut 7 s

/-- A byte whose bit 7 is the first of up to 8 bits (20_memory.md R66). -/
def byteOf (b : Bits) : Byte := BitVec.ofNat 8 (val b)

/-- The whole bytes at the front of a bit string, at most k (20_memory.md R66, R67). -/
def bytesUpTo : Nat → Bits → List Byte
  | 0, _ => []
  | k + 1, b => if b.length < 8 then [] else byteOf (b.take 8) :: bytesUpTo k (b.drop 8)

/-- The first floor(|b| / 8) bytes of a bit string (20_memory.md R67). -/
def wholeBytes (b : Bits) : List Byte := bytesUpTo (b.length / 8) b

/-- A byte sequence as a bit string (20_memory.md R61, R66). -/
def bitsOf (bytes : List Byte) : Bits := bytes.flatMap fun b => bin 8 b.toNat

/-! ### Errors -/

/-- The hidden registers an error discards: any value (60_exceptions.md R206, 93_implementation_defined.md I32;
log 10). -/
def State.discardHidden (s : State) : State :=
  { s with
    cur := (Config.freeWord s.draws).setWidth 10
    marks := (Config.freeWord (s.draws + 1)).setWidth 10
    cstep := (Config.freeWord (s.draws + 2)).setWidth 3
    draws := s.draws + 3
    pq := []
    rdStack := [] }

/-- raise E(sub, data) with the FAILOP given (60_exceptions.md R206). -/
def raiseAs (failOp : Byte) (e : ErrorKind) (sub : BitVec 8) (data : Word) (s : State) : State :=
  { s.clearValid.discardHidden with
    err := true
    errCode := e.code
    subcause := sub
    errData := data
    failOp := failOp
    busy := false }

/-- raise E(sub, data) inside a command: FAILOP <- CUROP (60_exceptions.md R206). -/
def raise (e : ErrorKind) (sub : BitVec 8) (data : Word) (s : State) : State := raiseAs s.curOp e sub data s

/-- The return from an error (60_exceptions.md R210), CLEAR's effect (45_control.md R181). -/
def clearAll (s : State) : State := s.clearError.clearValid

/-! ### Outcomes in sequence -/

/-- Goes on with f from a next state. -/
def andThen (o : Outcome) (f : State → Outcome) : Outcome :=
  match o with
  | .next t => f t
  | .fault e => .fault e
  | .refused r => .refused r

/-- Goes on with f from a next state in which no error has been raised: the pseudocode after a raise is not executed
(00_scope.md R17). -/
def unlessRaised (o : Outcome) (f : State → Outcome) : Outcome :=
  andThen o fun t => if t.err then .next t else f t

/-! ### The node store -/

/-- new_node (10_state.md R29): the index and the state after; none when the store is full, which the callers
guarantee against. -/
def newNode (n : Node) (s : State) : Option (NodeIx × State) :=
  if h : s.ncount.toNat < 513 then
    some (s.ncount, { s with nodes := s.nodes.set s.ncount.toNat n h, ncount := s.ncount + 1 })
  else none

/-! ### Running a command -/

/-- A command that can be a step of COMPRESS or DECOMPRESS: its opcode, its preconditions and its pseudocode
(30_encoding.md R81). -/
structure Primitive where
  op : Byte
  needs : List Precondition
  body : State → Outcome

/-- Checks the preconditions, then runs the pseudocode (30_encoding.md R82). -/
def Primitive.run (p : Primitive) (s : State) : Outcome :=
  match firstUnmet p.needs s with
  | some q => .next (raise .sequenceError q.subcause (s.curOp.setWidth 32) s)
  | none => p.body s

/-- The command is over: BUSY <- 0 (30_encoding.md R82). -/
def finish (o : Outcome) : Outcome := andThen o fun t => .next { t with busy := false }

/-- A host write of a defined word to CMD (30_encoding.md R82): no move while BUSY = 1, ignored while ERR = 1
(60_exceptions.md R209), else run to completion or to its first error (70_reset_and_hazards.md R246). -/
def runCommand (p : Primitive) (s : State) : Outcome :=
  if s.busy then .refused .hostBusy
  else if s.err then .next s
  else finish (p.run { s with busy := true, curOp := p.op })

/-- The steps of a composite command from step k on (45_control.md R182, R183). -/
def runSteps : Nat → List Primitive → State → Outcome
  | _, [], s => .next s
  | k, p :: ps, s =>
    unlessRaised (p.run { s with cstep := BitVec.ofNat 3 k, curOp := p.op }) (runSteps (k + 1) ps)

/-- A host write to CMD of a word that is no command (30_encoding.md R82, R83). -/
def illegalWord (w : Word) (s : State) : State :=
  if rsvdField w ≠ 0 then raiseAs (opField w) .illegalCommand 2 w s
  else raiseAs (opField w) .illegalCommand 1 w s

end Sys2Proof.Machine
end

