-- ==== Sys2Proof/Machine/Control.lean ====
section
/-! DEFINITION. NOP, CLEAR and the reserved words (45_control.md R180, R181, 30_encoding.md R83). -/

namespace Sys2Proof.Machine

/-- NOP (45_control.md R180). -/
def nopPrim : Primitive := { op := 0x00, needs := [], body := fun s => .next s }

/-- NOP. -/
def execNop (s : State) : Outcome := runCommand nopPrim s

/-- CLEAR (45_control.md R181). -/
def clearPrim : Primitive := { op := 0x0F, needs := [], body := fun s => .next (clearAll s) }

/-- CLEAR is the one word acted on while ERR = 1, without BUSY or CUROP being set (30_encoding.md R82). -/
def execClear (s : State) : Outcome :=
  if s.busy then .refused .hostBusy
  else if s.err then .next (clearAll s)
  else runCommand clearPrim s

/-- A reserved word (30_encoding.md R82, R83): ignored while ERR = 1, else IllegalCommand. -/
def execReserved (w : Word) (s : State) : Outcome :=
  if s.busy then .refused .hostBusy
  else if s.err then .next s
  else .next (illegalWord w s)

end Sys2Proof.Machine
end

