-- ==== Sys2Proof/Machine/CodeTable.lean ====
section
/-! DEFINITION. GENCODES (41_code_table.md). -/

namespace Sys2Proof.Machine

/-- CODE[sym] <- p at a leaf of the walk (41_code_table.md R130). -/
def recordCode (sym : Symbol) (p : Bits) (s : State) : Outcome :=
  match symbolIndex sym with
  | some i => .next (s.setCode i p)
  | none => .fault .symbolOutOfTable

/-- walk(n, p) (41_code_table.md R130), at most k levels deep. -/
def codeWalk : Nat → NodeIx → Bits → State → Outcome
  | 0, _, _, _ => .fault .nodeStoreBroken
  | k + 1, n, p, s =>
    match s.nodeAt n with
    | none => .fault .nodeStoreBroken
    | some d =>
      if d.leaf then recordCode d.sym p s
      else andThen (codeWalk k d.left (p ++ [false]) s) (codeWalk k d.right (p ++ [true]))

/-- GENCODES (R130): the code of a root leaf is "0" (R132). A path has at most MAXLEN bits, so a walk has at most
MAXLEN + 1 levels. -/
def gencodesPrim : Primitive where
  op := 0x04
  needs := [.treeValid, .treeBuilt]
  body := fun s =>
    let t : State := { s with codesValid := false, codes := Vector.replicate 257 Code.absent }
    andThen
      (match t.nodeAt t.root with
        | none => .fault .nodeStoreBroken
        | some d => if d.leaf then recordCode d.sym [false] t else codeWalk (Config.maxLen + 1) t.root [] t)
      fun u => .next { u with codesValid := true }

/-- GENCODES. -/
def execGencodes (s : State) : Outcome := runCommand gencodesPrim s

end Sys2Proof.Machine
end

