-- ==== Sys2Proof/Machine/Decoder.lean ====
section
/-! DEFINITION. DECODE (44_decoder.md). -/

namespace Sys2Proof.Machine

/-- Where the walk goes from node d on bit b: to a child, or nowhere from a leaf, which is then the root
(44_decoder.md R170, R171). -/
def walkBit (d : Node) (b : Nat) (s : State) : State :=
  if d.leaf then s else { s with cur := if b = 0 then d.left else d.right }

/-- The loop of DECODE (44_decoder.md R170), at most the bits of R172. -/
def decodeLoop : Nat → State → Outcome
  | 0, _ => .fault .loopBound
  | k + 1, s =>
    match readBits 1 s with
    | (none, t) => .next (raise .truncatedPayload 1 0 t)
    | (some b, t) =>
      match t.nodeAt t.cur with
      | none => .fault .nodeStoreBroken
      | some d =>
        let u := walkBit d b t
        match u.nodeAt u.cur with
        | none => .fault .nodeStoreBroken
        | some e =>
          if e.leaf then
            if e.sym = Config.pseudoEof then .next u
            else decodeLoop k { writeBits 8 e.sym.toNat u with cur := u.root }
          else decodeLoop k u

/-- DECODE (R170). -/
def decodePrim : Primitive where
  op := 0x0B
  needs := [.treeValid]
  body := fun s => decodeLoop (s.inBits.length - s.inPos + 1) { s with cur := s.root }

/-- DECODE. -/
def execDecode (s : State) : Outcome := runCommand decodePrim s

end Sys2Proof.Machine
end

