-- ==== Sys2Proof/Machine/CountBuild.lean ====
section
/-! DEFINITION. COUNT, REWIND and BUILD (40_count_and_build.md). -/

namespace Sys2Proof.Machine

/-! ### COUNT -/

/-- The count no byte may be added to: 2^W_CNT - 2 (40_count_and_build.md R110). -/
def State.countLimit (s : State) : Word := BitVec.ofNat 32 (2 ^ s.wCnt - 2)

/-- TOTAL <- TOTAL + 1; FREQ[v] <- FREQ[v] + 1 (R110). -/
def countByte (v : Nat) (s : State) : State :=
  State.setFreq { s with total := s.total + 1 } (byteIndex v) (s.freqAt (byteIndex v) + 1)

/-- The loop of COUNT (R110), at most the groups of 70_reset_and_hazards.md R247. -/
def countLoop : Nat → State → Outcome
  | 0, _ => .fault .loopBound
  | k + 1, s =>
    match readBits 8 s with
    | (none, t) => .next t
    | (some v, t) =>
      if t.total = t.countLimit then .next (raise .capacityExceeded 1 0 t)
      else countLoop k (countByte v t)

/-- What COUNT does before its loop (R110): FREQ[256] is left alone. -/
def countStart (s : State) : State :=
  { s.clearValid with freq := (Vector.replicate 257 0).set 256 s.freq[256], total := 0 }

/-- What COUNT does after its loop (R110). -/
def countEnd (s : State) : State := { s.setFreq eofIndex 1 with freqValid := true }

/-- The groups of 8 bits a command can read, and the read that answers EOS (70_reset_and_hazards.md R247). -/
def State.groupBound (s : State) : Nat := (s.inBits.length - s.inPos) / 8 + 1

/-- COUNT (R110). -/
def countPrim : Primitive where
  op := 0x01
  needs := []
  body := fun s => unlessRaised (countLoop s.groupBound (countStart s)) fun t => .next (countEnd t)

/-- COUNT. -/
def execCount (s : State) : Outcome := runCommand countPrim s

/-! ### REWIND -/

/-- REWIND (R111). -/
def rewindPrim : Primitive := { op := 0x02, needs := [], body := fun s => .next (rewindIn s) }

/-- REWIND. -/
def execRewind (s : State) : Outcome := runCommand rewindPrim s

/-! ### BUILD -/

/-- The order in which nodes leave PQ: smaller weight, then smaller index (R115). -/
def State.before (s : State) (a b : NodeIx) : Bool :=
  decide (s.weightAt a < s.weightAt b) || (decide (s.weightAt a = s.weightAt b) && decide (a < b))

/-- The element of a list that leaves PQ first, m being the first so far. -/
def State.firstOf (s : State) : NodeIx → List NodeIx → NodeIx
  | m, [] => m
  | m, a :: as => s.firstOf (if s.before a m then a else m) as

/-- popmin(PQ) (R115). -/
def popMin (s : State) : Option (NodeIx × State) :=
  match s.pq with
  | [] => none
  | a :: as => some (s.firstOf a as, { s with pq := s.pq.erase (s.firstOf a as) })

/-- PQ <- PQ ∪ new_node(...) (R113). -/
def enqueueNode (n : Node) (s : State) : Outcome :=
  match newNode n s with
  | some (i, t) => .next { t with pq := t.pq ++ [i] }
  | none => .fault .nodeStoreFull

/-- The leaves of BUILD, in ascending symbol order: the counts with their symbols (R113). -/
def buildLeaves : List (Word × Nat) → State → Outcome
  | [], s => .next s
  | (w, sym) :: rest, s =>
    if w = 0 then buildLeaves rest s
    else andThen (enqueueNode { leaf := true, sym := BitVec.ofNat 9 sym, weight := w, left := 0, right := 0 } s)
      (buildLeaves rest)

/-- One merge: the two first nodes leave PQ and their parent enters it, the first removed its LEFT (R113). -/
def mergeOnce (s : State) : Outcome :=
  match popMin s with
  | none => .fault .noLeaf
  | some (a, t) =>
    match popMin t with
    | none => .fault .noLeaf
    | some (b, u) =>
      enqueueNode { leaf := false, sym := 0, weight := u.weightAt a + u.weightAt b, left := a, right := b } u

/-- The merges of BUILD and what follows them (R113), at most k rounds: each leaves one node less in PQ. -/
def mergeLoop : Nat → State → Outcome
  | 0, _ => .fault .loopBound
  | k + 1, s =>
    match s.pq with
    | [] => .fault .noLeaf
    | [r] => .next { s with root := r, pq := [], treeSrc := false, treeValid := true }
    | _ :: _ :: _ => andThen (mergeOnce s) (mergeLoop k)

/-- BUILD (R113). -/
def buildPrim : Primitive where
  op := 0x03
  needs := [.freqValid]
  body := fun s =>
    andThen (buildLeaves s.freq.toList.zipIdx { s with treeValid := false, codesValid := false, ncount := 0, pq := [] })
      fun t => mergeLoop (t.pq.length + 1) t

/-- BUILD. -/
def execBuild (s : State) : Outcome := runCommand buildPrim s

end Sys2Proof.Machine
end

