-- ==== Sys2Proof/Machine/Encoder.lean ====
section
/-! DEFINITION. ENCODE and CLOSE (43_encoder.md). -/

namespace Sys2Proof.Machine

/-- Writes the code of one symbol, or raises MissingCode before any of its bits (43_encoder.md R160). -/
def encodeSymbol (i : Fin 257) (s : State) : State :=
  if (s.codeAt i).len = 0 then raise .missingCode 1 (BitVec.ofNat 32 i.val) s
  else writeStr (s.codeAt i).bits s

/-- The loop of ENCODE (43_encoder.md R160), at most the groups of 70_reset_and_hazards.md R247. -/
def encodeLoop : Nat → State → Outcome
  | 0, _ => .fault .loopBound
  | k + 1, s =>
    match readBits 8 s with
    | (none, t) => .next t
    | (some v, t) => unlessRaised (.next (encodeSymbol (byteIndex v) t)) (encodeLoop k)

/-- ENCODE (R160). -/
def encodePrim : Primitive where
  op := 0x07
  needs := [.codesValid]
  body := fun s => unlessRaised (encodeLoop s.groupBound s) fun t => .next (encodeSymbol eofIndex t)

/-- ENCODE. -/
def execEncode (s : State) : Outcome := runCommand encodePrim s

/-- CLOSE (43_encoder.md R161). -/
def closePrim : Primitive := { op := 0x08, needs := [], body := fun s => .next (closeOut s) }

/-- CLOSE. -/
def execClose (s : State) : Outcome := runCommand closePrim s

end Sys2Proof.Machine
end

