-- ==== Sys2Proof/Machine/HeaderCodec.lean ====
section
/-! DEFINITION. WRMAGIC, WRTREE, RDMAGIC, RDTREE and the stream rows RDMAGIC and RDTREE read (42_header_codec.md,
30_encoding.md R87 to R89). -/

namespace Sys2Proof.Machine

/-! ### Encode side -/

/-- WRMAGIC (42_header_codec.md R140). -/
def wrmagicPrim : Primitive where
  op := 0x05
  needs := []
  body := fun s => .next (writeBits Config.magicBits s.magic.toNat s)

/-- WRMAGIC. -/
def execWrmagic (s : State) : Outcome := runCommand wrmagicPrim s

/-- wr(n) (42_header_codec.md R141), at most k levels deep. -/
def writeTree : Nat → NodeIx → State → Outcome
  | 0, _, _ => .fault .nodeStoreBroken
  | k + 1, n, s =>
    match s.nodeAt n with
    | none => .fault .nodeStoreBroken
    | some d =>
      if d.leaf then .next (writeBits Config.leafBits d.sym.toNat (writeBits 1 1 s))
      else andThen (writeTree k d.left (writeBits 1 0 s)) (writeTree k d.right)

/-- WRTREE (R141). The tree has at most MAXLEN + 1 levels (R141, corner cases). -/
def wrtreePrim : Primitive where
  op := 0x06
  needs := [.treeValid]
  body := fun s => writeTree (Config.maxLen + 1) s.root s

/-- WRTREE. -/
def execWrtree (s : State) : Outcome := runCommand wrtreePrim s

/-! ### The magic field -/

/-- RDMAGIC's test of the 32 bits it read: none when they are MAGIC (42_header_codec.md R145). -/
def checkMagic (v : Word) (s : State) : State := if v = s.magic then s else raise .badMagicNumber 2 v s

/-- RDMAGIC (R145). -/
def rdmagicPrim : Primitive where
  op := 0x09
  needs := []
  body := fun s =>
    match readBits Config.magicBits s with
    | (none, t) => .next (raise .badMagicNumber 1 0 t)
    | (some v, t) => .next (checkMagic (BitVec.ofNat 32 v) t)

/-- RDMAGIC. -/
def execRdmagic (s : State) : Outcome := runCommand rdmagicPrim s

/-- Whether the engine is inside the command with this opcode, where that command's stream rows have their meaning. -/
def State.inside (s : State) (op : Byte) : Bool := s.busy && decide (s.curOp = op)

/-- MAGIC_FIELD: what RDMAGIC does with the field once it is read, and the end of the command (R145; log 4). -/
def execMagicField (v : Word) (s : State) : Outcome :=
  if s.inside 0x09 then finish (.next (checkMagic v s)) else .refused .notReadingStream

/-! ### The tree header -/

/-- Where RDTREE stands after a token. -/
inductive Parsed where
  /-- A subtree is still missing. -/
  | more (s : State)
  /-- The root is there. -/
  | complete (s : State)
  /-- An error was raised. -/
  | raised (s : State)
  /-- new_node had no room. -/
  | full

/-- rd() has answered a node: its waiting callers go on, innermost first (42_header_codec.md R148). A caller that has
both subtrees makes their parent; when no caller waits, the node is the root. -/
def subtreeDone : List RdFrame → NodeIx → State → Parsed
  | [], i, s => .complete { s with root := i, treeSrc := true, treeValid := true, rdStack := [] }
  | .waitLeft :: up, i, s => .more { s with rdStack := .waitRight i :: up }
  | .waitRight l :: up, r, s =>
    match newNode { leaf := false, sym := 0, weight := 0, left := l, right := r } s with
    | some (p, t) => subtreeDone up p t
    | none => .full

/-- rd() after it has read a token (42_header_codec.md R148). -/
def takeToken (t : Token) (s : State) : Parsed :=
  match t with
  | .internal => .more { s with rdStack := .waitLeft :: s.rdStack }
  | .leaf v =>
    if v > 256 then .raised (raise .malformedHeader 3 (v.setWidth 32) s)
    else
      match newNode { leaf := true, sym := v, weight := 0, left := 0, right := 0 } s with
      | some (i, u) => subtreeDone u.rdStack i u
      | none => .full

/-- What reading one token as rd() reads it answers: the marker, the capacity check, then a leaf's field
(42_header_codec.md R148). -/
inductive Fetched where
  | token (t : Token) (s : State)
  | raised (s : State)

/-- MARKS <- MARKS + 1 (42_header_codec.md R148). -/
def countMark (s : State) : State := { s with marks := s.marks + 1 }

/-- Reads one token from IN (42_header_codec.md R148); what the token is, the decoder says (30_encoding.md R92). -/
def fetchToken (s : State) : Fetched :=
  match readBits 1 s with
  | (none, t) => .raised (raise .malformedHeader 1 0 t)
  | (some m, t) =>
    let u := countMark t
    let marker := decide (m = 1)
    if u.marks > 513 then .raised (raise .malformedHeader 4 (u.marks.setWidth 32) u)
    else if tokenLength marker = 1 then .token (tokenOf marker 0) u
    else
      match readBits (tokenLength marker - 1) u with
      | (none, x) => .raised (raise .malformedHeader 2 0 x)
      | (some v, x) => .token (tokenOf marker v) x

/-- RDTREE reads tokens until the root is there or an error is raised (R148), at most k of them. -/
def readTree : Nat → State → Outcome
  | 0, _ => .fault .loopBound
  | k + 1, s =>
    match fetchToken s with
    | .raised t => .next t
    | .token tok t =>
      match takeToken tok t with
      | .more u => readTree k u
      | .complete u => .next u
      | .raised u => .next u
      | .full => .fault .nodeStoreFull

/-- RDTREE (R148). The 514th marker raises, so 514 rounds are enough. -/
def rdtreePrim : Primitive where
  op := 0x0A
  needs := []
  body := fun s =>
    readTree (Config.nmax + 1)
      { s with treeValid := false, codesValid := false, ncount := 0, marks := 0, rdStack := [] }

/-- RDTREE. -/
def execRdtree (s : State) : Outcome := runCommand rdtreePrim s

/-- A token on its own, in an engine inside RDTREE: what rd() does with it, and the end of the command when it
completes the tree or raises (log 4). -/
def oneToken (tok : Token) (s : State) : Outcome :=
  if s.inside 0x0A then
    match takeToken tok s with
    | .more u => .next u
    | .complete u => .next { u with busy := false }
    | .raised u => .next u
    | .full => .fault .nodeStoreFull
  else .refused .notReadingStream

/-- HDR_INTERNAL (30_encoding.md R89, 42_header_codec.md R148). -/
def execHdrInternal (s : State) : Outcome := oneToken .internal s

/-- HDR_LEAF (30_encoding.md R89, 42_header_codec.md R148). -/
def execHdrLeaf (sym : Symbol) (s : State) : Outcome := oneToken (.leaf sym) s

end Sys2Proof.Machine
end

