-- ==== Sys2Proof/Machine/Pipelines.lean ====
section
/-! DEFINITION. COMPRESS and DECOMPRESS (45_control.md R182, R183). -/

namespace Sys2Proof.Machine

/-- The steps of COMPRESS (R182). -/
def compressSteps : List Primitive :=
  [countPrim, rewindPrim, buildPrim, gencodesPrim, wrmagicPrim, wrtreePrim, encodePrim, closePrim]

/-- COMPRESS (R182). -/
def compressPrim : Primitive := { op := 0x0C, needs := [], body := runSteps 0 compressSteps }

/-- COMPRESS. -/
def execCompress (s : State) : Outcome := runCommand compressPrim s

/-- The steps of DECOMPRESS (R183). -/
def decompressSteps : List Primitive := [rdmagicPrim, rdtreePrim, decodePrim, closePrim]

/-- DECOMPRESS (R183). -/
def decompressPrim : Primitive := { op := 0x0D, needs := [], body := runSteps 0 decompressSteps }

/-- DECOMPRESS. -/
def execDecompress (s : State) : Outcome := runCommand decompressPrim s

end Sys2Proof.Machine
end

