-- ==== Sys2Proof/Machine/Dispatch.lean ====
section
/-! DEFINITION. One arm per instruction: each is one call of its meaning. -/

namespace Sys2Proof.Machine

/-- The meaning of an instruction. -/
def exec (i : Instr) (s : State) : Host.Outcome State Fault Refusal :=
  match i with
  | .nop => Sys2Proof.Machine.execNop s
  | .count => Sys2Proof.Machine.execCount s
  | .rewind => Sys2Proof.Machine.execRewind s
  | .build => Sys2Proof.Machine.execBuild s
  | .gencodes => Sys2Proof.Machine.execGencodes s
  | .wrmagic => Sys2Proof.Machine.execWrmagic s
  | .wrtree => Sys2Proof.Machine.execWrtree s
  | .encode => Sys2Proof.Machine.execEncode s
  | .close => Sys2Proof.Machine.execClose s
  | .rdmagic => Sys2Proof.Machine.execRdmagic s
  | .rdtree => Sys2Proof.Machine.execRdtree s
  | .decode => Sys2Proof.Machine.execDecode s
  | .compress => Sys2Proof.Machine.execCompress s
  | .decompress => Sys2Proof.Machine.execDecompress s
  | .clear => Sys2Proof.Machine.execClear s
  | .reserved w => Sys2Proof.Machine.execReserved w s
  | .hdrInternal => Sys2Proof.Machine.execHdrInternal s
  | .hdrLeaf sym => Sys2Proof.Machine.execHdrLeaf sym s
  | .magicField v => Sys2Proof.Machine.execMagicField v s

end Sys2Proof.Machine
end

