-- ==== Sys2Proof/Machine/HostPort.lean ====
section
/-! DEFINITION. What the host's moves do (10_state.md R39 to R44, 70_reset_and_hazards.md R230, R231), how the engine
goes on inside a header-reading command, and the host's script notation (30_encoding.md R85, R86). -/

namespace Sys2Proof.Machine

/-! ### Reset -/

/-- Reset (10_state.md R46, 70_reset_and_hazards.md R230): every field at its reset value but the parameters and the
ports, which reset leaves alone, and the model's own fields, which are not the block's. -/
def resetBlock (s : State) : State :=
  { State.reset with
    magic := s.magic
    wCnt := s.wCnt
    inBits := s.inBits
    inPos := s.inPos
    outBits := s.outBits
    portTrace := s.portTrace
    draws := s.draws
    script := s.script
    hostLog := s.hostLog }

/-- The ports as they stood at a place in a command's run: OUTBITS only grows, so they are told by INPOS and a length
(20_memory.md R60; log 13). -/
def State.portsAt (s : State) (m : PortMark) : State :=
  { s with inPos := m.inPos, outBits := s.outBits.take m.outLen }

/-- One of a list of places, the first given apart. -/
def pickMark (first : PortMark) (rest : List PortMark) (n : Nat) : PortMark :=
  ((first :: rest)[n % (rest.length + 1)]?).getD first

/-- Reset while a command runs (70_reset_and_hazards.md R231): the command, started in s and ended in t, stops between
two of its stream operations, at a free choice of the places from before its first to after its last. -/
def resetInside (s t : State) : State :=
  resetBlock { t.portsAt (pickMark s.portMark t.portTrace.reverse (Config.freeChoice t.draws)) with
    draws := t.draws + 1 }

/-! ### Host moves -/

/-- A host write of w to CMD (10_state.md R39): the decoder's command is run. -/
def writeCmd (w : Word) (s : State) : Outcome := exec (decodeCommand w) { s with portTrace := [] }

/-- A host register read (10_state.md R41 to R43): an unspecified one draws a free value. -/
def readRegister (offset : Offset) (s : State) : State :=
  match s.register offset.toNat with
  | some v => { s with hostLog := s.hostLog ++ [.readValue offset v] }
  | none =>
    { s with hostLog := s.hostLog ++ [.readValue offset (Config.freeWord s.draws)], draws := s.draws + 1 }

/-- ATTACH_IN (10_state.md R44 action 3). -/
def attachIn (b : Bits) (s : State) : State := { s with inBits := b, inPos := 0 }

/-- TAKE_OUT (10_state.md R44 action 4): the whole bytes are taken, OUT is detached. -/
def takeOut (s : State) : State :=
  { s with hostLog := s.hostLog ++ [.tookOut (wholeBytes s.outBits)], outBits := [] }

/-- An aligned register access (10_state.md R40, 20_memory.md R70). -/
def aligned (offset : Offset) : Bool := decide (offset.toNat % 4 = 0)

/-- One host move, with BUSY = 0 but for a read of STATUS and reset (10_state.md R44, 70_reset_and_hazards.md R241). -/
def hostMove (m : HostMove) (s : State) : Outcome :=
  match m with
  | .write offset w =>
    if !aligned offset then .refused .misaligned
    else if offset = 0 then writeCmd w s
    else .next s
  | .read offset => if aligned offset then .next (readRegister offset s) else .refused .misaligned
  | .attachIn b => .next (attachIn b s)
  | .takeOut => .next (takeOut s)
  | .reset => .next (resetBlock s)
  | .writeThenReset w => andThen (writeCmd w s) fun t => .next (resetInside s t)

/-- Whether the host has this move while BUSY = 1 (70_reset_and_hazards.md R231, R241 item 2). -/
def allowedWhileBusy : HostMove → Bool
  | .read offset => decide (offset = 4)
  | .reset => true
  | .write _ _ | .attachIn _ | .takeOut | .writeThenReset _ => false

/-! ### The engine inside a command -/

/-- The engine with BUSY = 1: inside RDTREE it reads and runs the next token, inside RDMAGIC the magic field
(logs 3, 4). -/
def engineStep (s : State) : Outcome :=
  if s.curOp = 0x0A then
    match fetchToken s with
    | .raised t => .next t
    | .token tok t => exec tok.instr t
  else if s.curOp = 0x09 then
    match readBits Config.magicBits s with
    | (none, t) => .next (raise .badMagicNumber 1 0 t)
    | (some v, t) => exec (.magicField (BitVec.ofNat 32 v)) t
  else .refused .insideCommand

/-- The next thing that happens (log 1): while BUSY = 0 the host's next move, or nothing when it has none; while
BUSY = 1 the host's next move if it has the right to it, else the engine goes on. -/
def nextEvent (s : State) : Outcome :=
  match s.script with
  | [] => if s.busy then engineStep s else .next s
  | m :: rest =>
    if s.busy && !allowedWhileBusy m then engineStep s else hostMove m { s with script := rest }

/-! ### Placing an instruction -/

/-- A state in which the next thing to happen is this instruction: a command word is the host's next move; a header
token lies at the front of IN with the engine inside RDTREE (log 1, log 18). -/
def placeWord (s : State) (nbits w : Nat) : State :=
  if nbits ≤ 8 then { s with busy := true, curOp := 0x0A, inBits := bin 1 w, inPos := 0, script := [] }
  else if nbits ≤ 16 then { s with busy := true, curOp := 0x0A, inBits := bin 10 w, inPos := 0, script := [] }
  else { s with busy := false, script := .write 0 (BitVec.ofNat 32 w) :: s.script }

/-! ### Script notation (30_encoding.md R85, R86; log 19) -/

/-- A line `<MNEMONIC>`: the command's word, written to CMD. -/
def line (i : Instr) : List HostMove := (commandWord i).toList.map (HostMove.write 0)

/-- A line `.word`. -/
def rawWord (w : Word) : List HostMove := [.write 0 w]

/-- A line `ATTACH_IN bytes`. -/
def attachBytes (bytes : List Byte) : List HostMove := [.attachIn (bitsOf bytes)]

/-- WRHDR: WRMAGIC, then WRTREE. -/
def wrhdr : List HostMove := line .wrmagic ++ line .wrtree

/-- RDHDR: RDMAGIC, then RDTREE. -/
def rdhdr : List HostMove := line .rdmagic ++ line .rdtree

end Sys2Proof.Machine
end

