-- ==== Sys2Proof/Safety.lean ====
section
/-! DEFINITION. The words claims about the machine use: trees and their header, codes and walks as the spec defines
them apart from any node store, what a state of the tables says, and the invariants a run keeps. -/

namespace Sys2Proof

/-! ### Trees apart from any node store (00_scope.md R19, 30_encoding.md R88 to R92) -/

/-- A Huffman tree: a leaf stands for one symbol, an internal node has exactly two children (00_scope.md R19). -/
inductive HTree where
  | leaf (sym : Symbol)
  | node (left right : HTree)
  deriving DecidableEq, Repr

namespace HTree

/-- The symbols of the leaves, left to right. -/
def symbols : HTree → List Symbol
  | leaf s => [s]
  | node l r => l.symbols ++ r.symbols

/-- The number of nodes. -/
def size : HTree → Nat
  | leaf _ => 1
  | node l r => l.size + r.size + 1

/-- The length of the longest path. -/
def height : HTree → Nat
  | leaf _ => 0
  | node l r => max l.height r.height + 1

/-- TH: the tree header (30_encoding.md R88). -/
def header : HTree → Bits
  | leaf s => true :: bin 9 s.toNat
  | node l r => false :: (l.header ++ r.header)

/-- Each leaf's symbol with the path to it: left is 0, right is 1 (41_code_table.md R130). -/
def paths : HTree → List (Symbol × Bits)
  | leaf s => [(s, [])]
  | node l r => (l.paths.map fun p => (p.1, false :: p.2)) ++ (r.paths.map fun p => (p.1, true :: p.2))

/-- The code of each leaf's symbol: its path, and "0" for a leaf that is the root (41_code_table.md R130, R132). -/
def codeList : HTree → List (Symbol × Bits)
  | leaf s => [(s, [false])]
  | node l r => (node l r).paths

/-- The bits that lead DECODE from the root to a leaf of a symbol: its path, and any one bit for a leaf that is the
root (44_decoder.md R170, R171). -/
def spells (t : HTree) (s : Symbol) (b : Bits) : Bool :=
  match t with
  | leaf s' => decide (s = s') && decide (b.length = 1)
  | node l r => decide ((s, b) ∈ (node l r).paths)

/-- The bits that lead DECODE from the root to no leaf yet. -/
def unfinished (t : HTree) (b : Bits) : Bool :=
  match t with
  | leaf _ => decide (b = [])
  | node l r => (node l r).paths.any fun p => b.isPrefixOf p.2 && decide (b ≠ p.2)

/-- Every leaf stands for a symbol 0 to 256. -/
def symbolsOk (t : HTree) : Bool := t.symbols.all fun s => decide (s.toNat ≤ 256)

end HTree

/-! ### Headers as sequences of tokens (30_encoding.md R89, 42_header_codec.md R148) -/

/-- The bits of a token (30_encoding.md R89). -/
def Token.bits (t : Token) : Bits := encode t.instr

/-- How many subtrees a header still lacks after these tokens, m of them missing before: an internal token asks for one
more, a leaf token supplies one. None when a leaf is no symbol or a token comes after the last subtree. -/
def missingAfter : Nat → List Token → Option Nat
  | m, [] => some m
  | 0, _ :: _ => none
  | m + 1, .internal :: ts => missingAfter (m + 2) ts
  | m + 1, .leaf v :: ts => if v.toNat ≤ 256 then missingAfter m ts else none

/-- The tokens are the front of a tree header, a subtree of it being still to come. -/
def headerFront (ts : List Token) : Bool :=
  match missingAfter 1 ts with
  | some (_ + 1) => true
  | some 0 | none => false

/-- The literal symbol a byte is. -/
def byteSymbol (b : Byte) : Symbol := b.setWidth 9

namespace Machine

/-! ### What the tables of a state say -/

/-- A leaf entry; the fields a leaf has no use for are 0 (10_state.md R25, R29). -/
def leafNode (sym : Symbol) (weight : Word) : Node := { leaf := true, sym := sym, weight := weight, left := 0, right := 0 }

/-- An internal entry; SYM is 0 (10_state.md R25, R29). -/
def parentNode (weight : Word) (left right : NodeIx) : Node :=
  { leaf := false, sym := 0, weight := weight, left := left, right := right }

/-- The node store holds a tree at an index. -/
def State.holds (s : State) : HTree → NodeIx → Bool
  | .leaf sym, i =>
    match s.nodeAt i with
    | some d => d.leaf && decide (d.sym = sym)
    | none => false
  | .node l r, i =>
    match s.nodeAt i with
    | some d => !d.leaf && s.holds l d.left && s.holds r d.right
    | none => false

/-- The CODE entry a tree gives a symbol (41_code_table.md R130, R132, R133). -/
def codeFor (t : HTree) (i : Fin 257) : Code :=
  match t.codeList.lookup (BitVec.ofNat 9 i.val) with
  | some b => { len := BitVec.ofNat 9 b.length, bits := b }
  | none => Code.absent

/-- The bits ENCODE writes for a byte. -/
def State.codeBits (s : State) (b : Byte) : Bits := (s.codeAt (byteIndex b.toNat)).bits

/-- The code ENCODE writes at the end. -/
def State.eofBits (s : State) : Bits := (s.codeAt eofIndex).bits

/-- A byte has a code. -/
def State.hasCode (s : State) (b : Byte) : Bool := decide ((s.codeAt (byteIndex b.toNat)).len ≠ 0)

/-- The symbols with a count, ascending: the leaves of BUILD (40_count_and_build.md R113, R114). -/
def State.present (s : State) : List (Fin 257) := (List.finRange 257).filter fun i => decide (s.freqAt i ≠ 0)

/-- Whether node i is an internal node with child j. -/
def State.isParent (s : State) (i j : Nat) : Bool :=
  match s.nodes[i]? with
  | some d => !d.leaf && (decide (d.left.toNat = j) || decide (d.right.toNat = j))
  | none => false

/-- How many nodes in use have child j. -/
def State.parents (s : State) (j : Nat) : Nat := (List.range s.ncount.toNat).countP fun i => s.isParent i j

/-- Entry i of the node store in use: a leaf of some symbol, or an internal node with two different children made before
it (10_state.md R25, R26). -/
def State.nodeOk (s : State) (i : Nat) : Bool :=
  match s.nodes[i]? with
  | some d =>
    if d.leaf then decide (d.sym.toNat ≤ 256)
    else decide (d.left ≠ d.right) && decide (d.left.toNat < i) && decide (d.right.toNat < i)
  | none => false

/-- The node store invariant of 10_state.md R26. -/
abbrev State.TreeOk (s : State) : Prop :=
  s.root.toNat < s.ncount.toNat ∧ (∀ i < s.ncount.toNat, s.nodeOk i = true) ∧ s.parents s.root.toNat = 0 ∧
    ∀ j < s.ncount.toNat, j ≠ s.root.toNat → s.parents j = 1

/-- What a built tree has besides (40_count_and_build.md R114): the leaves stand for the symbols with a count, each once,
in ascending order, before every internal node. -/
abbrev State.BuiltOk (s : State) : Prop :=
  s.ncount.toNat + 1 = 2 * s.present.length ∧
    ∀ i < s.ncount.toNat, (s.nodes[i]?.map fun d => if d.leaf then some d.sym.toNat else none) =
      some (s.present[i]?.map Fin.val)

/-- Whether node j waited in PQ when node x was made: it was there already and no node before x took it as a child
(40_count_and_build.md R113). -/
def State.waited (s : State) (x j : Nat) : Bool := decide (j < x) && (List.range x).all fun i => !s.isParent i j

/-- Node x is what BUILD makes of the two nodes that leave PQ first, in the order of R115, the first of them its LEFT, and
its weight is their sum without overflow (40_count_and_build.md R112, R113, R115). -/
def State.mergedAt (s : State) (x : Nat) (d : Node) : Prop :=
  s.waited x d.left.toNat = true ∧ s.waited x d.right.toNat = true ∧ s.before d.left d.right = true ∧
    (∀ j : NodeIx, s.waited x j.toNat = true → j = d.left ∨ j = d.right ∨ s.before d.right j = true) ∧
    d.weight.toNat = (s.weightAt d.left).toNat + (s.weightAt d.right).toNat

/-- What BUILD leaves of the weights: a leaf has its symbol's count, an internal node is the merge R113 makes. -/
def State.WeightsOk (s : State) : Prop :=
  ∀ x d, x < s.ncount.toNat → s.nodes[x]? = some d →
    (d.leaf = true → ∀ i, symbolIndex d.sym = some i → d.weight = s.freqAt i) ∧ (d.leaf = false → s.mergedAt x d)

/-- What a completed COUNT leaves (10_state.md R23, R24, 40_count_and_build.md R112). -/
abbrev State.FreqOk (s : State) : Prop :=
  s.freqAt eofIndex = 1 ∧ ((List.finRange 257).map fun i => (s.freqAt i).toNat).sum = s.total.toNat + 1 ∧
    s.total.toNat + 2 ≤ 2 ^ s.wCnt

/-- CODE holds the table GENCODES derives from the tree in the store (10_state.md R35). -/
def State.CodesOk (s : State) : Prop := ∃ t : HTree, s.holds t s.root = true ∧ ∀ i : Fin 257, s.codeAt i = codeFor t i

/-! ### Errors -/

/-- What raise E(sub, data) leaves, and nothing else (60_exceptions.md R206): the error fields, every validity flag clear,
PQ empty, the command over. CUR, MARKS and CSTEP, and with them the count of free values drawn, are discarded: any value
(log 10). -/
def ErrorEntry (code : BitVec 4) (sub failOp : BitVec 8) (data : Word) (s t : State) : Prop :=
  t = { s with
    err := true
    errCode := code
    subcause := sub
    failOp := failOp
    errData := data
    freqValid := false
    treeValid := false
    treeSrc := false
    codesValid := false
    pq := []
    rdStack := []
    busy := false
    cur := t.cur
    marks := t.marks
    cstep := t.cstep
    draws := t.draws }

/-! ### The calls of rd() a finished subtree ends (42_header_codec.md R148) -/

/-- The left subtrees of the innermost calls that wait for their right one. -/
def closing : List RdFrame → List NodeIx
  | .waitRight l :: up => l :: closing up
  | .waitLeft :: _ => []
  | [] => []

/-- The calls that are left when those have ended. -/
def afterClosing : List RdFrame → List RdFrame
  | .waitRight _ :: up => afterClosing up
  | .waitLeft :: up => .waitLeft :: up
  | [] => []

/-! ### Safe states -/

/-- The host may write a command and it will be acted on (30_encoding.md R82). -/
abbrev State.Ready (s : State) : Prop := s.busy = false ∧ s.err = false

/-- W_CNT is a width the model has counters for (00_scope.md R12; log 6). -/
abbrev State.WidthOk (s : State) : Prop := 2 ≤ s.wCnt ∧ s.wCnt ≤ 32

/-- What the flags and error fields say of each other (10_state.md R34 to R38, 60_exceptions.md R200, R206). -/
structure State.FlagsOk (s : State) : Prop where
  /-- Between steps no command runs (70_reset_and_hazards.md R246). -/
  idle : s.busy = false
  /-- TREE_SRC = 1 implies TREE_VALID = 1 (10_state.md R34). -/
  srcValid : s.treeSrc = true → s.treeValid = true
  /-- A built tree needs a count, and a new count discards it (10_state.md R33, R34). -/
  builtCounted : s.treeValid = true → s.treeSrc = false → s.freqValid = true
  /-- A code table is that of a built tree (10_state.md R35, 41_code_table.md R130). -/
  codesBuilt : s.codesValid = true → s.treeValid = true ∧ s.treeSrc = false
  /-- The error fields are 0 while ERR = 0 (10_state.md R36 to R38). -/
  noError : s.err = false → s.errCode = 0 ∧ s.subcause = 0 ∧ s.failOp = 0 ∧ s.errData = 0
  /-- An error has a kind of 60_exceptions.md R200 and leaves no table valid (R206). -/
  error : s.err = true → (1 ≤ s.errCode.toNat ∧ s.errCode.toNat ≤ 7) ∧ s.freqValid = false ∧ s.treeValid = false ∧
    s.treeSrc = false ∧ s.codesValid = false

/-- The invariant of a run: flags, ports, and what each valid table says. -/
structure State.Inv (s : State) : Prop where
  flags : s.FlagsOk
  width : s.WidthOk
  /-- 0 ≤ INPOS ≤ |INBITS| (20_memory.md R61). -/
  inPos : s.inPos ≤ s.inBits.length
  /-- PQ is empty outside BUILD (10_state.md R31) and no rd() is unfinished outside RDTREE. -/
  hidden : s.pq = [] ∧ s.rdStack = []
  freq : s.freqValid = true → s.FreqOk
  tree : s.treeValid = true → s.TreeOk
  built : s.treeValid = true → s.treeSrc = false → s.BuiltOk
  codes : s.codesValid = true → s.CodesOk

end Machine

end Sys2Proof
end

