-- ==== Sys2Proof/Certificates/Slice0/Obligations.lean ====
section
/-! DEFINITION. The statements about HUFF-CORE that are to be proved. A command's own statement gives its whole next state
by an equation: every field the equation does not name is unchanged. The field portTrace is the model's own (log 13). -/

section

open Sys2Proof Sys2Proof.Machine

/-! ### The stream ports (20_memory.md) -/

/-- R63: a write appends the n low-order bits, most significant first, never fails, and touches nothing else; taking the
output empties it. -/
def Obligations.WriteBitsAppendsLowBitsHighestFirst : Prop :=
  ∀ (n v : Nat) (b : Bits) (s : State), 1 ≤ n → n ≤ 256 →
    writeBits n v s = { s with
      outBits := s.outBits ++ bin n (v % 2 ^ n), portTrace := (writeBits n v s).portTrace } ∧
    (bin n (v % 2 ^ n)).length = n ∧ (∀ i < n, (bin n (v % 2 ^ n))[i]? = some (v.testBit (n - 1 - i))) ∧
    writeStr b s = { s with outBits := s.outBits ++ b, portTrace := (writeStr b s).portTrace } ∧
    (takeOut s).outBits = []

/-- R62: a read gives the next n bits as a number, most significant first, or EOS when fewer are left, and then what was
left is lost. -/
def Obligations.ReadBitsGivesNextBitsOrEndOfStream : Prop :=
  ∀ (n : Nat) (s : State), n ∈ [1, 8, 9, 32] →
    (s.inBits.length < s.inPos + n →
      readBits n s = (none, { s with inPos := s.inBits.length, portTrace := (readBits n s).2.portTrace })) ∧
    (s.inPos + n ≤ s.inBits.length → ∃ v < 2 ^ n, bin n v = (s.inBits.drop s.inPos).take n ∧
      readBits n s = (some v, { s with inPos := s.inPos + n, portTrace := (readBits n s).2.portTrace }))

/-- R66: bit 8k + j of a stream is bit 7 - j of byte k, on both ports. -/
def Obligations.BytesPackHighestBitFirstOnBothPorts : Prop :=
  (∀ (bs : List Byte) (k j : Nat), j < 8 →
    (bitsOf bs)[8 * k + j]? = (bs[k]?).map fun b => b.getLsbD (7 - j)) ∧
  (∀ (b : Bits) (k j : Nat), k < b.length / 8 → j < 8 →
    ((wholeBytes b)[k]?).map (fun x => x.getLsbD (7 - j)) = b[8 * k + j]?) ∧
  (∀ (bs : List Byte) (rest : Bits) (k : Nat) (b : Byte) (s : State), s.inBits = bitsOf bs ++ rest → s.inPos = 8 * k →
    bs[k]? = some b → (readBits 8 s).1 = some b.toNat) ∧
  (∀ (b : Byte) (s : State), s.outBits.length % 8 = 0 →
    wholeBytes (writeBits 8 b.toNat s).outBits = wholeBytes s.outBits ++ [b])

/-- R67: the host takes floor(|OUTBITS| / 8) whole bytes, and after CLOSE that is every bit. -/
def Obligations.HostSeesWholeBytesAndAllAfterClose : Prop :=
  ∀ s : State,
    (wholeBytes s.outBits).length = s.outBits.length / 8 ∧
    (∃ tail : Bits, tail.length < 8 ∧ s.outBits = bitsOf (wholeBytes s.outBits) ++ tail) ∧
    (∀ rest, s.busy = false → step { s with script := .takeOut :: rest } = .next { s with
      script := rest, outBits := [], hostLog := s.hostLog ++ [.tookOut (wholeBytes s.outBits)] }) ∧
    (s.Ready → ∃ t, exec .close s = .next t ∧ s.outBits <+: t.outBits ∧ bitsOf (wholeBytes t.outBits) = t.outBits)

/-! ### Encoding (30_encoding.md) -/

/-- Each of the fifteen words of R81 decodes to its command, and two reserved words to none of them. -/
def Obligations.OpcodeMapReadsTheFifteenWords : Prop :=
  decodeCommand 0x00000000 = .nop ∧ decodeCommand 0x00000001 = .count ∧ decodeCommand 0x00000002 = .rewind ∧
  decodeCommand 0x00000003 = .build ∧ decodeCommand 0x00000004 = .gencodes ∧ decodeCommand 0x00000005 = .wrmagic ∧
  decodeCommand 0x00000006 = .wrtree ∧ decodeCommand 0x00000007 = .encode ∧ decodeCommand 0x00000008 = .close ∧
  decodeCommand 0x00000009 = .rdmagic ∧ decodeCommand 0x0000000A = .rdtree ∧ decodeCommand 0x0000000B = .decode ∧
  decodeCommand 0x0000000C = .compress ∧ decodeCommand 0x0000000D = .decompress ∧ decodeCommand 0x0000000F = .clear ∧
  decodeCommand 0x0000000E = .reserved 0x0000000E ∧ decodeCommand 0x00000100 = .reserved 0x00000100

/-- Decoding what was encoded gives the instruction back, with every operand, whatever follows in the stream. -/
def Obligations.DecodingAnEncodedInstructionGivesItBack : Prop :=
  ∀ (i : Instr) (rest : Bits), WellFormed i = true → decode i.source (encode i ++ rest) = .ok (i, rest)

/-- Whatever the decoder reads is exactly the bits it consumed, and a command it reads is well-formed. -/
def Obligations.EncodingADecodedInstructionGivesTheBitsBack : Prop :=
  ∀ (src : Source) (b rest : Bits) (i : Instr), decode src b = .ok (i, rest) →
    i.source = src ∧ encode i ++ rest = b ∧ (src = .cmd → WellFormed i = true)

/-- R83: the reserved words raise IllegalCommand, by subcause 2 when bits 31:8 are not 0 and else by subcause 1, and are
ignored while ERR = 1. -/
def Obligations.ReservedWordsRaiseIllegalCommand : Prop :=
  ∀ (w : Word) (s : State), s.busy = false →
    (w.toNat = 14 ∨ (16 ≤ w.toNat ∧ w.toNat < 256) → decodeCommand w = .reserved w ∧ (s.err = false →
      ∃ t, exec (.reserved w) s = .next t ∧ ErrorEntry 6 1 (w.setWidth 8) w s t)) ∧
    (256 ≤ w.toNat → decodeCommand w = .reserved w ∧ (s.err = false →
      ∃ t, exec (.reserved w) s = .next t ∧ ErrorEntry 6 2 (w.setWidth 8) w s t)) ∧
    (s.err = true → w ≠ 0x0000000F → exec (decodeCommand w) s = .next s)

/-! ### Steps and host moves -/

/-- A host write to CMD runs the instruction the word decodes to (R39, R82), with the model's trace begun anew. -/
def Obligations.StepRunsTheCommandWrittenToCmd : Prop :=
  ∀ (s : State) (w : Word) (i : Instr) (rest : List HostMove), s.busy = false →
    decode .cmd (bin 32 w.toNat) = .ok (i, []) →
    step { s with script := .write 0 w :: rest } = exec i { s with script := rest, portTrace := [] }

/-- Inside RDTREE a step reads the token at the front of IN and runs it, and inside RDMAGIC the magic field; where the
bits are no token the error of R202 or R201 is raised (logs 3, 4). -/
def Obligations.StepRunsTheTokenAtTheFrontOfIn : Prop :=
  ∀ s : State, s.busy = true → s.script = [] →
    (s.curOp = 0x0A → s.marks.toNat < 513 → ∀ i rest, decode .header s.unread = .ok (i, rest) → ∃ tr,
      step s = exec i { s with
        inPos := s.inPos + (encode i).length, marks := s.marks + 1, portTrace := tr }) ∧
    (s.curOp = 0x0A → decode .header s.unread = .error .noMarker → ∃ t tr, step s = .next t ∧
      ErrorEntry 2 1 0x0A 0 { s with inPos := s.inBits.length, portTrace := tr } t) ∧
    (s.curOp = 0x0A → s.marks.toNat < 513 → decode .header s.unread = .error .shortLeaf → ∃ t tr, step s = .next t ∧
      ErrorEntry 2 2 0x0A 0 { s with inPos := s.inBits.length, portTrace := tr } t) ∧
    (s.curOp = 0x0A → s.marks.toNat = 513 → s.unread ≠ [] → ∃ t tr, step s = .next t ∧
      ErrorEntry 2 4 0x0A 514 { s with inPos := s.inPos + 1, portTrace := tr } t) ∧
    (s.curOp = 0x09 → ∀ i rest, decode .magic s.unread = .ok (i, rest) → ∃ tr,
      step s = exec i { s with inPos := s.inPos + 32, portTrace := tr }) ∧
    (s.curOp = 0x09 → decode .magic s.unread = .error .shortMagic → ∃ t tr, step s = .next t ∧
      ErrorEntry 1 1 0x09 0 { s with inPos := s.inBits.length, portTrace := tr } t)

/-- The host's other moves while BUSY = 0 (R43, R44, R61, R72): attaching and taking; a write elsewhere does nothing; a
read changes nothing but what the host has seen, the register's value or, where that is unspecified, a free value
(log 12); and with no move to come nothing happens. -/
def Obligations.HostMovesDoWhatTheyAreListedToDo : Prop :=
  ∀ (s : State) (rest : List HostMove), s.busy = false →
    (s.script = [] → step s = .next s) ∧
    (∀ b, step { s with script := .attachIn b :: rest } = .next { s with script := rest, inBits := b, inPos := 0 }) ∧
    (step { s with script := .takeOut :: rest } = .next { s with
      script := rest, outBits := [], hostLog := s.hostLog ++ [.tookOut (wholeBytes s.outBits)] }) ∧
    (∀ offset w, offset ≠ 0 → offset.toNat % 4 = 0 →
      step { s with script := .write offset w :: rest } = .next { s with script := rest }) ∧
    (∀ offset v, offset.toNat % 4 = 0 → s.register offset.toNat = some v →
      step { s with script := .read offset :: rest } = .next { s with
        script := rest, hostLog := s.hostLog ++ [.readValue offset v] }) ∧
    (∀ offset, offset.toNat % 4 = 0 → s.register offset.toNat = none →
      step { s with script := .read offset :: rest } = .next { s with
        script := rest, hostLog := s.hostLog ++ [.readValue offset (Config.freeWord s.draws)], draws := s.draws + 1 })

/-- While BUSY = 1 the host has no command, attach or take: a command meant for CMD is refused, a host's move waits for
the engine, and only STATUS reads and reset come first (R241; logs 3, 16). -/
def Obligations.OnlyStatusReadsAndResetComeWhileBusy : Prop :=
  ∀ (s : State) (rest : List HostMove), s.busy = true →
    (∀ i : Instr, i.source = .cmd → exec i s = .refused .hostBusy) ∧
    (∀ m, allowedWhileBusy m = false → step { s with script := m :: rest } = engineStep { s with script := m :: rest }) ∧
    step { s with script := .read 4 :: rest } = .next { s with
      script := rest, hostLog := s.hostLog ++ [.readValue 4 s.status] } ∧
    step { s with script := .reset :: rest } = .next (resetBlock { s with script := rest })

/-! ### Registers and windows (10_state.md) -/

/-- The layout of STATUS (R36), its value after reset, and ERRCODE while ERR = 0. -/
def Obligations.StatusHoldsTheFlagsAndTheErrorCode : Prop :=
  (∀ s : State, s.register 0x004 = some s.status ∧
    s.status.getLsbD 0 = s.busy ∧ s.status.getLsbD 1 = s.err ∧ s.status.getLsbD 2 = s.freqValid ∧
    s.status.getLsbD 3 = s.treeValid ∧ s.status.getLsbD 4 = s.treeSrc ∧ s.status.getLsbD 5 = s.codesValid ∧
    s.status.extractLsb' 6 2 = 0 ∧ s.status.extractLsb' 8 4 = s.errCode ∧ s.status.extractLsb' 12 20 = 0 ∧
    (s.FlagsOk → s.err = false → s.status.extractLsb' 8 4 = 0) ∧
    (∀ w rest, s.busy = false → step { s with script := .write 4 w :: rest } = .next { s with script := rest })) ∧
  State.reset.status = 0

/-- R41: the control registers and their reset values, with the fields of ERRINFO and the error registers while
ERR = 0. -/
def Obligations.ControlRegistersAreMappedAsListed : Prop :=
  (∀ s : State, s.register 0x000 = some 0 ∧ s.register 0x004 = some s.status ∧
    (∃ v : Word, s.register 0x008 = some v ∧ v.extractLsb' 0 8 = s.subcause ∧ v.extractLsb' 8 8 = s.failOp ∧
      v.extractLsb' 16 16 = 0 ∧ (s.FlagsOk → s.err = false → v = 0)) ∧
    s.register 0x00C = some s.errData ∧ (s.FlagsOk → s.err = false → s.errData = 0) ∧
    s.register 0x010 = some s.magic ∧
    s.register 0x014 = (if s.treeValid then some (s.root.setWidth 32) else none) ∧
    s.register 0x018 = (if s.treeValid then some (s.ncount.setWidth 32) else none) ∧
    s.register 0x01C = (if s.freqValid then some s.total else none) ∧
    ∀ k, 0x020 ≤ k → k < 0x400 → s.register k = none) ∧
  State.reset.register 0x004 = some 0 ∧ State.reset.register 0x008 = some 0 ∧ State.reset.register 0x00C = some 0

/-- R42: the readout windows, entry by entry and bit by bit. -/
def Obligations.ReadoutWindowsShowTheTables : Prop :=
  ∀ s : State,
    (∀ i : Fin 257, s.register (0x0400 + 4 * i.val) = (if s.freqValid then some (s.freqAt i) else none)) ∧
    (∀ i : Fin 257, s.register (0x1000 + 4 * i.val) =
      (if s.codesValid then some ((s.codeAt i).len.setWidth 32) else none)) ∧
    (∀ (i : Fin 257) (k : Nat), k < 8 → (s.codesValid = false → s.register (0x2000 + 32 * i.val + 4 * k) = none) ∧
      (s.codesValid = true → ∃ v : Word, s.register (0x2000 + 32 * i.val + 4 * k) = some v ∧
        ∀ j < 32, v.getLsbD (31 - j) =
          (decide (32 * k + j < (s.codeAt i).len.toNat) && (s.codeAt i).bits.getD (32 * k + j) false))) ∧
    (∀ n < 513, (s.treeValid = true ∧ n < s.ncount.toNat → ∃ d v, s.nodes[n]? = some d ∧
        s.register (0x8000 + 8 * n) = some v ∧ s.register (0x8004 + 8 * n) = some d.weight ∧
        (d.leaf = true → v.getLsbD 31 = true ∧ v.extractLsb' 9 22 = 0 ∧ v.extractLsb' 0 9 = d.sym) ∧
        (d.leaf = false → v.extractLsb' 0 10 = d.left ∧ v.extractLsb' 10 6 = 0 ∧ v.extractLsb' 16 10 = d.right ∧
          v.extractLsb' 26 6 = 0)) ∧
      (¬ (s.treeValid = true ∧ n < s.ncount.toNat) →
        s.register (0x8000 + 8 * n) = none ∧ s.register (0x8004 + 8 * n) = none))

/-- R47: no step and no instruction changes MAGIC, and offset 0x010 reads as it. -/
def Obligations.MagicIsAConstantOfTheImplementation : Prop :=
  (∀ s t : State, step s = .next t → t.magic = s.magic ∧ t.register 0x010 = some s.magic) ∧
  (∀ (i : Instr) (s t : State), exec i s = .next t → t.magic = s.magic)

/-! ### Reset (10_state.md R46, 70_reset_and_hazards.md) -/

/-- R230: what reset leaves, whether a command runs or not. An unwritten table is one no register shows. -/
def Obligations.ResetClearsTheBlockAndKeepsThePorts : Prop :=
  ∀ (s : State) (rest : List HostMove), ∃ t, step { s with script := .reset :: rest } = .next t ∧
    t.status = 0 ∧ t.errInfo = 0 ∧ t.errData = 0 ∧ t.pq = [] ∧ t.rdStack = [] ∧
    (∀ k, 0x014 ≤ k → t.register k = none) ∧ t.magic = s.magic ∧ t.wCnt = s.wCnt ∧
    t.inBits = s.inBits ∧ t.inPos = s.inPos ∧ t.outBits = s.outBits ∧ t.script = rest ∧ t.hostLog = s.hostLog

/-- R231: reset during a command leaves the block reset and the ports as they stood at some point of the command between
two of its stream operations, from before the first to after the last; which one is a free choice (log 13). -/
def Obligations.ResetDuringACommandStopsBetweenStreamOperations : Prop :=
  ∀ (s : State) (rest : List HostMove) (w : Word) (t : State), s.busy = false → s.inPos ≤ s.inBits.length →
    exec (decodeCommand w) { s with script := rest, portTrace := [] } = .next t →
    ∃ m ∈ s.portMark :: t.portTrace, ∃ d,
      step { s with script := .writeThenReset w :: rest } = .next (resetBlock { t with
        inPos := m.inPos, outBits := t.outBits.take m.outLen, draws := d }) ∧
      m.inPos ≤ t.inBits.length ∧ s.outBits.length ≤ m.outLen ∧ m.outLen ≤ t.outBits.length

/-! ### Errors (60_exceptions.md) -/

/-- R206: what an error inside a command, and an illegal command word, does, and that it does nothing else; the code of
each kind of error. -/
def Obligations.RaiseDoesExactlyTheErrorEntry : Prop :=
  ∀ (e : ErrorKind) (sub : BitVec 8) (data : Word) (s : State),
    ErrorEntry e.code sub s.curOp data s (raise e sub data s) ∧
    (∀ w : Word, ∃ sub', ErrorEntry 6 sub' (w.setWidth 8) w s (illegalWord w s)) ∧
    e.code = (match e with
      | .badMagicNumber => 1 | .malformedHeader => 2 | .truncatedPayload => 3 | .missingCode => 4
      | .capacityExceeded => 5 | .illegalCommand => 6 | .sequenceError => 7)

/-- R209: while ERR = 1 every command but CLEAR changes nothing, and CLEAR runs. -/
def Obligations.OnlyClearActsWhileErr : Prop :=
  ∀ (i : Instr) (s : State), i.source = .cmd → s.busy = false → s.err = true →
    (i ≠ .clear → exec i s = .next s) ∧
    (i = .clear → exec i s = .next { s with
      err := false, errCode := 0, subcause := 0, failOp := 0, errData := 0
      freqValid := false, treeValid := false, treeSrc := false, codesValid := false })

/-- The preconditions of R81 and the SequenceErrors of R205, in the order of R82. -/
def Obligations.UnmetPreconditionsRaiseSequenceError : Prop :=
  ∀ s : State, s.Ready →
    (s.freqValid = false → ∃ t, exec .build s = .next t ∧ ErrorEntry 7 1 0x03 0x03 { s with curOp := 0x03 } t) ∧
    (s.treeValid = false → ∃ t, exec .gencodes s = .next t ∧ ErrorEntry 7 2 0x04 0x04 { s with curOp := 0x04 } t) ∧
    (s.treeValid = true → s.treeSrc = true →
      ∃ t, exec .gencodes s = .next t ∧ ErrorEntry 7 3 0x04 0x04 { s with curOp := 0x04 } t) ∧
    (s.treeValid = false → ∃ t, exec .wrtree s = .next t ∧ ErrorEntry 7 2 0x06 0x06 { s with curOp := 0x06 } t) ∧
    (s.codesValid = false → ∃ t, exec .encode s = .next t ∧ ErrorEntry 7 4 0x07 0x07 { s with curOp := 0x07 } t) ∧
    (s.treeValid = false → ∃ t, exec .decode s = .next t ∧ ErrorEntry 7 2 0x0B 0x0B { s with curOp := 0x0B } t)

/-- R200 to R205: which instruction can raise which error, with which subcause, datum and FAILOP; no other error exists,
and the codes 8 to 15 are never reported. -/
def Obligations.EveryErrorIsOneOfTheTables : Prop :=
  ∀ (i : Instr) (s t : State), s.err = false → exec i s = .next t → t.err = true →
    (t.errCode = 1 ∧ t.failOp = 0x09 ∧ (i = .rdmagic ∨ i = .decompress ∨ ∃ v, i = .magicField v) ∧
      ((t.subcause = 1 ∧ t.errData = 0) ∨ (t.subcause = 2 ∧ t.errData ≠ s.magic))) ∨
    (t.errCode = 2 ∧ t.failOp = 0x0A ∧ (i = .rdtree ∨ i = .decompress ∨ ∃ v, i = .hdrLeaf v) ∧
      ((t.subcause = 1 ∧ t.errData = 0) ∨ (t.subcause = 2 ∧ t.errData = 0) ∨
        (t.subcause = 3 ∧ 257 ≤ t.errData.toNat ∧ t.errData.toNat ≤ 511) ∨ (t.subcause = 4 ∧ t.errData = 514))) ∨
    (t.errCode = 3 ∧ t.failOp = 0x0B ∧ (i = .decode ∨ i = .decompress) ∧ t.subcause = 1 ∧ t.errData = 0) ∨
    (t.errCode = 4 ∧ t.failOp = 0x07 ∧ (i = .encode ∨ i = .compress) ∧ t.subcause = 1 ∧ t.errData.toNat ≤ 256) ∨
    (t.errCode = 5 ∧ t.failOp = 0x01 ∧ (i = .count ∨ i = .compress) ∧ t.subcause = 1 ∧ t.errData = 0) ∨
    (t.errCode = 6 ∧ i = .reserved t.errData ∧ t.failOp = t.errData.setWidth 8 ∧
      ((t.subcause = 2 ∧ 256 ≤ t.errData.toNat) ∨ (t.subcause = 1 ∧ t.errData.toNat < 256))) ∨
    (t.errCode = 7 ∧ t.errData = t.failOp.setWidth 32 ∧
      ((i = .build ∧ t.failOp = 0x03 ∧ t.subcause = 1) ∨
        (i = .gencodes ∧ t.failOp = 0x04 ∧ (t.subcause = 2 ∨ t.subcause = 3)) ∨
        (i = .wrtree ∧ t.failOp = 0x06 ∧ t.subcause = 2) ∨ (i = .encode ∧ t.failOp = 0x07 ∧ t.subcause = 4) ∨
        (i = .decode ∧ t.failOp = 0x0B ∧ t.subcause = 2)))

/-! ### The plain commands -/

/-- R180: NOP leaves everything but the hidden CUROP. -/
def Obligations.NopDoesNothing : Prop :=
  decodeCommand 0x00000000 = .nop ∧
  (∀ s : State, s.Ready → exec .nop s = .next { s with curOp := 0x00 }) ∧
  (∀ s : State, s.busy = false → s.err = true → exec .nop s = .next s) ∧
  decodeCommand 0x00000100 = .reserved 0x00000100

/-- R181: CLEAR, the only word acted on while ERR = 1, clears the error fields and the validity flags, with ERR = 1 or 0;
the ports and the cells of the tables stay. -/
def Obligations.ClearEndsTheErrorAndDiscardsTheFlags : Prop :=
  decodeCommand 0x0000000F = .clear ∧
  (∀ (w : Word) (s : State), s.busy = false → s.err = true → w ≠ 0x0000000F → exec (decodeCommand w) s = .next s) ∧
  ∀ s : State, s.busy = false → ∃ t, exec .clear s = .next t ∧ t.status = 0 ∧ t.errInfo = 0 ∧ t.errData = 0 ∧
    t = { s with
      err := false, errCode := 0, subcause := 0, failOp := 0, errData := 0
      freqValid := false, treeValid := false, treeSrc := false, codesValid := false
      curOp := if s.err then s.curOp else 0x0F }

/-- R64, R111: REWIND moves INPOS to 0 and changes nothing else the spec names. -/
def Obligations.RewindReturnsToTheStartOfIn : Prop :=
  decodeCommand 0x00000002 = .rewind ∧ ∀ s : State, s.Ready → exec .rewind s = .next { s with
    curOp := 0x02, inPos := 0, portTrace := { inPos := 0, outLen := s.outBits.length } :: s.portTrace }

/-- R65, R161: CLOSE pads OUT with 0 to 7 zero bits to whole bytes, and nothing when it is whole bytes already. -/
def Obligations.ClosePadsOutToWholeBytes : Prop :=
  decodeCommand 0x00000008 = .close ∧ ∀ s : State, s.Ready → ∃ t, exec .close s = .next t ∧ t.outBits.length % 8 = 0 ∧
    (8 - s.outBits.length % 8) % 8 ≤ 7 ∧ (s.outBits.length % 8 = 0 → t.outBits = s.outBits) ∧
    t = { s with
      curOp := 0x08
      outBits := s.outBits ++ List.replicate ((8 - s.outBits.length % 8) % 8) false
      portTrace := t.portTrace }

/-- R140: WRMAGIC writes the 32 bits of MAGIC. -/
def Obligations.WrmagicWritesTheMagicNumber : Prop :=
  decodeCommand 0x00000005 = .wrmagic ∧ ∀ s : State, s.Ready → exec .wrmagic s = .next { s with
    curOp := 0x05
    outBits := s.outBits ++ bin 32 s.magic.toNat
    portTrace := { inPos := s.inPos, outLen := s.outBits.length + 32 } :: s.portTrace }

/-! ### COUNT (40_count_and_build.md) -/

/-- R110: COUNT counts the whole bytes left in IN, or raises CapacityExceeded at the first byte beyond 2^W_CNT - 2. A
final partial group is consumed and not counted. -/
def Obligations.CountTalliesEveryByteOrOverflows : Prop :=
  decodeCommand 0x00000001 = .count ∧
  ∀ (s : State) (bs : List Byte) (rest : Bits), s.Ready → s.WidthOk → s.unread = bitsOf bs ++ rest → rest.length < 8 →
    (bs.length ≤ 2 ^ s.wCnt - 2 → ∃ t, exec .count s = .next t ∧
      (∀ b : Byte, (t.freqAt (byteIndex b.toNat)).toNat = bs.count b) ∧ t.freqAt eofIndex = 1 ∧
      t.total.toNat = bs.length ∧
      t = { s with
        curOp := 0x01, freq := t.freq, total := t.total, freqValid := true, treeValid := false, treeSrc := false
        codesValid := false, inPos := s.inBits.length, portTrace := t.portTrace }) ∧
    (2 ^ s.wCnt - 2 < bs.length → ∃ t, exec .count s = .next t ∧ ErrorEntry 5 1 0x01 0 { s with
        curOp := 0x01, freq := t.freq, total := t.total
        inPos := s.inPos + 8 * (2 ^ s.wCnt - 1), portTrace := t.portTrace } t)

/-! ### BUILD (40_count_and_build.md) -/

/-- R114: the leaves in symbol order, then the internal nodes; NCOUNT = 2L - 1, ROOT = 2L - 2, the invariant of R26. -/
def Obligations.BuildMakesOneLeafPerCountedSymbol : Prop :=
  ∀ s : State, s.Ready → s.Inv → s.freqValid = true → ∃ t, exec .build s = .next t ∧
    1 ≤ s.present.length ∧ s.present.length ≤ 257 ∧
    t.ncount.toNat = 2 * s.present.length - 1 ∧ t.root.toNat = 2 * s.present.length - 2 ∧
    (∀ (x : Nat) i, s.present[x]? = some i → t.nodes[x]? = some (leafNode (BitVec.ofNat 9 i.val) (s.freqAt i))) ∧
    (∀ x, s.present.length ≤ x → x < t.ncount.toNat → ∃ d, t.nodes[x]? = some d ∧ d.leaf = false ∧
      d.left.toNat < x ∧ d.right.toNat < x) ∧
    t.TreeOk ∧
    t = { s with
      curOp := 0x03, nodes := t.nodes, ncount := t.ncount, root := t.root, treeValid := true, treeSrc := false
      codesValid := false }

/-- R115: every internal node of a built tree is the merge of the two nodes that were first, of all that waited
when it was made; the first of them is LEFT, and its weight is their sum, with no overflow (R112). -/
def Obligations.BuildMergesTheTwoFirstNodesEachTime : Prop :=
  ∀ s t : State, s.Ready → s.Inv → s.freqValid = true → exec .build s = .next t →
    ∀ x d, x < t.ncount.toNat → t.nodes[x]? = some d → d.leaf = false →
      t.waited x d.left.toNat = true ∧ t.waited x d.right.toNat = true ∧ d.left ≠ d.right ∧
      (∀ j : NodeIx, t.waited x j.toNat = true → j ≠ d.left →
        (t.weightAt d.left).toNat < (t.weightAt j).toNat ∨
          ((t.weightAt d.left).toNat = (t.weightAt j).toNat ∧ d.left.toNat < j.toNat)) ∧
      (∀ j : NodeIx, t.waited x j.toNat = true → j ≠ d.left → j ≠ d.right →
        (t.weightAt d.right).toNat < (t.weightAt j).toNat ∨
          ((t.weightAt d.right).toNat = (t.weightAt j).toNat ∧ d.right.toNat < j.toNat)) ∧
      d.weight.toNat = (t.weightAt d.left).toNat + (t.weightAt d.right).toNat

/-- What R112 says of the weights, after COUNT and BUILD: the counts sum to TOTAL + 1, at most 2^W_CNT - 1; each byte's
count is at most TOTAL; the root's weight is TOTAL + 1 and no node's is more. (R112 also bounds FREQ[256] by TOTAL, which
an empty input breaks: NOTES.md.) -/
def Obligations.WeightsAreAtMostTotalPlusOne : Prop :=
  (∀ s t : State, s.Ready → s.WidthOk → exec .count s = .next t → t.err = false →
    ((List.finRange 257).map fun i => (t.freqAt i).toNat).sum = t.total.toNat + 1 ∧
    t.total.toNat + 1 ≤ 2 ^ s.wCnt - 1 ∧ ∀ i : Fin 257, i ≠ eofIndex → (t.freqAt i).toNat ≤ t.total.toNat) ∧
  (∀ s t : State, s.Ready → s.Inv → s.freqValid = true → exec .build s = .next t →
    (t.weightAt t.root).toNat = s.total.toNat + 1 ∧
    ∀ x d, x < t.ncount.toNat → t.nodes[x]? = some d → d.weight.toNat ≤ s.total.toNat + 1)

/-- R116: the tree is a single leaf, of symbol 256 at index 0, exactly when the input was empty. -/
def Obligations.SingleLeafTreeIsTheEmptyInput : Prop :=
  ∀ s t : State, s.Ready → s.Inv → s.freqValid = true → exec .build s = .next t →
    (t.ncount = 1 ↔ s.total = 0) ∧
    (s.total = 0 → t.root = 0 ∧ t.nodes[0]? = some (leafNode 256 1)) ∧
    (s.total ≠ 0 → 2 ≤ s.present.length)

/-- The determinism of R117: BUILD is a function of FREQ alone. -/
def Obligations.BuildIsAFunctionOfFreqAlone : Prop :=
  ∀ s s' t : State, s.Ready → s'.Ready → s.freqValid = true → s'.freqValid = true → s.freq = s'.freq →
    exec .build s = .next t → ∃ t', exec .build s' = .next t' ∧ t'.ncount = t.ncount ∧ t'.root = t.root ∧
      ∀ x < t.ncount.toNat, t'.nodes[x]? = t.nodes[x]?

/-! ### GENCODES (41_code_table.md) -/

/-- R130, R132, R133: the code of a symbol is the path to its leaf, "0" for a leaf that is the root, and a symbol without
a leaf has none. -/
def Obligations.GencodesRecordsThePathToEachLeaf : Prop :=
  ∀ s : State, s.Ready → s.Inv → s.treeValid = true → s.treeSrc = false →
    ∃ (t : State) (tree : HTree), exec .gencodes s = .next t ∧ s.holds tree s.root = true ∧
      (∀ i : Fin 257, ∀ p, (BitVec.ofNat 9 i.val, p) ∈ tree.codeList →
        (t.codeAt i).bits = p ∧ (t.codeAt i).len.toNat = p.length) ∧
      (∀ i : Fin 257, BitVec.ofNat 9 i.val ∉ tree.symbols → (t.codeAt i).len = 0 ∧ (t.codeAt i).bits = []) ∧
      t = { s with curOp := 0x04, codes := t.codes, codesValid := true }

/-- R131: the four properties of the codes of a built tree with at least two leaves. -/
def Obligations.CodesArePrefixFreeAndFull : Prop :=
  ∀ s t : State, s.Ready → s.Inv → s.treeValid = true → s.treeSrc = false → exec .gencodes s = .next t →
    2 ≤ s.present.length →
    (∀ i, (t.codeAt i).len ≠ 0 ↔ s.freqAt i ≠ 0) ∧
    (∃ tree : HTree, s.holds tree s.root = true ∧ ∀ i, (t.codeAt i).len ≠ 0 →
      (BitVec.ofNat 9 i.val, (t.codeAt i).bits) ∈ tree.paths ∧ (t.codeAt i).len.toNat = (t.codeAt i).bits.length ∧
      1 ≤ (t.codeAt i).len.toNat ∧ (t.codeAt i).len.toNat ≤ s.present.length - 1) ∧
    (∀ i j, (t.codeAt i).len ≠ 0 → (t.codeAt j).len ≠ 0 → (t.codeAt i).bits <+: (t.codeAt j).bits → i = j) ∧
    (((List.finRange 257).filter fun i => decide ((t.codeAt i).len ≠ 0)).map fun i =>
      2 ^ (256 - (t.codeAt i).len.toNat)).sum = 2 ^ 256

/-! ### The header codec (42_header_codec.md) -/

/-- R90: WRTREE writes the tree header, of 10 bits a leaf and 1 an internal node. -/
def Obligations.WrtreeWritesTheTreeHeader : Prop :=
  ∀ s : State, s.Ready → s.Inv → s.treeValid = true →
    ∃ (t : State) (tree : HTree), exec .wrtree s = .next t ∧ s.holds tree s.root = true ∧
      tree.header.length = tree.symbols.length * 10 + (tree.symbols.length - 1) ∧ tree.symbols.length ≤ 257 ∧
      tree.header.length ≤ 2826 ∧
      t = { s with curOp := 0x06, outBits := s.outBits ++ tree.header, portTrace := t.portTrace }

/-- R145, R201: RDMAGIC raises BadMagicNumber when fewer than 32 bits are left or the 32 bits are not MAGIC, and
completes when they are. -/
def Obligations.RdmagicChecksTheMagicNumber : Prop :=
  decodeCommand 0x00000009 = .rdmagic ∧
  ∀ s : State, s.Ready →
    (s.unread.length < 32 → ∃ t, exec .rdmagic s = .next t ∧ ErrorEntry 1 1 0x09 0 { s with
      curOp := 0x09, inPos := s.inBits.length, portTrace := t.portTrace } t) ∧
    (∀ (v : Word) (rest : Bits), s.unread = bin 32 v.toNat ++ rest → v ≠ s.magic →
      ∃ t, exec .rdmagic s = .next t ∧ ErrorEntry 1 2 0x09 v { s with
        curOp := 0x09, inPos := s.inPos + 32, portTrace := t.portTrace } t) ∧
    (∀ rest : Bits, s.unread = bin 32 s.magic.toNat ++ rest → ∃ t, exec .rdmagic s = .next t ∧
      t = { s with curOp := 0x09, inPos := s.inPos + 32, portTrace := t.portTrace })

/-- R148: RDTREE rebuilds the tree whose header stands in IN, reads exactly its bits, and leaves R26's invariant. -/
def Obligations.RdtreeRebuildsTheTreeOfAHeader : Prop :=
  ∀ (s : State) (tree : HTree) (rest : Bits), s.Ready → s.unread = tree.header ++ rest → tree.symbolsOk = true →
    tree.size ≤ 513 → ∃ t, exec .rdtree s = .next t ∧ t.holds tree t.root = true ∧ t.TreeOk ∧
      t.ncount.toNat = tree.size ∧ t.marks = t.ncount ∧
      (∀ x d, x < t.ncount.toNat → t.nodes[x]? = some d → d.weight = 0) ∧
      t = { s with
        curOp := 0x0A, nodes := t.nodes, ncount := t.ncount, root := t.root, treeValid := true, treeSrc := true
        codesValid := false, marks := t.marks, rdStack := [], inPos := s.inPos + tree.header.length
        portTrace := t.portTrace }

/-- R202: the four ways a header can be malformed, after the tokens at its front. -/
def Obligations.RdtreeRaisesMalformedHeader : Prop :=
  ∀ (s : State) (ts : List Token) (rest : Bits), s.Ready → headerFront ts = true → ts.length ≤ 513 →
    (s.unread = ts.flatMap Token.bits → ∃ t, exec .rdtree s = .next t ∧ ErrorEntry 2 1 0x0A 0 { s with
      curOp := 0x0A, nodes := t.nodes, ncount := t.ncount, inPos := s.inBits.length, portTrace := t.portTrace } t) ∧
    (s.unread = ts.flatMap Token.bits ++ true :: rest → ts.length < 513 → rest.length < 9 →
      ∃ t, exec .rdtree s = .next t ∧ ErrorEntry 2 2 0x0A 0 { s with
        curOp := 0x0A, nodes := t.nodes, ncount := t.ncount, inPos := s.inBits.length, portTrace := t.portTrace } t) ∧
    (∀ v : Symbol, 256 < v.toNat → s.unread = ts.flatMap Token.bits ++ (true :: bin 9 v.toNat) ++ rest →
      ts.length < 513 → ∃ t, exec .rdtree s = .next t ∧ ErrorEntry 2 3 0x0A (v.setWidth 32) { s with
        curOp := 0x0A, nodes := t.nodes, ncount := t.ncount
        inPos := s.inPos + (ts.flatMap Token.bits).length + 10, portTrace := t.portTrace } t) ∧
    (∀ x : Bool, s.unread = ts.flatMap Token.bits ++ x :: rest → ts.length = 513 →
      ∃ t, exec .rdtree s = .next t ∧ ErrorEntry 2 4 0x0A 514 { s with
        curOp := 0x0A, nodes := t.nodes, ncount := t.ncount
        inPos := s.inPos + (ts.flatMap Token.bits).length + 1, portTrace := t.portTrace } t)

/-- RDTREE always ends: it completes exactly when IN begins with the header of a tree of at most 513 nodes whose leaves
are symbols, and else raises MalformedHeader. -/
def Obligations.RdtreeCompletesExactlyOnHeaders : Prop :=
  ∀ s : State, s.Ready → ∃ t, exec .rdtree s = .next t ∧ (t.err = true → t.errCode = 2) ∧
    (t.err = false ↔ ∃ (tree : HTree) (rest : Bits),
      s.unread = tree.header ++ rest ∧ tree.symbolsOk = true ∧ tree.size ≤ 513)

/-- R149: what WRTREE wrote, RDTREE reads back as the same tree, consuming exactly those bits. -/
def Obligations.HeaderRoundTripKeepsTheTree : Prop :=
  ∀ (s u : State) (rest : Bits), s.Ready → s.Inv → s.treeValid = true → u.Ready →
    ∃ t written, exec .wrtree s = .next t ∧ t.outBits = s.outBits ++ written ∧
      (u.unread = written ++ rest → ∃ v tree, exec .rdtree u = .next v ∧ v.err = false ∧ v.treeValid = true ∧
        v.inPos = u.inPos + written.length ∧ s.holds tree s.root = true ∧ v.holds tree v.root = true ∧
        v.ncount = s.ncount)

/-! ### The stream rows -/

/-- HDR_INTERNAL inside RDTREE opens a call of rd() that waits for its left subtree, and does nothing else (R89, R148;
log 4). -/
def Obligations.InternalTokenAsksForTwoSubtrees : Prop :=
  ∀ s : State, s.busy = true → s.curOp = 0x0A →
    exec .hdrInternal s = .next { s with rdStack := .waitLeft :: s.rdStack }

/-- HDR_LEAF inside RDTREE (R89, R148; log 4): a field above 256 is an error; else the leaf is made, then the parents
whose right subtree it ends, each over the node before it, and either a right subtree is next or the tree is complete. -/
def Obligations.LeafTokenMakesTheLeafAndEndsItsParents : Prop :=
  ∀ (sym : Symbol) (s : State), s.busy = true → s.curOp = 0x0A →
    (256 < sym.toNat → ∃ t, exec (.hdrLeaf sym) s = .next t ∧ ErrorEntry 2 3 0x0A (sym.setWidth 32) s t) ∧
    (sym.toNat ≤ 256 → s.ncount.toNat + (closing s.rdStack).length < 513 → ∃ t, exec (.hdrLeaf sym) s = .next t ∧
      t.ncount.toNat = s.ncount.toNat + 1 + (closing s.rdStack).length ∧
      t.nodes[s.ncount.toNat]? = some (leafNode sym 0) ∧
      (∀ (j : Nat) l, (closing s.rdStack)[j]? = some l → t.nodes[s.ncount.toNat + 1 + j]? = 
        some (parentNode 0 l (BitVec.ofNat 10 (s.ncount.toNat + j)))) ∧
      (∀ x : Nat, x < s.ncount.toNat ∨ t.ncount.toNat ≤ x → t.nodes[x]? = s.nodes[x]?) ∧
      (∀ up, afterClosing s.rdStack = .waitLeft :: up → t = { s with
        nodes := t.nodes, ncount := t.ncount
        rdStack := .waitRight (BitVec.ofNat 10 (s.ncount.toNat + (closing s.rdStack).length)) :: up }) ∧
      (afterClosing s.rdStack = [] → t = { s with
        nodes := t.nodes, ncount := t.ncount
        root := BitVec.ofNat 10 (s.ncount.toNat + (closing s.rdStack).length)
        treeValid := true, treeSrc := true, rdStack := [], busy := false }))

/-- MAGIC_FIELD inside RDMAGIC completes the command when it is MAGIC, and else raises BadMagicNumber with the field as
its datum (R87, R145; log 4). -/
def Obligations.MagicFieldIsComparedWithMagic : Prop :=
  ∀ (v : Word) (s : State), s.busy = true → s.curOp = 0x09 →
    (v = s.magic → exec (.magicField v) s = .next { s with busy := false }) ∧
    (v ≠ s.magic → s.err = false → ∃ t, exec (.magicField v) s = .next t ∧ ErrorEntry 1 2 0x09 v s t)

/-! ### ENCODE and DECODE (43_encoder.md, 44_decoder.md) -/

/-- R160, R91: ENCODE writes the code of each byte and then the end-of-stream code. -/
def Obligations.EncodeWritesEachCodeThenTheEndCode : Prop :=
  ∀ (s : State) (bs : List Byte) (rest : Bits), s.Ready → s.codesValid = true → s.unread = bitsOf bs ++ rest →
    rest.length < 8 → (∀ b ∈ bs, s.hasCode b = true) → (s.codeAt eofIndex).len ≠ 0 →
    ∃ t, exec .encode s = .next t ∧ t = { s with
      curOp := 0x07, outBits := s.outBits ++ bs.flatMap s.codeBits ++ s.eofBits, inPos := s.inBits.length
      portTrace := t.portTrace }

/-- R204: ENCODE raises MissingCode at the first symbol without a code, before any bit of it. -/
def Obligations.EncodeRaisesMissingCodeBeforeTheSymbol : Prop :=
  ∀ (s : State) (pre post : List Byte) (b : Byte) (rest : Bits), s.Ready → s.codesValid = true → rest.length < 8 →
    (∀ x ∈ pre, s.hasCode x = true) →
    (s.unread = bitsOf (pre ++ b :: post) ++ rest → s.hasCode b = false →
      ∃ t, exec .encode s = .next t ∧ ErrorEntry 4 1 0x07 (b.setWidth 32) { s with
        curOp := 0x07, outBits := s.outBits ++ pre.flatMap s.codeBits
        inPos := s.inPos + 8 * (pre.length + 1), portTrace := t.portTrace } t) ∧
    (s.unread = bitsOf pre ++ rest → (s.codeAt eofIndex).len = 0 →
      ∃ t, exec .encode s = .next t ∧ ErrorEntry 4 1 0x07 256 { s with
        curOp := 0x07, outBits := s.outBits ++ pre.flatMap s.codeBits, inPos := s.inBits.length
        portTrace := t.portTrace } t)

/-- R162: after COUNT, REWIND, BUILD and GENCODES over the same IN, ENCODE writes sum FREQ[s] * CODE[s].LEN bits. -/
def Obligations.PayloadLengthIsTheWeightedCodeLength : Prop :=
  ∀ (s : State) (bs : List Byte) (rest : Bits), s.Ready → s.Inv → s.inPos = 0 → s.inBits = bitsOf bs ++ rest →
    rest.length < 8 → bs.length ≤ 2 ^ s.wCnt - 2 →
    ∃ s1 s2 s3 s4 s5, exec .count s = .next s1 ∧ exec .rewind s1 = .next s2 ∧ exec .build s2 = .next s3 ∧
      exec .gencodes s3 = .next s4 ∧ exec .encode s4 = .next s5 ∧ s5.err = false ∧
      s5.outBits.length = s.outBits.length +
        ((List.finRange 257).map fun i => (s1.freqAt i).toNat * (s4.codeAt i).len.toNat).sum

/-- R173: DECODE writes the bytes whose codes stand in IN and stops just after the end-of-stream code. -/
def Obligations.DecodeWritesTheBytesUpToTheEndCode : Prop :=
  ∀ (s : State) (tree : HTree) (ws : List (Byte × Bits)) (p rest : Bits), s.Ready → s.treeValid = true →
    s.holds tree s.root = true → (∀ w ∈ ws, tree.spells (byteSymbol w.1) w.2 = true) → tree.spells 256 p = true →
    s.unread = ws.flatMap Prod.snd ++ p ++ rest →
    ∃ t, exec .decode s = .next t ∧ t.unread = rest ∧ t = { s with
      curOp := 0x0B, cur := t.cur, outBits := s.outBits ++ bitsOf (ws.map Prod.fst)
      inPos := s.inPos + (ws.flatMap Prod.snd).length + p.length, portTrace := t.portTrace }

/-- R203: when IN ends before the end-of-stream leaf, DECODE raises TruncatedPayload; the bytes written stay (R207). -/
def Obligations.DecodeRaisesTruncatedPayload : Prop :=
  ∀ (s : State) (tree : HTree) (ws : List (Byte × Bits)) (p : Bits), s.Ready → s.treeValid = true →
    s.holds tree s.root = true → (∀ w ∈ ws, tree.spells (byteSymbol w.1) w.2 = true) → tree.unfinished p = true →
    s.unread = ws.flatMap Prod.snd ++ p →
    ∃ t, exec .decode s = .next t ∧ ErrorEntry 3 1 0x0B 0 { s with
      curOp := 0x0B, outBits := s.outBits ++ bitsOf (ws.map Prod.fst), inPos := s.inBits.length
      portTrace := t.portTrace } t

/-- R171: DECODE with a root that is a leaf: one bit of either value for the end-of-stream symbol; any other symbol is
written once per bit left, and then TruncatedPayload. -/
def Obligations.DecodeReadsOneBitPerSymbolOfARootLeaf : Prop :=
  ∀ (s : State) (d : Node), s.Ready → s.treeValid = true → s.nodeAt s.root = some d → d.leaf = true →
    d.sym.toNat ≤ 256 →
    (d.sym = 256 → ∀ b rest, s.unread = b :: rest → ∃ t, exec .decode s = .next t ∧ t = { s with
      curOp := 0x0B, cur := s.root, inPos := s.inPos + 1, portTrace := t.portTrace }) ∧
    (d.sym ≠ 256 ∨ s.unread = [] → ∃ t, exec .decode s = .next t ∧ ErrorEntry 3 1 0x0B 0 { s with
      curOp := 0x0B, outBits := s.outBits ++ bitsOf (List.replicate s.unread.length (d.sym.setWidth 8))
      inPos := s.inBits.length, portTrace := t.portTrace } t)

/-! ### COMPRESS and DECOMPRESS (45_control.md) -/

/-- R87: the stream COMPRESS writes into an empty OUT is the magic, the tree header, the payload and 0 to 7 zero bits that
make whole bytes; and how many bytes those are (R93). -/
def Obligations.CompressWritesMagicHeaderPayloadPadding : Prop :=
  ∀ (s : State) (bs : List Byte) (rest : Bits), s.Ready → s.Inv → s.inPos = 0 → s.inBits = bitsOf bs ++ rest →
    rest.length < 8 → bs.length ≤ 2 ^ s.wCnt - 2 → s.outBits = [] →
    ∃ (t : State) (tree : HTree) (pad : Bits), exec .compress s = .next t ∧ t.holds tree t.root = true ∧
      t.outBits = bin 32 s.magic.toNat ++ tree.header ++ (bs.flatMap t.codeBits ++ t.eofBits) ++ pad ∧
      pad.length ≤ 7 ∧ (∀ b ∈ pad, b = false) ∧ t.outBits.length % 8 = 0 ∧
      (wholeBytes t.outBits).length =
        (32 + (11 * tree.symbols.length - 1) + (bs.flatMap t.codeBits ++ t.eofBits).length + 7) / 8

/-- From any INPOS, COMPRESS makes the tables of the bytes it counts, those from INPOS on, and encodes those from the start
of IN (R182, R240). It completes when it counted each byte it encodes, as it did from INPOS = 0; it ends in MissingCode
at the first byte it did not count, with the magic, the header and the codes before that byte in OUT (R204, R207); and it
ends in COUNT on more bytes than the counters hold, with nothing written (R205). -/
def Obligations.CompressLeavesTheTablesOfItsInput : Prop :=
  ∀ (s : State) (counted : List Byte) (rest : Bits), s.Ready → s.Inv → s.unread = bitsOf counted ++ rest →
    rest.length < 8 →
    (counted.length ≤ 2 ^ s.wCnt - 2 → ∀ (bs : List Byte) (tail : Bits), s.inBits = bitsOf bs ++ tail → tail.length < 8 →
      (∀ b ∈ bs, b ∈ counted) → ∃ (t : State) (tree : HTree) (pad : Bits), exec .compress s = .next t ∧ t.Inv ∧
        t.holds tree t.root = true ∧ t.WeightsOk ∧ t.total.toNat = counted.length ∧
        (∀ b : Byte, (t.freqAt (byteIndex b.toNat)).toNat = counted.count b) ∧
        t.outBits = s.outBits ++ bin 32 s.magic.toNat ++ tree.header ++ (bs.flatMap t.codeBits ++ t.eofBits) ++ pad ∧
        pad.length ≤ 7 ∧ (∀ b ∈ pad, b = false) ∧ t.outBits.length % 8 = 0 ∧
        t = { s with
          curOp := 0x08, cstep := 7, freq := t.freq, total := t.total, nodes := t.nodes, ncount := t.ncount
          root := t.root, codes := t.codes, freqValid := true, treeValid := true, treeSrc := false, codesValid := true
          outBits := t.outBits, inPos := s.inBits.length, portTrace := t.portTrace }) ∧
    (counted.length ≤ 2 ^ s.wCnt - 2 → ∀ (pre post : List Byte) (b : Byte) (tail : Bits),
      s.inBits = bitsOf (pre ++ b :: post) ++ tail → (∀ x ∈ pre, x ∈ counted) → b ∉ counted →
      ∃ (t : State) (tree : HTree), exec .compress s = .next t ∧ t.holds tree t.root = true ∧ t.TreeOk ∧ t.BuiltOk ∧
        t.WeightsOk ∧ (∀ i, t.codeAt i = codeFor tree i) ∧ t.total.toNat = counted.length ∧
        (∀ x : Byte, (t.freqAt (byteIndex x.toNat)).toNat = counted.count x) ∧ t.freqAt eofIndex = 1 ∧
        ErrorEntry 4 1 0x07 (b.setWidth 32) { s with
          curOp := 0x07, freq := t.freq, total := t.total, nodes := t.nodes, ncount := t.ncount, root := t.root
          codes := t.codes, outBits := s.outBits ++ bin 32 s.magic.toNat ++ tree.header ++ pre.flatMap t.codeBits
          inPos := 8 * (pre.length + 1), portTrace := t.portTrace } t) ∧
    (2 ^ s.wCnt - 2 < counted.length → ∃ t, exec .compress s = .next t ∧ ErrorEntry 5 1 0x01 0 { s with
      curOp := 0x01, freq := t.freq, total := t.total, inPos := s.inPos + 8 * (2 ^ s.wCnt - 1)
      portTrace := t.portTrace } t)

/-- R183, R94: what DECOMPRESS writes and leaves on a whole compressed stream. -/
def Obligations.DecompressWritesTheBytesOfTheStream : Prop :=
  ∀ (s : State) (tree : HTree) (ws : List (Byte × Bits)) (p rest : Bits), s.Ready → tree.symbolsOk = true →
    tree.size ≤ 513 → (∀ w ∈ ws, tree.spells (byteSymbol w.1) w.2 = true) → tree.spells 256 p = true →
    s.outBits.length % 8 = 0 →
    s.unread = bin 32 s.magic.toNat ++ tree.header ++ ws.flatMap Prod.snd ++ p ++ rest →
    ∃ t, exec .decompress s = .next t ∧ t.unread = rest ∧ t.holds tree t.root = true ∧
      wholeBytes t.outBits = wholeBytes s.outBits ++ ws.map Prod.fst ∧
      t = { s with
        curOp := 0x08, cstep := 3, cur := t.cur, marks := t.marks, rdStack := [], nodes := t.nodes
        ncount := t.ncount, root := t.root, treeValid := true, treeSrc := true, codesValid := false
        outBits := s.outBits ++ bitsOf (ws.map Prod.fst), inPos := t.inPos, portTrace := t.portTrace }

/-- R184: what COMPRESS makes of any bytes, DECOMPRESS turns back into them. -/
def Obligations.DecompressUndoesCompress : Prop :=
  ∀ (s : State) (x : List Byte), s.Ready → s.Inv → x.length ≤ 2 ^ s.wCnt - 2 →
    ∃ t u, exec .compress (takeOut (attachIn (bitsOf x) s)) = .next t ∧ t.err = false ∧
      exec .decompress (attachIn (bitsOf (wholeBytes t.outBits)) (takeOut t)) = .next u ∧ u.err = false ∧
      u.outBits = bitsOf x

/-! ### The whole machine -/

/-- The invariant holds after reset. -/
def Obligations.InvariantHoldsAfterReset : Prop := State.reset.Inv

/-- Every step keeps the invariant: the flags agree with each other and with what the tables hold (R26, R33 to R38, R61,
R114, R206). -/
def Obligations.EveryStepKeepsTheInvariant : Prop := ∀ s t : State, s.Inv → step s = .next t → t.Inv

/-- R246, R247: every command ends, with BUSY = 0, by completion or by an error. -/
def Obligations.EveryCommandEnds : Prop :=
  ∀ (i : Instr) (s : State), s.Inv → i.source = .cmd → ∃ t, exec i s = .next t ∧ t.busy = false

/-- An instruction leaves the contents of IN alone, keeps INPOS within it, and only appends to OUT, whether it ends well
or in an error; only the commands R60 names move INPOS or write OUT. -/
def Obligations.OutOnlyGrowsAndInNeverChanges : Prop :=
  ∀ (i : Instr) (s t : State), exec i s = .next t →
    t.inBits = s.inBits ∧ (s.inPos ≤ s.inBits.length → t.inPos ≤ t.inBits.length) ∧ s.outBits <+: t.outBits ∧
    (i ∉ [.count, .rewind, .encode, .rdmagic, .rdtree, .decode, .compress, .decompress] → t.inPos = s.inPos) ∧
    (i ∉ [.wrmagic, .wrtree, .encode, .close, .decode, .compress, .decompress] → t.outBits = s.outBits)

/-- Only COUNT writes FREQ and TOTAL, only BUILD and RDTREE the node store, only GENCODES the code table, alone or as a
step of a pipeline, whether they end well or in an error (R23, R24, R28, R30); each validity flag is set by those alone,
a rebuilt table invalidates the later ones, and an error invalidates all (R33 to R35, R206, R243). -/
def Obligations.TablesAndFlagsHaveTheirOnlyWriters : Prop :=
  ∀ (i : Instr) (s t : State), exec i s = .next t →
    (i ≠ .count → i ≠ .compress → t.freq = s.freq ∧ t.total = s.total ∧ (t.freqValid = true → s.freqValid = true)) ∧
    (i ∉ [.build, .rdtree, .compress, .decompress] → i.source ≠ .header →
      t.nodes = s.nodes ∧ t.ncount = s.ncount ∧ t.root = s.root ∧ (t.treeValid = true → s.treeValid = true)) ∧
    (i ≠ .rdtree → i ≠ .decompress → i.source ≠ .header → t.treeSrc = true → s.treeSrc = true) ∧
    (i ≠ .gencodes → i ≠ .compress → t.codes = s.codes ∧ (t.codesValid = true → s.codesValid = true)) ∧
    (s.Ready → i = .count → t.treeValid = false ∧ t.treeSrc = false ∧ t.codesValid = false) ∧
    (s.Ready → i = .build ∨ i = .rdtree → t.codesValid = false) ∧
    (t.err = true → s.err = false → t.freqValid = false ∧ t.treeValid = false ∧ t.treeSrc = false ∧
      t.codesValid = false)

/-! ### DECOMPRESS that ends in an error (45_control.md) -/

/-- R183, R208: DECOMPRESS ends at its first failing step. A stream shorter than the magic number or that begins with
another leaves OUT alone, and so does a malformed header, in each of the four ways of R202; a payload cut short leaves the
bytes before the cut in OUT (R207). -/
def Obligations.DecompressEndsAtItsFirstFailingStep : Prop :=
  ∀ s : State, s.Ready →
    (s.unread.length < 32 → ∃ t, exec .decompress s = .next t ∧ ErrorEntry 1 1 0x09 0 { s with
      curOp := 0x09, inPos := s.inBits.length, portTrace := t.portTrace } t) ∧
    (∀ (v : Word) (rest : Bits), s.unread = bin 32 v.toNat ++ rest → v ≠ s.magic →
      ∃ t, exec .decompress s = .next t ∧ ErrorEntry 1 2 0x09 v { s with
        curOp := 0x09, inPos := s.inPos + 32, portTrace := t.portTrace } t) ∧
    (∀ (ts : List Token) (rest : Bits), headerFront ts = true → ts.length ≤ 513 →
      s.unread = bin 32 s.magic.toNat ++ ts.flatMap Token.bits ++ rest →
      (rest = [] → ∃ t, exec .decompress s = .next t ∧ ErrorEntry 2 1 0x0A 0 { s with
        curOp := 0x0A, nodes := t.nodes, ncount := t.ncount, inPos := s.inBits.length, portTrace := t.portTrace } t) ∧
      (∀ more : Bits, rest = true :: more → ts.length < 513 → more.length < 9 →
        ∃ t, exec .decompress s = .next t ∧ ErrorEntry 2 2 0x0A 0 { s with
          curOp := 0x0A, nodes := t.nodes, ncount := t.ncount, inPos := s.inBits.length, portTrace := t.portTrace } t) ∧
      (∀ (v : Symbol) (more : Bits), rest = (true :: bin 9 v.toNat) ++ more → ts.length < 513 → 256 < v.toNat →
        ∃ t, exec .decompress s = .next t ∧ ErrorEntry 2 3 0x0A (v.setWidth 32) { s with
          curOp := 0x0A, nodes := t.nodes, ncount := t.ncount
          inPos := s.inPos + 32 + (ts.flatMap Token.bits).length + 10, portTrace := t.portTrace } t) ∧
      (rest ≠ [] → ts.length = 513 → ∃ t, exec .decompress s = .next t ∧ ErrorEntry 2 4 0x0A 514 { s with
        curOp := 0x0A, nodes := t.nodes, ncount := t.ncount
        inPos := s.inPos + 32 + (ts.flatMap Token.bits).length + 1, portTrace := t.portTrace } t)) ∧
    (∀ (tree : HTree) (ws : List (Byte × Bits)) (p : Bits), tree.symbolsOk = true → tree.size ≤ 513 →
      (∀ w ∈ ws, tree.spells (byteSymbol w.1) w.2 = true) → tree.unfinished p = true →
      s.unread = bin 32 s.magic.toNat ++ tree.header ++ ws.flatMap Prod.snd ++ p →
      ∃ t, exec .decompress s = .next t ∧ t.holds tree t.root = true ∧ ErrorEntry 3 1 0x0B 0 { s with
        curOp := 0x0B, nodes := t.nodes, ncount := t.ncount, root := t.root
        outBits := s.outBits ++ bitsOf (ws.map Prod.fst), inPos := s.inBits.length, portTrace := t.portTrace } t)

end
end

