-- ==== Sys2Proof/Laws/Bits.lean ====
section
/-! SUPPORT. Bit strings as numbers and as bytes: bin and val undo each other, and so do bitsOf and wholeBytes. -/

namespace Sys2Proof

@[simp] theorem length_bin (n v : Nat) : (bin n v).length = n := by
  induction n with
  | zero => rfl
  | succ n ih => simp [bin, ih]

/-- The i-th bit of bin_n(v) from the left is bit n - 1 - i of v. -/
theorem getElem?_bin (n v i : Nat) (h : i < n) : (bin n v)[i]? = some (v.testBit (n - 1 - i)) := by
  induction n generalizing i with
  | zero => omega
  | succ n ih =>
    cases i with
    | zero => simp [bin]
    | succ i =>
      rw [bin, List.getElem?_cons_succ, ih i (by omega)]
      congr 2; omega

theorem valFrom_eq (acc : Nat) (s : Bits) : valFrom acc s = acc * 2 ^ s.length + val s := by
  induction s generalizing acc with
  | nil => simp [valFrom, val]
  | cons b s ih =>
    have e : val (b :: s) = valFrom (2 * 0 + b.toNat) s := rfl
    have e' : valFrom acc (b :: s) = valFrom (2 * acc + b.toNat) s := rfl
    rw [e, e', ih, ih (2 * 0 + b.toNat), List.length_cons, pow_succ]
    ring

@[simp] theorem val_nil : val [] = 0 := rfl

theorem val_cons (b : Bool) (s : Bits) : val (b :: s) = b.toNat * 2 ^ s.length + val s := by
  have e : val (b :: s) = valFrom (2 * 0 + b.toNat) s := rfl
  rw [e, valFrom_eq]
  simp

theorem val_append (s t : Bits) : val (s ++ t) = val s * 2 ^ t.length + val t := by
  induction s with
  | nil => simp
  | cons b s ih =>
    rw [List.cons_append, val_cons, ih, val_cons, List.length_append, pow_add]
    ring

theorem val_lt (s : Bits) : val s < 2 ^ s.length := by
  induction s with
  | nil => simp
  | cons b s ih =>
    rw [val_cons, List.length_cons, pow_succ]
    cases b <;> simp <;> omega

theorem val_bin (n v : Nat) : val (bin n v) = v % 2 ^ n := by
  induction n with
  | zero => simp [bin, Nat.mod_one]
  | succ n ih =>
    rw [bin, val_cons, ih, length_bin, Nat.mod_pow_succ, Nat.toNat_testBit]
    ring

theorem val_bin_of_lt {n v : Nat} (h : v < 2 ^ n) : val (bin n v) = v := by
  rw [val_bin, Nat.mod_eq_of_lt h]

theorem bin_mod (n v : Nat) : bin n (v % 2 ^ n) = bin n v := by
  apply List.ext_getElem?
  intro i
  by_cases h : i < n
  · rw [getElem?_bin _ _ _ h, getElem?_bin _ _ _ h, Nat.testBit_mod_two_pow]
    simp; omega
  · simp [h]

theorem bin_val (s : Bits) : bin s.length (val s) = s := by
  induction s with
  | nil => rfl
  | cons b s ih =>
    rw [List.length_cons, bin, val_cons]
    congr 1
    · have := val_lt s
      cases b
      · simp [Nat.testBit_eq_false_of_lt this]
      · simp [Nat.testBit_two_pow_add_eq, Nat.testBit_eq_false_of_lt this]
    · rw [← bin_mod]
      have : (b.toNat * 2 ^ s.length + val s) % 2 ^ s.length = val s := by
        rw [Nat.mul_add_mod_self_right, Nat.mod_eq_of_lt (val_lt s)]
      rw [this, ih]

theorem bin_injective {n a b : Nat} (ha : a < 2 ^ n) (hb : b < 2 ^ n) (h : bin n a = bin n b) : a = b := by
  rw [← val_bin_of_lt ha, ← val_bin_of_lt hb, h]

/-- A string of n bits is bin_n of a number of n bits. -/
theorem bin_val_take {n : Nat} {s : Bits} (h : n ≤ s.length) : bin n (val (s.take n)) = s.take n := by
  have := bin_val (s.take n)
  rwa [List.length_take, Nat.min_eq_left h] at this

theorem val_take_lt (n : Nat) (s : Bits) : val (s.take n) < 2 ^ n :=
  lt_of_lt_of_le (val_lt _) (Nat.pow_le_pow_right (by omega) (List.length_take_le n s))

namespace Machine

/-! ### Bytes -/

@[simp] theorem bitsOf_nil : bitsOf [] = [] := rfl

@[simp] theorem bitsOf_cons (b : Byte) (bs : List Byte) : bitsOf (b :: bs) = bin 8 b.toNat ++ bitsOf bs := rfl

@[simp] theorem bitsOf_append (a b : List Byte) : bitsOf (a ++ b) = bitsOf a ++ bitsOf b := by
  simp [bitsOf]

@[simp] theorem length_bitsOf (bs : List Byte) : (bitsOf bs).length = 8 * bs.length := by
  induction bs with
  | nil => rfl
  | cons b bs ih => simp [ih]; omega

theorem toNat_byteOf (b : Bits) (h : b.length = 8) : (byteOf b).toNat = val b := by
  have := val_lt b
  rw [h] at this
  simp [byteOf]
  omega

@[simp] theorem byteOf_bin (b : Byte) : byteOf (bin 8 b.toNat) = b := by
  apply BitVec.eq_of_toNat_eq
  rw [toNat_byteOf _ (by simp), val_bin_of_lt b.isLt]

theorem bin_byteOf (b : Bits) (h : b.length = 8) : bin 8 (byteOf b).toNat = b := by
  rw [toNat_byteOf b h, ← h, bin_val]

theorem wholeBytes_short {b : Bits} (h : b.length < 8) : wholeBytes b = [] := by
  simp [wholeBytes, Nat.div_eq_of_lt h, bytesUpTo]

theorem wholeBytes_step {b : Bits} (h : 8 ≤ b.length) :
    wholeBytes b = byteOf (b.take 8) :: wholeBytes (b.drop 8) := by
  have e : b.length / 8 = (b.drop 8).length / 8 + 1 := by simp; omega
  rw [wholeBytes, e, bytesUpTo, if_neg (by omega)]
  rfl

/-- The whole bytes of a byte sequence with a partial byte behind it. -/
theorem wholeBytes_bitsOf_append (bs : List Byte) {rest : Bits} (h : rest.length < 8) :
    wholeBytes (bitsOf bs ++ rest) = bs := by
  induction bs with
  | nil => exact wholeBytes_short h
  | cons b bs ih =>
    rw [wholeBytes_step (by simp)]
    simp [ih]

@[simp] theorem wholeBytes_bitsOf (bs : List Byte) : wholeBytes (bitsOf bs) = bs := by
  have := wholeBytes_bitsOf_append bs (rest := []) (by simp)
  simpa using this

/-- Every bit string is its whole bytes and a partial byte. -/
theorem bitsOf_wholeBytes (b : Bits) : ∃ rest : Bits, rest.length < 8 ∧ b = bitsOf (wholeBytes b) ++ rest := by
  induction h : b.length using Nat.strong_induction_on generalizing b with
  | _ n ih =>
    by_cases hb : b.length < 8
    · exact ⟨b, hb, by simp [wholeBytes_short hb]⟩
    · obtain ⟨rest, hr, e⟩ := ih (b.drop 8).length (by simp; omega) (b.drop 8) rfl
      refine ⟨rest, hr, ?_⟩
      rw [wholeBytes_step (by omega), bitsOf_cons, bin_byteOf _ (by simp; omega), List.append_assoc, ← e,
        List.take_append_drop]

theorem length_wholeBytes (b : Bits) : (wholeBytes b).length = b.length / 8 := by
  obtain ⟨rest, hr, e⟩ := bitsOf_wholeBytes b
  have := congrArg List.length e
  simp at this
  omega

/-- A byte-aligned string is the bits of its bytes. -/
theorem bitsOf_wholeBytes_aligned {b : Bits} (h : b.length % 8 = 0) : bitsOf (wholeBytes b) = b := by
  obtain ⟨rest, hr, e⟩ := bitsOf_wholeBytes b
  have h1 := congrArg List.length e
  simp at h1
  have : rest = [] := List.length_eq_zero_iff.mp (by omega)
  simp [this] at e
  exact e.symm

end Machine

end Sys2Proof
end

