-- ==== Sys2Proof/Laws/State.lean ====
section
/-! SUPPORT. One lemma per field per update of State, so that no proof unfolds a record update. -/

namespace Sys2Proof.Machine

/-! ### clearValid -/

@[simp] theorem clearValid_magic (s : State) : (s.clearValid).magic = s.magic := rfl
@[simp] theorem clearValid_wCnt (s : State) : (s.clearValid).wCnt = s.wCnt := rfl
@[simp] theorem clearValid_busy (s : State) : (s.clearValid).busy = s.busy := rfl
@[simp] theorem clearValid_err (s : State) : (s.clearValid).err = s.err := rfl
@[simp] theorem clearValid_freqValid (s : State) : (s.clearValid).freqValid = false := rfl
@[simp] theorem clearValid_treeValid (s : State) : (s.clearValid).treeValid = false := rfl
@[simp] theorem clearValid_treeSrc (s : State) : (s.clearValid).treeSrc = false := rfl
@[simp] theorem clearValid_codesValid (s : State) : (s.clearValid).codesValid = false := rfl
@[simp] theorem clearValid_errCode (s : State) : (s.clearValid).errCode = s.errCode := rfl
@[simp] theorem clearValid_subcause (s : State) : (s.clearValid).subcause = s.subcause := rfl
@[simp] theorem clearValid_failOp (s : State) : (s.clearValid).failOp = s.failOp := rfl
@[simp] theorem clearValid_errData (s : State) : (s.clearValid).errData = s.errData := rfl
@[simp] theorem clearValid_curOp (s : State) : (s.clearValid).curOp = s.curOp := rfl
@[simp] theorem clearValid_cstep (s : State) : (s.clearValid).cstep = s.cstep := rfl
@[simp] theorem clearValid_freq (s : State) : (s.clearValid).freq = s.freq := rfl
@[simp] theorem clearValid_total (s : State) : (s.clearValid).total = s.total := rfl
@[simp] theorem clearValid_nodes (s : State) : (s.clearValid).nodes = s.nodes := rfl
@[simp] theorem clearValid_ncount (s : State) : (s.clearValid).ncount = s.ncount := rfl
@[simp] theorem clearValid_root (s : State) : (s.clearValid).root = s.root := rfl
@[simp] theorem clearValid_codes (s : State) : (s.clearValid).codes = s.codes := rfl
@[simp] theorem clearValid_pq (s : State) : (s.clearValid).pq = s.pq := rfl
@[simp] theorem clearValid_cur (s : State) : (s.clearValid).cur = s.cur := rfl
@[simp] theorem clearValid_marks (s : State) : (s.clearValid).marks = s.marks := rfl
@[simp] theorem clearValid_rdStack (s : State) : (s.clearValid).rdStack = s.rdStack := rfl
@[simp] theorem clearValid_inBits (s : State) : (s.clearValid).inBits = s.inBits := rfl
@[simp] theorem clearValid_inPos (s : State) : (s.clearValid).inPos = s.inPos := rfl
@[simp] theorem clearValid_outBits (s : State) : (s.clearValid).outBits = s.outBits := rfl
@[simp] theorem clearValid_portTrace (s : State) : (s.clearValid).portTrace = s.portTrace := rfl
@[simp] theorem clearValid_draws (s : State) : (s.clearValid).draws = s.draws := rfl
@[simp] theorem clearValid_script (s : State) : (s.clearValid).script = s.script := rfl
@[simp] theorem clearValid_hostLog (s : State) : (s.clearValid).hostLog = s.hostLog := rfl

/-! ### clearError -/

@[simp] theorem clearError_magic (s : State) : (s.clearError).magic = s.magic := rfl
@[simp] theorem clearError_wCnt (s : State) : (s.clearError).wCnt = s.wCnt := rfl
@[simp] theorem clearError_busy (s : State) : (s.clearError).busy = s.busy := rfl
@[simp] theorem clearError_err (s : State) : (s.clearError).err = false := rfl
@[simp] theorem clearError_freqValid (s : State) : (s.clearError).freqValid = s.freqValid := rfl
@[simp] theorem clearError_treeValid (s : State) : (s.clearError).treeValid = s.treeValid := rfl
@[simp] theorem clearError_treeSrc (s : State) : (s.clearError).treeSrc = s.treeSrc := rfl
@[simp] theorem clearError_codesValid (s : State) : (s.clearError).codesValid = s.codesValid := rfl
@[simp] theorem clearError_errCode (s : State) : (s.clearError).errCode = 0 := rfl
@[simp] theorem clearError_subcause (s : State) : (s.clearError).subcause = 0 := rfl
@[simp] theorem clearError_failOp (s : State) : (s.clearError).failOp = 0 := rfl
@[simp] theorem clearError_errData (s : State) : (s.clearError).errData = 0 := rfl
@[simp] theorem clearError_curOp (s : State) : (s.clearError).curOp = s.curOp := rfl
@[simp] theorem clearError_cstep (s : State) : (s.clearError).cstep = s.cstep := rfl
@[simp] theorem clearError_freq (s : State) : (s.clearError).freq = s.freq := rfl
@[simp] theorem clearError_total (s : State) : (s.clearError).total = s.total := rfl
@[simp] theorem clearError_nodes (s : State) : (s.clearError).nodes = s.nodes := rfl
@[simp] theorem clearError_ncount (s : State) : (s.clearError).ncount = s.ncount := rfl
@[simp] theorem clearError_root (s : State) : (s.clearError).root = s.root := rfl
@[simp] theorem clearError_codes (s : State) : (s.clearError).codes = s.codes := rfl
@[simp] theorem clearError_pq (s : State) : (s.clearError).pq = s.pq := rfl
@[simp] theorem clearError_cur (s : State) : (s.clearError).cur = s.cur := rfl
@[simp] theorem clearError_marks (s : State) : (s.clearError).marks = s.marks := rfl
@[simp] theorem clearError_rdStack (s : State) : (s.clearError).rdStack = s.rdStack := rfl
@[simp] theorem clearError_inBits (s : State) : (s.clearError).inBits = s.inBits := rfl
@[simp] theorem clearError_inPos (s : State) : (s.clearError).inPos = s.inPos := rfl
@[simp] theorem clearError_outBits (s : State) : (s.clearError).outBits = s.outBits := rfl
@[simp] theorem clearError_portTrace (s : State) : (s.clearError).portTrace = s.portTrace := rfl
@[simp] theorem clearError_draws (s : State) : (s.clearError).draws = s.draws := rfl
@[simp] theorem clearError_script (s : State) : (s.clearError).script = s.script := rfl
@[simp] theorem clearError_hostLog (s : State) : (s.clearError).hostLog = s.hostLog := rfl

/-! ### setFreq -/

@[simp] theorem setFreq_magic (i : Fin 257) (v : Word) (s : State) : (s.setFreq i v).magic = s.magic := rfl
@[simp] theorem setFreq_wCnt (i : Fin 257) (v : Word) (s : State) : (s.setFreq i v).wCnt = s.wCnt := rfl
@[simp] theorem setFreq_busy (i : Fin 257) (v : Word) (s : State) : (s.setFreq i v).busy = s.busy := rfl
@[simp] theorem setFreq_err (i : Fin 257) (v : Word) (s : State) : (s.setFreq i v).err = s.err := rfl
@[simp] theorem setFreq_freqValid (i : Fin 257) (v : Word) (s : State) : (s.setFreq i v).freqValid = s.freqValid := rfl
@[simp] theorem setFreq_treeValid (i : Fin 257) (v : Word) (s : State) : (s.setFreq i v).treeValid = s.treeValid := rfl
@[simp] theorem setFreq_treeSrc (i : Fin 257) (v : Word) (s : State) : (s.setFreq i v).treeSrc = s.treeSrc := rfl
@[simp] theorem setFreq_codesValid (i : Fin 257) (v : Word) (s : State) : (s.setFreq i v).codesValid = s.codesValid := rfl
@[simp] theorem setFreq_errCode (i : Fin 257) (v : Word) (s : State) : (s.setFreq i v).errCode = s.errCode := rfl
@[simp] theorem setFreq_subcause (i : Fin 257) (v : Word) (s : State) : (s.setFreq i v).subcause = s.subcause := rfl
@[simp] theorem setFreq_failOp (i : Fin 257) (v : Word) (s : State) : (s.setFreq i v).failOp = s.failOp := rfl
@[simp] theorem setFreq_errData (i : Fin 257) (v : Word) (s : State) : (s.setFreq i v).errData = s.errData := rfl
@[simp] theorem setFreq_curOp (i : Fin 257) (v : Word) (s : State) : (s.setFreq i v).curOp = s.curOp := rfl
@[simp] theorem setFreq_cstep (i : Fin 257) (v : Word) (s : State) : (s.setFreq i v).cstep = s.cstep := rfl
@[simp] theorem setFreq_freq (i : Fin 257) (v : Word) (s : State) : (s.setFreq i v).freq = s.freq.set i.val v i.isLt := rfl
@[simp] theorem setFreq_total (i : Fin 257) (v : Word) (s : State) : (s.setFreq i v).total = s.total := rfl
@[simp] theorem setFreq_nodes (i : Fin 257) (v : Word) (s : State) : (s.setFreq i v).nodes = s.nodes := rfl
@[simp] theorem setFreq_ncount (i : Fin 257) (v : Word) (s : State) : (s.setFreq i v).ncount = s.ncount := rfl
@[simp] theorem setFreq_root (i : Fin 257) (v : Word) (s : State) : (s.setFreq i v).root = s.root := rfl
@[simp] theorem setFreq_codes (i : Fin 257) (v : Word) (s : State) : (s.setFreq i v).codes = s.codes := rfl
@[simp] theorem setFreq_pq (i : Fin 257) (v : Word) (s : State) : (s.setFreq i v).pq = s.pq := rfl
@[simp] theorem setFreq_cur (i : Fin 257) (v : Word) (s : State) : (s.setFreq i v).cur = s.cur := rfl
@[simp] theorem setFreq_marks (i : Fin 257) (v : Word) (s : State) : (s.setFreq i v).marks = s.marks := rfl
@[simp] theorem setFreq_rdStack (i : Fin 257) (v : Word) (s : State) : (s.setFreq i v).rdStack = s.rdStack := rfl
@[simp] theorem setFreq_inBits (i : Fin 257) (v : Word) (s : State) : (s.setFreq i v).inBits = s.inBits := rfl
@[simp] theorem setFreq_inPos (i : Fin 257) (v : Word) (s : State) : (s.setFreq i v).inPos = s.inPos := rfl
@[simp] theorem setFreq_outBits (i : Fin 257) (v : Word) (s : State) : (s.setFreq i v).outBits = s.outBits := rfl
@[simp] theorem setFreq_portTrace (i : Fin 257) (v : Word) (s : State) : (s.setFreq i v).portTrace = s.portTrace := rfl
@[simp] theorem setFreq_draws (i : Fin 257) (v : Word) (s : State) : (s.setFreq i v).draws = s.draws := rfl
@[simp] theorem setFreq_script (i : Fin 257) (v : Word) (s : State) : (s.setFreq i v).script = s.script := rfl
@[simp] theorem setFreq_hostLog (i : Fin 257) (v : Word) (s : State) : (s.setFreq i v).hostLog = s.hostLog := rfl

/-! ### setCode -/

@[simp] theorem setCode_magic (i : Fin 257) (p : Bits) (s : State) : (s.setCode i p).magic = s.magic := rfl
@[simp] theorem setCode_wCnt (i : Fin 257) (p : Bits) (s : State) : (s.setCode i p).wCnt = s.wCnt := rfl
@[simp] theorem setCode_busy (i : Fin 257) (p : Bits) (s : State) : (s.setCode i p).busy = s.busy := rfl
@[simp] theorem setCode_err (i : Fin 257) (p : Bits) (s : State) : (s.setCode i p).err = s.err := rfl
@[simp] theorem setCode_freqValid (i : Fin 257) (p : Bits) (s : State) : (s.setCode i p).freqValid = s.freqValid := rfl
@[simp] theorem setCode_treeValid (i : Fin 257) (p : Bits) (s : State) : (s.setCode i p).treeValid = s.treeValid := rfl
@[simp] theorem setCode_treeSrc (i : Fin 257) (p : Bits) (s : State) : (s.setCode i p).treeSrc = s.treeSrc := rfl
@[simp] theorem setCode_codesValid (i : Fin 257) (p : Bits) (s : State) : (s.setCode i p).codesValid = s.codesValid := rfl
@[simp] theorem setCode_errCode (i : Fin 257) (p : Bits) (s : State) : (s.setCode i p).errCode = s.errCode := rfl
@[simp] theorem setCode_subcause (i : Fin 257) (p : Bits) (s : State) : (s.setCode i p).subcause = s.subcause := rfl
@[simp] theorem setCode_failOp (i : Fin 257) (p : Bits) (s : State) : (s.setCode i p).failOp = s.failOp := rfl
@[simp] theorem setCode_errData (i : Fin 257) (p : Bits) (s : State) : (s.setCode i p).errData = s.errData := rfl
@[simp] theorem setCode_curOp (i : Fin 257) (p : Bits) (s : State) : (s.setCode i p).curOp = s.curOp := rfl
@[simp] theorem setCode_cstep (i : Fin 257) (p : Bits) (s : State) : (s.setCode i p).cstep = s.cstep := rfl
@[simp] theorem setCode_freq (i : Fin 257) (p : Bits) (s : State) : (s.setCode i p).freq = s.freq := rfl
@[simp] theorem setCode_total (i : Fin 257) (p : Bits) (s : State) : (s.setCode i p).total = s.total := rfl
@[simp] theorem setCode_nodes (i : Fin 257) (p : Bits) (s : State) : (s.setCode i p).nodes = s.nodes := rfl
@[simp] theorem setCode_ncount (i : Fin 257) (p : Bits) (s : State) : (s.setCode i p).ncount = s.ncount := rfl
@[simp] theorem setCode_root (i : Fin 257) (p : Bits) (s : State) : (s.setCode i p).root = s.root := rfl
@[simp] theorem setCode_codes (i : Fin 257) (p : Bits) (s : State) : (s.setCode i p).codes = s.codes.set i.val { len := BitVec.ofNat 9 p.length, bits := p } i.isLt := rfl
@[simp] theorem setCode_pq (i : Fin 257) (p : Bits) (s : State) : (s.setCode i p).pq = s.pq := rfl
@[simp] theorem setCode_cur (i : Fin 257) (p : Bits) (s : State) : (s.setCode i p).cur = s.cur := rfl
@[simp] theorem setCode_marks (i : Fin 257) (p : Bits) (s : State) : (s.setCode i p).marks = s.marks := rfl
@[simp] theorem setCode_rdStack (i : Fin 257) (p : Bits) (s : State) : (s.setCode i p).rdStack = s.rdStack := rfl
@[simp] theorem setCode_inBits (i : Fin 257) (p : Bits) (s : State) : (s.setCode i p).inBits = s.inBits := rfl
@[simp] theorem setCode_inPos (i : Fin 257) (p : Bits) (s : State) : (s.setCode i p).inPos = s.inPos := rfl
@[simp] theorem setCode_outBits (i : Fin 257) (p : Bits) (s : State) : (s.setCode i p).outBits = s.outBits := rfl
@[simp] theorem setCode_portTrace (i : Fin 257) (p : Bits) (s : State) : (s.setCode i p).portTrace = s.portTrace := rfl
@[simp] theorem setCode_draws (i : Fin 257) (p : Bits) (s : State) : (s.setCode i p).draws = s.draws := rfl
@[simp] theorem setCode_script (i : Fin 257) (p : Bits) (s : State) : (s.setCode i p).script = s.script := rfl
@[simp] theorem setCode_hostLog (i : Fin 257) (p : Bits) (s : State) : (s.setCode i p).hostLog = s.hostLog := rfl

/-! ### mark -/

@[simp] theorem mark_magic (s : State) : (s.mark).magic = s.magic := rfl
@[simp] theorem mark_wCnt (s : State) : (s.mark).wCnt = s.wCnt := rfl
@[simp] theorem mark_busy (s : State) : (s.mark).busy = s.busy := rfl
@[simp] theorem mark_err (s : State) : (s.mark).err = s.err := rfl
@[simp] theorem mark_freqValid (s : State) : (s.mark).freqValid = s.freqValid := rfl
@[simp] theorem mark_treeValid (s : State) : (s.mark).treeValid = s.treeValid := rfl
@[simp] theorem mark_treeSrc (s : State) : (s.mark).treeSrc = s.treeSrc := rfl
@[simp] theorem mark_codesValid (s : State) : (s.mark).codesValid = s.codesValid := rfl
@[simp] theorem mark_errCode (s : State) : (s.mark).errCode = s.errCode := rfl
@[simp] theorem mark_subcause (s : State) : (s.mark).subcause = s.subcause := rfl
@[simp] theorem mark_failOp (s : State) : (s.mark).failOp = s.failOp := rfl
@[simp] theorem mark_errData (s : State) : (s.mark).errData = s.errData := rfl
@[simp] theorem mark_curOp (s : State) : (s.mark).curOp = s.curOp := rfl
@[simp] theorem mark_cstep (s : State) : (s.mark).cstep = s.cstep := rfl
@[simp] theorem mark_freq (s : State) : (s.mark).freq = s.freq := rfl
@[simp] theorem mark_total (s : State) : (s.mark).total = s.total := rfl
@[simp] theorem mark_nodes (s : State) : (s.mark).nodes = s.nodes := rfl
@[simp] theorem mark_ncount (s : State) : (s.mark).ncount = s.ncount := rfl
@[simp] theorem mark_root (s : State) : (s.mark).root = s.root := rfl
@[simp] theorem mark_codes (s : State) : (s.mark).codes = s.codes := rfl
@[simp] theorem mark_pq (s : State) : (s.mark).pq = s.pq := rfl
@[simp] theorem mark_cur (s : State) : (s.mark).cur = s.cur := rfl
@[simp] theorem mark_marks (s : State) : (s.mark).marks = s.marks := rfl
@[simp] theorem mark_rdStack (s : State) : (s.mark).rdStack = s.rdStack := rfl
@[simp] theorem mark_inBits (s : State) : (s.mark).inBits = s.inBits := rfl
@[simp] theorem mark_inPos (s : State) : (s.mark).inPos = s.inPos := rfl
@[simp] theorem mark_outBits (s : State) : (s.mark).outBits = s.outBits := rfl
@[simp] theorem mark_portTrace (s : State) : (s.mark).portTrace = s.portMark :: s.portTrace := rfl
@[simp] theorem mark_draws (s : State) : (s.mark).draws = s.draws := rfl
@[simp] theorem mark_script (s : State) : (s.mark).script = s.script := rfl
@[simp] theorem mark_hostLog (s : State) : (s.mark).hostLog = s.hostLog := rfl

/-! ### seek -/

@[simp] theorem seek_magic (p : Nat) (s : State) : (s.seek p).magic = s.magic := rfl
@[simp] theorem seek_wCnt (p : Nat) (s : State) : (s.seek p).wCnt = s.wCnt := rfl
@[simp] theorem seek_busy (p : Nat) (s : State) : (s.seek p).busy = s.busy := rfl
@[simp] theorem seek_err (p : Nat) (s : State) : (s.seek p).err = s.err := rfl
@[simp] theorem seek_freqValid (p : Nat) (s : State) : (s.seek p).freqValid = s.freqValid := rfl
@[simp] theorem seek_treeValid (p : Nat) (s : State) : (s.seek p).treeValid = s.treeValid := rfl
@[simp] theorem seek_treeSrc (p : Nat) (s : State) : (s.seek p).treeSrc = s.treeSrc := rfl
@[simp] theorem seek_codesValid (p : Nat) (s : State) : (s.seek p).codesValid = s.codesValid := rfl
@[simp] theorem seek_errCode (p : Nat) (s : State) : (s.seek p).errCode = s.errCode := rfl
@[simp] theorem seek_subcause (p : Nat) (s : State) : (s.seek p).subcause = s.subcause := rfl
@[simp] theorem seek_failOp (p : Nat) (s : State) : (s.seek p).failOp = s.failOp := rfl
@[simp] theorem seek_errData (p : Nat) (s : State) : (s.seek p).errData = s.errData := rfl
@[simp] theorem seek_curOp (p : Nat) (s : State) : (s.seek p).curOp = s.curOp := rfl
@[simp] theorem seek_cstep (p : Nat) (s : State) : (s.seek p).cstep = s.cstep := rfl
@[simp] theorem seek_freq (p : Nat) (s : State) : (s.seek p).freq = s.freq := rfl
@[simp] theorem seek_total (p : Nat) (s : State) : (s.seek p).total = s.total := rfl
@[simp] theorem seek_nodes (p : Nat) (s : State) : (s.seek p).nodes = s.nodes := rfl
@[simp] theorem seek_ncount (p : Nat) (s : State) : (s.seek p).ncount = s.ncount := rfl
@[simp] theorem seek_root (p : Nat) (s : State) : (s.seek p).root = s.root := rfl
@[simp] theorem seek_codes (p : Nat) (s : State) : (s.seek p).codes = s.codes := rfl
@[simp] theorem seek_pq (p : Nat) (s : State) : (s.seek p).pq = s.pq := rfl
@[simp] theorem seek_cur (p : Nat) (s : State) : (s.seek p).cur = s.cur := rfl
@[simp] theorem seek_marks (p : Nat) (s : State) : (s.seek p).marks = s.marks := rfl
@[simp] theorem seek_rdStack (p : Nat) (s : State) : (s.seek p).rdStack = s.rdStack := rfl
@[simp] theorem seek_inBits (p : Nat) (s : State) : (s.seek p).inBits = s.inBits := rfl
@[simp] theorem seek_inPos (p : Nat) (s : State) : (s.seek p).inPos = p := rfl
@[simp] theorem seek_outBits (p : Nat) (s : State) : (s.seek p).outBits = s.outBits := rfl
@[simp] theorem seek_portTrace (p : Nat) (s : State) : (s.seek p).portTrace = { inPos := p, outLen := s.outBits.length } :: s.portTrace := rfl
@[simp] theorem seek_draws (p : Nat) (s : State) : (s.seek p).draws = s.draws := rfl
@[simp] theorem seek_script (p : Nat) (s : State) : (s.seek p).script = s.script := rfl
@[simp] theorem seek_hostLog (p : Nat) (s : State) : (s.seek p).hostLog = s.hostLog := rfl

/-! ### writeStr -/

@[simp] theorem writeStr_magic (b : Bits) (s : State) : (writeStr b s).magic = s.magic := rfl
@[simp] theorem writeStr_wCnt (b : Bits) (s : State) : (writeStr b s).wCnt = s.wCnt := rfl
@[simp] theorem writeStr_busy (b : Bits) (s : State) : (writeStr b s).busy = s.busy := rfl
@[simp] theorem writeStr_err (b : Bits) (s : State) : (writeStr b s).err = s.err := rfl
@[simp] theorem writeStr_freqValid (b : Bits) (s : State) : (writeStr b s).freqValid = s.freqValid := rfl
@[simp] theorem writeStr_treeValid (b : Bits) (s : State) : (writeStr b s).treeValid = s.treeValid := rfl
@[simp] theorem writeStr_treeSrc (b : Bits) (s : State) : (writeStr b s).treeSrc = s.treeSrc := rfl
@[simp] theorem writeStr_codesValid (b : Bits) (s : State) : (writeStr b s).codesValid = s.codesValid := rfl
@[simp] theorem writeStr_errCode (b : Bits) (s : State) : (writeStr b s).errCode = s.errCode := rfl
@[simp] theorem writeStr_subcause (b : Bits) (s : State) : (writeStr b s).subcause = s.subcause := rfl
@[simp] theorem writeStr_failOp (b : Bits) (s : State) : (writeStr b s).failOp = s.failOp := rfl
@[simp] theorem writeStr_errData (b : Bits) (s : State) : (writeStr b s).errData = s.errData := rfl
@[simp] theorem writeStr_curOp (b : Bits) (s : State) : (writeStr b s).curOp = s.curOp := rfl
@[simp] theorem writeStr_cstep (b : Bits) (s : State) : (writeStr b s).cstep = s.cstep := rfl
@[simp] theorem writeStr_freq (b : Bits) (s : State) : (writeStr b s).freq = s.freq := rfl
@[simp] theorem writeStr_total (b : Bits) (s : State) : (writeStr b s).total = s.total := rfl
@[simp] theorem writeStr_nodes (b : Bits) (s : State) : (writeStr b s).nodes = s.nodes := rfl
@[simp] theorem writeStr_ncount (b : Bits) (s : State) : (writeStr b s).ncount = s.ncount := rfl
@[simp] theorem writeStr_root (b : Bits) (s : State) : (writeStr b s).root = s.root := rfl
@[simp] theorem writeStr_codes (b : Bits) (s : State) : (writeStr b s).codes = s.codes := rfl
@[simp] theorem writeStr_pq (b : Bits) (s : State) : (writeStr b s).pq = s.pq := rfl
@[simp] theorem writeStr_cur (b : Bits) (s : State) : (writeStr b s).cur = s.cur := rfl
@[simp] theorem writeStr_marks (b : Bits) (s : State) : (writeStr b s).marks = s.marks := rfl
@[simp] theorem writeStr_rdStack (b : Bits) (s : State) : (writeStr b s).rdStack = s.rdStack := rfl
@[simp] theorem writeStr_inBits (b : Bits) (s : State) : (writeStr b s).inBits = s.inBits := rfl
@[simp] theorem writeStr_inPos (b : Bits) (s : State) : (writeStr b s).inPos = s.inPos := rfl
@[simp] theorem writeStr_outBits (b : Bits) (s : State) : (writeStr b s).outBits = s.outBits ++ b := rfl
@[simp] theorem writeStr_portTrace (b : Bits) (s : State) : (writeStr b s).portTrace = { inPos := s.inPos, outLen := (s.outBits ++ b).length } :: s.portTrace := rfl
@[simp] theorem writeStr_draws (b : Bits) (s : State) : (writeStr b s).draws = s.draws := rfl
@[simp] theorem writeStr_script (b : Bits) (s : State) : (writeStr b s).script = s.script := rfl
@[simp] theorem writeStr_hostLog (b : Bits) (s : State) : (writeStr b s).hostLog = s.hostLog := rfl

/-! ### writeBits -/

@[simp] theorem writeBits_magic (n v : Nat) (s : State) : (writeBits n v s).magic = s.magic := rfl
@[simp] theorem writeBits_wCnt (n v : Nat) (s : State) : (writeBits n v s).wCnt = s.wCnt := rfl
@[simp] theorem writeBits_busy (n v : Nat) (s : State) : (writeBits n v s).busy = s.busy := rfl
@[simp] theorem writeBits_err (n v : Nat) (s : State) : (writeBits n v s).err = s.err := rfl
@[simp] theorem writeBits_freqValid (n v : Nat) (s : State) : (writeBits n v s).freqValid = s.freqValid := rfl
@[simp] theorem writeBits_treeValid (n v : Nat) (s : State) : (writeBits n v s).treeValid = s.treeValid := rfl
@[simp] theorem writeBits_treeSrc (n v : Nat) (s : State) : (writeBits n v s).treeSrc = s.treeSrc := rfl
@[simp] theorem writeBits_codesValid (n v : Nat) (s : State) : (writeBits n v s).codesValid = s.codesValid := rfl
@[simp] theorem writeBits_errCode (n v : Nat) (s : State) : (writeBits n v s).errCode = s.errCode := rfl
@[simp] theorem writeBits_subcause (n v : Nat) (s : State) : (writeBits n v s).subcause = s.subcause := rfl
@[simp] theorem writeBits_failOp (n v : Nat) (s : State) : (writeBits n v s).failOp = s.failOp := rfl
@[simp] theorem writeBits_errData (n v : Nat) (s : State) : (writeBits n v s).errData = s.errData := rfl
@[simp] theorem writeBits_curOp (n v : Nat) (s : State) : (writeBits n v s).curOp = s.curOp := rfl
@[simp] theorem writeBits_cstep (n v : Nat) (s : State) : (writeBits n v s).cstep = s.cstep := rfl
@[simp] theorem writeBits_freq (n v : Nat) (s : State) : (writeBits n v s).freq = s.freq := rfl
@[simp] theorem writeBits_total (n v : Nat) (s : State) : (writeBits n v s).total = s.total := rfl
@[simp] theorem writeBits_nodes (n v : Nat) (s : State) : (writeBits n v s).nodes = s.nodes := rfl
@[simp] theorem writeBits_ncount (n v : Nat) (s : State) : (writeBits n v s).ncount = s.ncount := rfl
@[simp] theorem writeBits_root (n v : Nat) (s : State) : (writeBits n v s).root = s.root := rfl
@[simp] theorem writeBits_codes (n v : Nat) (s : State) : (writeBits n v s).codes = s.codes := rfl
@[simp] theorem writeBits_pq (n v : Nat) (s : State) : (writeBits n v s).pq = s.pq := rfl
@[simp] theorem writeBits_cur (n v : Nat) (s : State) : (writeBits n v s).cur = s.cur := rfl
@[simp] theorem writeBits_marks (n v : Nat) (s : State) : (writeBits n v s).marks = s.marks := rfl
@[simp] theorem writeBits_rdStack (n v : Nat) (s : State) : (writeBits n v s).rdStack = s.rdStack := rfl
@[simp] theorem writeBits_inBits (n v : Nat) (s : State) : (writeBits n v s).inBits = s.inBits := rfl
@[simp] theorem writeBits_inPos (n v : Nat) (s : State) : (writeBits n v s).inPos = s.inPos := rfl
@[simp] theorem writeBits_outBits (n v : Nat) (s : State) : (writeBits n v s).outBits = s.outBits ++ bin n v := rfl
@[simp] theorem writeBits_portTrace (n v : Nat) (s : State) : (writeBits n v s).portTrace = { inPos := s.inPos, outLen := (s.outBits ++ bin n v).length } :: s.portTrace := rfl
@[simp] theorem writeBits_draws (n v : Nat) (s : State) : (writeBits n v s).draws = s.draws := rfl
@[simp] theorem writeBits_script (n v : Nat) (s : State) : (writeBits n v s).script = s.script := rfl
@[simp] theorem writeBits_hostLog (n v : Nat) (s : State) : (writeBits n v s).hostLog = s.hostLog := rfl

/-! ### rewindIn -/

@[simp] theorem rewindIn_magic (s : State) : (rewindIn s).magic = s.magic := rfl
@[simp] theorem rewindIn_wCnt (s : State) : (rewindIn s).wCnt = s.wCnt := rfl
@[simp] theorem rewindIn_busy (s : State) : (rewindIn s).busy = s.busy := rfl
@[simp] theorem rewindIn_err (s : State) : (rewindIn s).err = s.err := rfl
@[simp] theorem rewindIn_freqValid (s : State) : (rewindIn s).freqValid = s.freqValid := rfl
@[simp] theorem rewindIn_treeValid (s : State) : (rewindIn s).treeValid = s.treeValid := rfl
@[simp] theorem rewindIn_treeSrc (s : State) : (rewindIn s).treeSrc = s.treeSrc := rfl
@[simp] theorem rewindIn_codesValid (s : State) : (rewindIn s).codesValid = s.codesValid := rfl
@[simp] theorem rewindIn_errCode (s : State) : (rewindIn s).errCode = s.errCode := rfl
@[simp] theorem rewindIn_subcause (s : State) : (rewindIn s).subcause = s.subcause := rfl
@[simp] theorem rewindIn_failOp (s : State) : (rewindIn s).failOp = s.failOp := rfl
@[simp] theorem rewindIn_errData (s : State) : (rewindIn s).errData = s.errData := rfl
@[simp] theorem rewindIn_curOp (s : State) : (rewindIn s).curOp = s.curOp := rfl
@[simp] theorem rewindIn_cstep (s : State) : (rewindIn s).cstep = s.cstep := rfl
@[simp] theorem rewindIn_freq (s : State) : (rewindIn s).freq = s.freq := rfl
@[simp] theorem rewindIn_total (s : State) : (rewindIn s).total = s.total := rfl
@[simp] theorem rewindIn_nodes (s : State) : (rewindIn s).nodes = s.nodes := rfl
@[simp] theorem rewindIn_ncount (s : State) : (rewindIn s).ncount = s.ncount := rfl
@[simp] theorem rewindIn_root (s : State) : (rewindIn s).root = s.root := rfl
@[simp] theorem rewindIn_codes (s : State) : (rewindIn s).codes = s.codes := rfl
@[simp] theorem rewindIn_pq (s : State) : (rewindIn s).pq = s.pq := rfl
@[simp] theorem rewindIn_cur (s : State) : (rewindIn s).cur = s.cur := rfl
@[simp] theorem rewindIn_marks (s : State) : (rewindIn s).marks = s.marks := rfl
@[simp] theorem rewindIn_rdStack (s : State) : (rewindIn s).rdStack = s.rdStack := rfl
@[simp] theorem rewindIn_inBits (s : State) : (rewindIn s).inBits = s.inBits := rfl
@[simp] theorem rewindIn_inPos (s : State) : (rewindIn s).inPos = 0 := rfl
@[simp] theorem rewindIn_outBits (s : State) : (rewindIn s).outBits = s.outBits := rfl
@[simp] theorem rewindIn_portTrace (s : State) : (rewindIn s).portTrace = { inPos := 0, outLen := s.outBits.length } :: s.portTrace := rfl
@[simp] theorem rewindIn_draws (s : State) : (rewindIn s).draws = s.draws := rfl
@[simp] theorem rewindIn_script (s : State) : (rewindIn s).script = s.script := rfl
@[simp] theorem rewindIn_hostLog (s : State) : (rewindIn s).hostLog = s.hostLog := rfl

/-! ### discardHidden -/

@[simp] theorem discardHidden_magic (s : State) : (s.discardHidden).magic = s.magic := rfl
@[simp] theorem discardHidden_wCnt (s : State) : (s.discardHidden).wCnt = s.wCnt := rfl
@[simp] theorem discardHidden_busy (s : State) : (s.discardHidden).busy = s.busy := rfl
@[simp] theorem discardHidden_err (s : State) : (s.discardHidden).err = s.err := rfl
@[simp] theorem discardHidden_freqValid (s : State) : (s.discardHidden).freqValid = s.freqValid := rfl
@[simp] theorem discardHidden_treeValid (s : State) : (s.discardHidden).treeValid = s.treeValid := rfl
@[simp] theorem discardHidden_treeSrc (s : State) : (s.discardHidden).treeSrc = s.treeSrc := rfl
@[simp] theorem discardHidden_codesValid (s : State) : (s.discardHidden).codesValid = s.codesValid := rfl
@[simp] theorem discardHidden_errCode (s : State) : (s.discardHidden).errCode = s.errCode := rfl
@[simp] theorem discardHidden_subcause (s : State) : (s.discardHidden).subcause = s.subcause := rfl
@[simp] theorem discardHidden_failOp (s : State) : (s.discardHidden).failOp = s.failOp := rfl
@[simp] theorem discardHidden_errData (s : State) : (s.discardHidden).errData = s.errData := rfl
@[simp] theorem discardHidden_curOp (s : State) : (s.discardHidden).curOp = s.curOp := rfl
@[simp] theorem discardHidden_cstep (s : State) : (s.discardHidden).cstep = (Config.freeWord (s.draws + 2)).setWidth 3 := rfl
@[simp] theorem discardHidden_freq (s : State) : (s.discardHidden).freq = s.freq := rfl
@[simp] theorem discardHidden_total (s : State) : (s.discardHidden).total = s.total := rfl
@[simp] theorem discardHidden_nodes (s : State) : (s.discardHidden).nodes = s.nodes := rfl
@[simp] theorem discardHidden_ncount (s : State) : (s.discardHidden).ncount = s.ncount := rfl
@[simp] theorem discardHidden_root (s : State) : (s.discardHidden).root = s.root := rfl
@[simp] theorem discardHidden_codes (s : State) : (s.discardHidden).codes = s.codes := rfl
@[simp] theorem discardHidden_pq (s : State) : (s.discardHidden).pq = [] := rfl
@[simp] theorem discardHidden_cur (s : State) : (s.discardHidden).cur = (Config.freeWord s.draws).setWidth 10 := rfl
@[simp] theorem discardHidden_marks (s : State) : (s.discardHidden).marks = (Config.freeWord (s.draws + 1)).setWidth 10 := rfl
@[simp] theorem discardHidden_rdStack (s : State) : (s.discardHidden).rdStack = [] := rfl
@[simp] theorem discardHidden_inBits (s : State) : (s.discardHidden).inBits = s.inBits := rfl
@[simp] theorem discardHidden_inPos (s : State) : (s.discardHidden).inPos = s.inPos := rfl
@[simp] theorem discardHidden_outBits (s : State) : (s.discardHidden).outBits = s.outBits := rfl
@[simp] theorem discardHidden_portTrace (s : State) : (s.discardHidden).portTrace = s.portTrace := rfl
@[simp] theorem discardHidden_draws (s : State) : (s.discardHidden).draws = s.draws + 3 := rfl
@[simp] theorem discardHidden_script (s : State) : (s.discardHidden).script = s.script := rfl
@[simp] theorem discardHidden_hostLog (s : State) : (s.discardHidden).hostLog = s.hostLog := rfl

/-! ### raiseAs -/

@[simp] theorem raiseAs_magic (op : Byte) (e : ErrorKind) (sub : BitVec 8) (data : Word) (s : State) : (raiseAs op e sub data s).magic = s.magic := rfl
@[simp] theorem raiseAs_wCnt (op : Byte) (e : ErrorKind) (sub : BitVec 8) (data : Word) (s : State) : (raiseAs op e sub data s).wCnt = s.wCnt := rfl
@[simp] theorem raiseAs_busy (op : Byte) (e : ErrorKind) (sub : BitVec 8) (data : Word) (s : State) : (raiseAs op e sub data s).busy = false := rfl
@[simp] theorem raiseAs_err (op : Byte) (e : ErrorKind) (sub : BitVec 8) (data : Word) (s : State) : (raiseAs op e sub data s).err = true := rfl
@[simp] theorem raiseAs_freqValid (op : Byte) (e : ErrorKind) (sub : BitVec 8) (data : Word) (s : State) : (raiseAs op e sub data s).freqValid = false := rfl
@[simp] theorem raiseAs_treeValid (op : Byte) (e : ErrorKind) (sub : BitVec 8) (data : Word) (s : State) : (raiseAs op e sub data s).treeValid = false := rfl
@[simp] theorem raiseAs_treeSrc (op : Byte) (e : ErrorKind) (sub : BitVec 8) (data : Word) (s : State) : (raiseAs op e sub data s).treeSrc = false := rfl
@[simp] theorem raiseAs_codesValid (op : Byte) (e : ErrorKind) (sub : BitVec 8) (data : Word) (s : State) : (raiseAs op e sub data s).codesValid = false := rfl
@[simp] theorem raiseAs_errCode (op : Byte) (e : ErrorKind) (sub : BitVec 8) (data : Word) (s : State) : (raiseAs op e sub data s).errCode = e.code := rfl
@[simp] theorem raiseAs_subcause (op : Byte) (e : ErrorKind) (sub : BitVec 8) (data : Word) (s : State) : (raiseAs op e sub data s).subcause = sub := rfl
@[simp] theorem raiseAs_failOp (op : Byte) (e : ErrorKind) (sub : BitVec 8) (data : Word) (s : State) : (raiseAs op e sub data s).failOp = op := rfl
@[simp] theorem raiseAs_errData (op : Byte) (e : ErrorKind) (sub : BitVec 8) (data : Word) (s : State) : (raiseAs op e sub data s).errData = data := rfl
@[simp] theorem raiseAs_curOp (op : Byte) (e : ErrorKind) (sub : BitVec 8) (data : Word) (s : State) : (raiseAs op e sub data s).curOp = s.curOp := rfl
@[simp] theorem raiseAs_cstep (op : Byte) (e : ErrorKind) (sub : BitVec 8) (data : Word) (s : State) : (raiseAs op e sub data s).cstep = (Config.freeWord (s.draws + 2)).setWidth 3 := rfl
@[simp] theorem raiseAs_freq (op : Byte) (e : ErrorKind) (sub : BitVec 8) (data : Word) (s : State) : (raiseAs op e sub data s).freq = s.freq := rfl
@[simp] theorem raiseAs_total (op : Byte) (e : ErrorKind) (sub : BitVec 8) (data : Word) (s : State) : (raiseAs op e sub data s).total = s.total := rfl
@[simp] theorem raiseAs_nodes (op : Byte) (e : ErrorKind) (sub : BitVec 8) (data : Word) (s : State) : (raiseAs op e sub data s).nodes = s.nodes := rfl
@[simp] theorem raiseAs_ncount (op : Byte) (e : ErrorKind) (sub : BitVec 8) (data : Word) (s : State) : (raiseAs op e sub data s).ncount = s.ncount := rfl
@[simp] theorem raiseAs_root (op : Byte) (e : ErrorKind) (sub : BitVec 8) (data : Word) (s : State) : (raiseAs op e sub data s).root = s.root := rfl
@[simp] theorem raiseAs_codes (op : Byte) (e : ErrorKind) (sub : BitVec 8) (data : Word) (s : State) : (raiseAs op e sub data s).codes = s.codes := rfl
@[simp] theorem raiseAs_pq (op : Byte) (e : ErrorKind) (sub : BitVec 8) (data : Word) (s : State) : (raiseAs op e sub data s).pq = [] := rfl
@[simp] theorem raiseAs_cur (op : Byte) (e : ErrorKind) (sub : BitVec 8) (data : Word) (s : State) : (raiseAs op e sub data s).cur = (Config.freeWord s.draws).setWidth 10 := rfl
@[simp] theorem raiseAs_marks (op : Byte) (e : ErrorKind) (sub : BitVec 8) (data : Word) (s : State) : (raiseAs op e sub data s).marks = (Config.freeWord (s.draws + 1)).setWidth 10 := rfl
@[simp] theorem raiseAs_rdStack (op : Byte) (e : ErrorKind) (sub : BitVec 8) (data : Word) (s : State) : (raiseAs op e sub data s).rdStack = [] := rfl
@[simp] theorem raiseAs_inBits (op : Byte) (e : ErrorKind) (sub : BitVec 8) (data : Word) (s : State) : (raiseAs op e sub data s).inBits = s.inBits := rfl
@[simp] theorem raiseAs_inPos (op : Byte) (e : ErrorKind) (sub : BitVec 8) (data : Word) (s : State) : (raiseAs op e sub data s).inPos = s.inPos := rfl
@[simp] theorem raiseAs_outBits (op : Byte) (e : ErrorKind) (sub : BitVec 8) (data : Word) (s : State) : (raiseAs op e sub data s).outBits = s.outBits := rfl
@[simp] theorem raiseAs_portTrace (op : Byte) (e : ErrorKind) (sub : BitVec 8) (data : Word) (s : State) : (raiseAs op e sub data s).portTrace = s.portTrace := rfl
@[simp] theorem raiseAs_draws (op : Byte) (e : ErrorKind) (sub : BitVec 8) (data : Word) (s : State) : (raiseAs op e sub data s).draws = s.draws + 3 := rfl
@[simp] theorem raiseAs_script (op : Byte) (e : ErrorKind) (sub : BitVec 8) (data : Word) (s : State) : (raiseAs op e sub data s).script = s.script := rfl
@[simp] theorem raiseAs_hostLog (op : Byte) (e : ErrorKind) (sub : BitVec 8) (data : Word) (s : State) : (raiseAs op e sub data s).hostLog = s.hostLog := rfl

/-! ### clearAll -/

@[simp] theorem clearAll_magic (s : State) : (clearAll s).magic = s.magic := rfl
@[simp] theorem clearAll_wCnt (s : State) : (clearAll s).wCnt = s.wCnt := rfl
@[simp] theorem clearAll_busy (s : State) : (clearAll s).busy = s.busy := rfl
@[simp] theorem clearAll_err (s : State) : (clearAll s).err = false := rfl
@[simp] theorem clearAll_freqValid (s : State) : (clearAll s).freqValid = false := rfl
@[simp] theorem clearAll_treeValid (s : State) : (clearAll s).treeValid = false := rfl
@[simp] theorem clearAll_treeSrc (s : State) : (clearAll s).treeSrc = false := rfl
@[simp] theorem clearAll_codesValid (s : State) : (clearAll s).codesValid = false := rfl
@[simp] theorem clearAll_errCode (s : State) : (clearAll s).errCode = 0 := rfl
@[simp] theorem clearAll_subcause (s : State) : (clearAll s).subcause = 0 := rfl
@[simp] theorem clearAll_failOp (s : State) : (clearAll s).failOp = 0 := rfl
@[simp] theorem clearAll_errData (s : State) : (clearAll s).errData = 0 := rfl
@[simp] theorem clearAll_curOp (s : State) : (clearAll s).curOp = s.curOp := rfl
@[simp] theorem clearAll_cstep (s : State) : (clearAll s).cstep = s.cstep := rfl
@[simp] theorem clearAll_freq (s : State) : (clearAll s).freq = s.freq := rfl
@[simp] theorem clearAll_total (s : State) : (clearAll s).total = s.total := rfl
@[simp] theorem clearAll_nodes (s : State) : (clearAll s).nodes = s.nodes := rfl
@[simp] theorem clearAll_ncount (s : State) : (clearAll s).ncount = s.ncount := rfl
@[simp] theorem clearAll_root (s : State) : (clearAll s).root = s.root := rfl
@[simp] theorem clearAll_codes (s : State) : (clearAll s).codes = s.codes := rfl
@[simp] theorem clearAll_pq (s : State) : (clearAll s).pq = s.pq := rfl
@[simp] theorem clearAll_cur (s : State) : (clearAll s).cur = s.cur := rfl
@[simp] theorem clearAll_marks (s : State) : (clearAll s).marks = s.marks := rfl
@[simp] theorem clearAll_rdStack (s : State) : (clearAll s).rdStack = s.rdStack := rfl
@[simp] theorem clearAll_inBits (s : State) : (clearAll s).inBits = s.inBits := rfl
@[simp] theorem clearAll_inPos (s : State) : (clearAll s).inPos = s.inPos := rfl
@[simp] theorem clearAll_outBits (s : State) : (clearAll s).outBits = s.outBits := rfl
@[simp] theorem clearAll_portTrace (s : State) : (clearAll s).portTrace = s.portTrace := rfl
@[simp] theorem clearAll_draws (s : State) : (clearAll s).draws = s.draws := rfl
@[simp] theorem clearAll_script (s : State) : (clearAll s).script = s.script := rfl
@[simp] theorem clearAll_hostLog (s : State) : (clearAll s).hostLog = s.hostLog := rfl

/-! ### countByte -/

@[simp] theorem countByte_magic (v : Nat) (s : State) : (countByte v s).magic = s.magic := rfl
@[simp] theorem countByte_wCnt (v : Nat) (s : State) : (countByte v s).wCnt = s.wCnt := rfl
@[simp] theorem countByte_busy (v : Nat) (s : State) : (countByte v s).busy = s.busy := rfl
@[simp] theorem countByte_err (v : Nat) (s : State) : (countByte v s).err = s.err := rfl
@[simp] theorem countByte_freqValid (v : Nat) (s : State) : (countByte v s).freqValid = s.freqValid := rfl
@[simp] theorem countByte_treeValid (v : Nat) (s : State) : (countByte v s).treeValid = s.treeValid := rfl
@[simp] theorem countByte_treeSrc (v : Nat) (s : State) : (countByte v s).treeSrc = s.treeSrc := rfl
@[simp] theorem countByte_codesValid (v : Nat) (s : State) : (countByte v s).codesValid = s.codesValid := rfl
@[simp] theorem countByte_errCode (v : Nat) (s : State) : (countByte v s).errCode = s.errCode := rfl
@[simp] theorem countByte_subcause (v : Nat) (s : State) : (countByte v s).subcause = s.subcause := rfl
@[simp] theorem countByte_failOp (v : Nat) (s : State) : (countByte v s).failOp = s.failOp := rfl
@[simp] theorem countByte_errData (v : Nat) (s : State) : (countByte v s).errData = s.errData := rfl
@[simp] theorem countByte_curOp (v : Nat) (s : State) : (countByte v s).curOp = s.curOp := rfl
@[simp] theorem countByte_cstep (v : Nat) (s : State) : (countByte v s).cstep = s.cstep := rfl
@[simp] theorem countByte_freq (v : Nat) (s : State) : (countByte v s).freq = s.freq.set (byteIndex v).val (s.freqAt (byteIndex v) + 1) (byteIndex v).isLt := rfl
@[simp] theorem countByte_total (v : Nat) (s : State) : (countByte v s).total = s.total + 1 := rfl
@[simp] theorem countByte_nodes (v : Nat) (s : State) : (countByte v s).nodes = s.nodes := rfl
@[simp] theorem countByte_ncount (v : Nat) (s : State) : (countByte v s).ncount = s.ncount := rfl
@[simp] theorem countByte_root (v : Nat) (s : State) : (countByte v s).root = s.root := rfl
@[simp] theorem countByte_codes (v : Nat) (s : State) : (countByte v s).codes = s.codes := rfl
@[simp] theorem countByte_pq (v : Nat) (s : State) : (countByte v s).pq = s.pq := rfl
@[simp] theorem countByte_cur (v : Nat) (s : State) : (countByte v s).cur = s.cur := rfl
@[simp] theorem countByte_marks (v : Nat) (s : State) : (countByte v s).marks = s.marks := rfl
@[simp] theorem countByte_rdStack (v : Nat) (s : State) : (countByte v s).rdStack = s.rdStack := rfl
@[simp] theorem countByte_inBits (v : Nat) (s : State) : (countByte v s).inBits = s.inBits := rfl
@[simp] theorem countByte_inPos (v : Nat) (s : State) : (countByte v s).inPos = s.inPos := rfl
@[simp] theorem countByte_outBits (v : Nat) (s : State) : (countByte v s).outBits = s.outBits := rfl
@[simp] theorem countByte_portTrace (v : Nat) (s : State) : (countByte v s).portTrace = s.portTrace := rfl
@[simp] theorem countByte_draws (v : Nat) (s : State) : (countByte v s).draws = s.draws := rfl
@[simp] theorem countByte_script (v : Nat) (s : State) : (countByte v s).script = s.script := rfl
@[simp] theorem countByte_hostLog (v : Nat) (s : State) : (countByte v s).hostLog = s.hostLog := rfl

/-! ### countStart -/

@[simp] theorem countStart_magic (s : State) : (countStart s).magic = s.magic := rfl
@[simp] theorem countStart_wCnt (s : State) : (countStart s).wCnt = s.wCnt := rfl
@[simp] theorem countStart_busy (s : State) : (countStart s).busy = s.busy := rfl
@[simp] theorem countStart_err (s : State) : (countStart s).err = s.err := rfl
@[simp] theorem countStart_freqValid (s : State) : (countStart s).freqValid = false := rfl
@[simp] theorem countStart_treeValid (s : State) : (countStart s).treeValid = false := rfl
@[simp] theorem countStart_treeSrc (s : State) : (countStart s).treeSrc = false := rfl
@[simp] theorem countStart_codesValid (s : State) : (countStart s).codesValid = false := rfl
@[simp] theorem countStart_errCode (s : State) : (countStart s).errCode = s.errCode := rfl
@[simp] theorem countStart_subcause (s : State) : (countStart s).subcause = s.subcause := rfl
@[simp] theorem countStart_failOp (s : State) : (countStart s).failOp = s.failOp := rfl
@[simp] theorem countStart_errData (s : State) : (countStart s).errData = s.errData := rfl
@[simp] theorem countStart_curOp (s : State) : (countStart s).curOp = s.curOp := rfl
@[simp] theorem countStart_cstep (s : State) : (countStart s).cstep = s.cstep := rfl
@[simp] theorem countStart_freq (s : State) : (countStart s).freq = (Vector.replicate 257 (0 : Word)).set 256 s.freq[256] := rfl
@[simp] theorem countStart_total (s : State) : (countStart s).total = 0 := rfl
@[simp] theorem countStart_nodes (s : State) : (countStart s).nodes = s.nodes := rfl
@[simp] theorem countStart_ncount (s : State) : (countStart s).ncount = s.ncount := rfl
@[simp] theorem countStart_root (s : State) : (countStart s).root = s.root := rfl
@[simp] theorem countStart_codes (s : State) : (countStart s).codes = s.codes := rfl
@[simp] theorem countStart_pq (s : State) : (countStart s).pq = s.pq := rfl
@[simp] theorem countStart_cur (s : State) : (countStart s).cur = s.cur := rfl
@[simp] theorem countStart_marks (s : State) : (countStart s).marks = s.marks := rfl
@[simp] theorem countStart_rdStack (s : State) : (countStart s).rdStack = s.rdStack := rfl
@[simp] theorem countStart_inBits (s : State) : (countStart s).inBits = s.inBits := rfl
@[simp] theorem countStart_inPos (s : State) : (countStart s).inPos = s.inPos := rfl
@[simp] theorem countStart_outBits (s : State) : (countStart s).outBits = s.outBits := rfl
@[simp] theorem countStart_portTrace (s : State) : (countStart s).portTrace = s.portTrace := rfl
@[simp] theorem countStart_draws (s : State) : (countStart s).draws = s.draws := rfl
@[simp] theorem countStart_script (s : State) : (countStart s).script = s.script := rfl
@[simp] theorem countStart_hostLog (s : State) : (countStart s).hostLog = s.hostLog := rfl

/-! ### countEnd -/

@[simp] theorem countEnd_magic (s : State) : (countEnd s).magic = s.magic := rfl
@[simp] theorem countEnd_wCnt (s : State) : (countEnd s).wCnt = s.wCnt := rfl
@[simp] theorem countEnd_busy (s : State) : (countEnd s).busy = s.busy := rfl
@[simp] theorem countEnd_err (s : State) : (countEnd s).err = s.err := rfl
@[simp] theorem countEnd_freqValid (s : State) : (countEnd s).freqValid = true := rfl
@[simp] theorem countEnd_treeValid (s : State) : (countEnd s).treeValid = s.treeValid := rfl
@[simp] theorem countEnd_treeSrc (s : State) : (countEnd s).treeSrc = s.treeSrc := rfl
@[simp] theorem countEnd_codesValid (s : State) : (countEnd s).codesValid = s.codesValid := rfl
@[simp] theorem countEnd_errCode (s : State) : (countEnd s).errCode = s.errCode := rfl
@[simp] theorem countEnd_subcause (s : State) : (countEnd s).subcause = s.subcause := rfl
@[simp] theorem countEnd_failOp (s : State) : (countEnd s).failOp = s.failOp := rfl
@[simp] theorem countEnd_errData (s : State) : (countEnd s).errData = s.errData := rfl
@[simp] theorem countEnd_curOp (s : State) : (countEnd s).curOp = s.curOp := rfl
@[simp] theorem countEnd_cstep (s : State) : (countEnd s).cstep = s.cstep := rfl
@[simp] theorem countEnd_freq (s : State) : (countEnd s).freq = s.freq.set 256 1 := rfl
@[simp] theorem countEnd_total (s : State) : (countEnd s).total = s.total := rfl
@[simp] theorem countEnd_nodes (s : State) : (countEnd s).nodes = s.nodes := rfl
@[simp] theorem countEnd_ncount (s : State) : (countEnd s).ncount = s.ncount := rfl
@[simp] theorem countEnd_root (s : State) : (countEnd s).root = s.root := rfl
@[simp] theorem countEnd_codes (s : State) : (countEnd s).codes = s.codes := rfl
@[simp] theorem countEnd_pq (s : State) : (countEnd s).pq = s.pq := rfl
@[simp] theorem countEnd_cur (s : State) : (countEnd s).cur = s.cur := rfl
@[simp] theorem countEnd_marks (s : State) : (countEnd s).marks = s.marks := rfl
@[simp] theorem countEnd_rdStack (s : State) : (countEnd s).rdStack = s.rdStack := rfl
@[simp] theorem countEnd_inBits (s : State) : (countEnd s).inBits = s.inBits := rfl
@[simp] theorem countEnd_inPos (s : State) : (countEnd s).inPos = s.inPos := rfl
@[simp] theorem countEnd_outBits (s : State) : (countEnd s).outBits = s.outBits := rfl
@[simp] theorem countEnd_portTrace (s : State) : (countEnd s).portTrace = s.portTrace := rfl
@[simp] theorem countEnd_draws (s : State) : (countEnd s).draws = s.draws := rfl
@[simp] theorem countEnd_script (s : State) : (countEnd s).script = s.script := rfl
@[simp] theorem countEnd_hostLog (s : State) : (countEnd s).hostLog = s.hostLog := rfl

/-! ### countMark -/

@[simp] theorem countMark_magic (s : State) : (countMark s).magic = s.magic := rfl
@[simp] theorem countMark_wCnt (s : State) : (countMark s).wCnt = s.wCnt := rfl
@[simp] theorem countMark_busy (s : State) : (countMark s).busy = s.busy := rfl
@[simp] theorem countMark_err (s : State) : (countMark s).err = s.err := rfl
@[simp] theorem countMark_freqValid (s : State) : (countMark s).freqValid = s.freqValid := rfl
@[simp] theorem countMark_treeValid (s : State) : (countMark s).treeValid = s.treeValid := rfl
@[simp] theorem countMark_treeSrc (s : State) : (countMark s).treeSrc = s.treeSrc := rfl
@[simp] theorem countMark_codesValid (s : State) : (countMark s).codesValid = s.codesValid := rfl
@[simp] theorem countMark_errCode (s : State) : (countMark s).errCode = s.errCode := rfl
@[simp] theorem countMark_subcause (s : State) : (countMark s).subcause = s.subcause := rfl
@[simp] theorem countMark_failOp (s : State) : (countMark s).failOp = s.failOp := rfl
@[simp] theorem countMark_errData (s : State) : (countMark s).errData = s.errData := rfl
@[simp] theorem countMark_curOp (s : State) : (countMark s).curOp = s.curOp := rfl
@[simp] theorem countMark_cstep (s : State) : (countMark s).cstep = s.cstep := rfl
@[simp] theorem countMark_freq (s : State) : (countMark s).freq = s.freq := rfl
@[simp] theorem countMark_total (s : State) : (countMark s).total = s.total := rfl
@[simp] theorem countMark_nodes (s : State) : (countMark s).nodes = s.nodes := rfl
@[simp] theorem countMark_ncount (s : State) : (countMark s).ncount = s.ncount := rfl
@[simp] theorem countMark_root (s : State) : (countMark s).root = s.root := rfl
@[simp] theorem countMark_codes (s : State) : (countMark s).codes = s.codes := rfl
@[simp] theorem countMark_pq (s : State) : (countMark s).pq = s.pq := rfl
@[simp] theorem countMark_cur (s : State) : (countMark s).cur = s.cur := rfl
@[simp] theorem countMark_marks (s : State) : (countMark s).marks = s.marks + 1 := rfl
@[simp] theorem countMark_rdStack (s : State) : (countMark s).rdStack = s.rdStack := rfl
@[simp] theorem countMark_inBits (s : State) : (countMark s).inBits = s.inBits := rfl
@[simp] theorem countMark_inPos (s : State) : (countMark s).inPos = s.inPos := rfl
@[simp] theorem countMark_outBits (s : State) : (countMark s).outBits = s.outBits := rfl
@[simp] theorem countMark_portTrace (s : State) : (countMark s).portTrace = s.portTrace := rfl
@[simp] theorem countMark_draws (s : State) : (countMark s).draws = s.draws := rfl
@[simp] theorem countMark_script (s : State) : (countMark s).script = s.script := rfl
@[simp] theorem countMark_hostLog (s : State) : (countMark s).hostLog = s.hostLog := rfl

/-! ### resetBlock -/

@[simp] theorem resetBlock_magic (s : State) : (resetBlock s).magic = s.magic := rfl
@[simp] theorem resetBlock_wCnt (s : State) : (resetBlock s).wCnt = s.wCnt := rfl
@[simp] theorem resetBlock_busy (s : State) : (resetBlock s).busy = false := rfl
@[simp] theorem resetBlock_err (s : State) : (resetBlock s).err = false := rfl
@[simp] theorem resetBlock_freqValid (s : State) : (resetBlock s).freqValid = false := rfl
@[simp] theorem resetBlock_treeValid (s : State) : (resetBlock s).treeValid = false := rfl
@[simp] theorem resetBlock_treeSrc (s : State) : (resetBlock s).treeSrc = false := rfl
@[simp] theorem resetBlock_codesValid (s : State) : (resetBlock s).codesValid = false := rfl
@[simp] theorem resetBlock_errCode (s : State) : (resetBlock s).errCode = 0 := rfl
@[simp] theorem resetBlock_subcause (s : State) : (resetBlock s).subcause = 0 := rfl
@[simp] theorem resetBlock_failOp (s : State) : (resetBlock s).failOp = 0 := rfl
@[simp] theorem resetBlock_errData (s : State) : (resetBlock s).errData = 0 := rfl
@[simp] theorem resetBlock_curOp (s : State) : (resetBlock s).curOp = 0 := rfl
@[simp] theorem resetBlock_cstep (s : State) : (resetBlock s).cstep = 0 := rfl
@[simp] theorem resetBlock_freq (s : State) : (resetBlock s).freq = Vector.replicate 257 0 := rfl
@[simp] theorem resetBlock_total (s : State) : (resetBlock s).total = 0 := rfl
@[simp] theorem resetBlock_nodes (s : State) : (resetBlock s).nodes = Vector.replicate 513 Node.unwritten := rfl
@[simp] theorem resetBlock_ncount (s : State) : (resetBlock s).ncount = 0 := rfl
@[simp] theorem resetBlock_root (s : State) : (resetBlock s).root = 0 := rfl
@[simp] theorem resetBlock_codes (s : State) : (resetBlock s).codes = Vector.replicate 257 Code.absent := rfl
@[simp] theorem resetBlock_pq (s : State) : (resetBlock s).pq = [] := rfl
@[simp] theorem resetBlock_cur (s : State) : (resetBlock s).cur = 0 := rfl
@[simp] theorem resetBlock_marks (s : State) : (resetBlock s).marks = 0 := rfl
@[simp] theorem resetBlock_rdStack (s : State) : (resetBlock s).rdStack = [] := rfl
@[simp] theorem resetBlock_inBits (s : State) : (resetBlock s).inBits = s.inBits := rfl
@[simp] theorem resetBlock_inPos (s : State) : (resetBlock s).inPos = s.inPos := rfl
@[simp] theorem resetBlock_outBits (s : State) : (resetBlock s).outBits = s.outBits := rfl
@[simp] theorem resetBlock_portTrace (s : State) : (resetBlock s).portTrace = s.portTrace := rfl
@[simp] theorem resetBlock_draws (s : State) : (resetBlock s).draws = s.draws := rfl
@[simp] theorem resetBlock_script (s : State) : (resetBlock s).script = s.script := rfl
@[simp] theorem resetBlock_hostLog (s : State) : (resetBlock s).hostLog = s.hostLog := rfl

/-! ### attachIn -/

@[simp] theorem attachIn_magic (b : Bits) (s : State) : (attachIn b s).magic = s.magic := rfl
@[simp] theorem attachIn_wCnt (b : Bits) (s : State) : (attachIn b s).wCnt = s.wCnt := rfl
@[simp] theorem attachIn_busy (b : Bits) (s : State) : (attachIn b s).busy = s.busy := rfl
@[simp] theorem attachIn_err (b : Bits) (s : State) : (attachIn b s).err = s.err := rfl
@[simp] theorem attachIn_freqValid (b : Bits) (s : State) : (attachIn b s).freqValid = s.freqValid := rfl
@[simp] theorem attachIn_treeValid (b : Bits) (s : State) : (attachIn b s).treeValid = s.treeValid := rfl
@[simp] theorem attachIn_treeSrc (b : Bits) (s : State) : (attachIn b s).treeSrc = s.treeSrc := rfl
@[simp] theorem attachIn_codesValid (b : Bits) (s : State) : (attachIn b s).codesValid = s.codesValid := rfl
@[simp] theorem attachIn_errCode (b : Bits) (s : State) : (attachIn b s).errCode = s.errCode := rfl
@[simp] theorem attachIn_subcause (b : Bits) (s : State) : (attachIn b s).subcause = s.subcause := rfl
@[simp] theorem attachIn_failOp (b : Bits) (s : State) : (attachIn b s).failOp = s.failOp := rfl
@[simp] theorem attachIn_errData (b : Bits) (s : State) : (attachIn b s).errData = s.errData := rfl
@[simp] theorem attachIn_curOp (b : Bits) (s : State) : (attachIn b s).curOp = s.curOp := rfl
@[simp] theorem attachIn_cstep (b : Bits) (s : State) : (attachIn b s).cstep = s.cstep := rfl
@[simp] theorem attachIn_freq (b : Bits) (s : State) : (attachIn b s).freq = s.freq := rfl
@[simp] theorem attachIn_total (b : Bits) (s : State) : (attachIn b s).total = s.total := rfl
@[simp] theorem attachIn_nodes (b : Bits) (s : State) : (attachIn b s).nodes = s.nodes := rfl
@[simp] theorem attachIn_ncount (b : Bits) (s : State) : (attachIn b s).ncount = s.ncount := rfl
@[simp] theorem attachIn_root (b : Bits) (s : State) : (attachIn b s).root = s.root := rfl
@[simp] theorem attachIn_codes (b : Bits) (s : State) : (attachIn b s).codes = s.codes := rfl
@[simp] theorem attachIn_pq (b : Bits) (s : State) : (attachIn b s).pq = s.pq := rfl
@[simp] theorem attachIn_cur (b : Bits) (s : State) : (attachIn b s).cur = s.cur := rfl
@[simp] theorem attachIn_marks (b : Bits) (s : State) : (attachIn b s).marks = s.marks := rfl
@[simp] theorem attachIn_rdStack (b : Bits) (s : State) : (attachIn b s).rdStack = s.rdStack := rfl
@[simp] theorem attachIn_inBits (b : Bits) (s : State) : (attachIn b s).inBits = b := rfl
@[simp] theorem attachIn_inPos (b : Bits) (s : State) : (attachIn b s).inPos = 0 := rfl
@[simp] theorem attachIn_outBits (b : Bits) (s : State) : (attachIn b s).outBits = s.outBits := rfl
@[simp] theorem attachIn_portTrace (b : Bits) (s : State) : (attachIn b s).portTrace = s.portTrace := rfl
@[simp] theorem attachIn_draws (b : Bits) (s : State) : (attachIn b s).draws = s.draws := rfl
@[simp] theorem attachIn_script (b : Bits) (s : State) : (attachIn b s).script = s.script := rfl
@[simp] theorem attachIn_hostLog (b : Bits) (s : State) : (attachIn b s).hostLog = s.hostLog := rfl

/-! ### takeOut -/

@[simp] theorem takeOut_magic (s : State) : (takeOut s).magic = s.magic := rfl
@[simp] theorem takeOut_wCnt (s : State) : (takeOut s).wCnt = s.wCnt := rfl
@[simp] theorem takeOut_busy (s : State) : (takeOut s).busy = s.busy := rfl
@[simp] theorem takeOut_err (s : State) : (takeOut s).err = s.err := rfl
@[simp] theorem takeOut_freqValid (s : State) : (takeOut s).freqValid = s.freqValid := rfl
@[simp] theorem takeOut_treeValid (s : State) : (takeOut s).treeValid = s.treeValid := rfl
@[simp] theorem takeOut_treeSrc (s : State) : (takeOut s).treeSrc = s.treeSrc := rfl
@[simp] theorem takeOut_codesValid (s : State) : (takeOut s).codesValid = s.codesValid := rfl
@[simp] theorem takeOut_errCode (s : State) : (takeOut s).errCode = s.errCode := rfl
@[simp] theorem takeOut_subcause (s : State) : (takeOut s).subcause = s.subcause := rfl
@[simp] theorem takeOut_failOp (s : State) : (takeOut s).failOp = s.failOp := rfl
@[simp] theorem takeOut_errData (s : State) : (takeOut s).errData = s.errData := rfl
@[simp] theorem takeOut_curOp (s : State) : (takeOut s).curOp = s.curOp := rfl
@[simp] theorem takeOut_cstep (s : State) : (takeOut s).cstep = s.cstep := rfl
@[simp] theorem takeOut_freq (s : State) : (takeOut s).freq = s.freq := rfl
@[simp] theorem takeOut_total (s : State) : (takeOut s).total = s.total := rfl
@[simp] theorem takeOut_nodes (s : State) : (takeOut s).nodes = s.nodes := rfl
@[simp] theorem takeOut_ncount (s : State) : (takeOut s).ncount = s.ncount := rfl
@[simp] theorem takeOut_root (s : State) : (takeOut s).root = s.root := rfl
@[simp] theorem takeOut_codes (s : State) : (takeOut s).codes = s.codes := rfl
@[simp] theorem takeOut_pq (s : State) : (takeOut s).pq = s.pq := rfl
@[simp] theorem takeOut_cur (s : State) : (takeOut s).cur = s.cur := rfl
@[simp] theorem takeOut_marks (s : State) : (takeOut s).marks = s.marks := rfl
@[simp] theorem takeOut_rdStack (s : State) : (takeOut s).rdStack = s.rdStack := rfl
@[simp] theorem takeOut_inBits (s : State) : (takeOut s).inBits = s.inBits := rfl
@[simp] theorem takeOut_inPos (s : State) : (takeOut s).inPos = s.inPos := rfl
@[simp] theorem takeOut_outBits (s : State) : (takeOut s).outBits = [] := rfl
@[simp] theorem takeOut_portTrace (s : State) : (takeOut s).portTrace = s.portTrace := rfl
@[simp] theorem takeOut_draws (s : State) : (takeOut s).draws = s.draws := rfl
@[simp] theorem takeOut_script (s : State) : (takeOut s).script = s.script := rfl
@[simp] theorem takeOut_hostLog (s : State) : (takeOut s).hostLog = s.hostLog ++ [.tookOut (wholeBytes s.outBits)] := rfl

end Sys2Proof.Machine
end

