-- ==== Sys2Proof/Laws/Ops.lean ====
section
/-! SUPPORT. What each shared operation can do, said once. -/

namespace Sys2Proof.Machine

/-! ### Reading (20_memory.md R62) -/

theorem length_unread (s : State) : s.unread.length = s.inBits.length - s.inPos := by simp [State.unread]

@[simp] theorem unread_seek (s : State) (p : Nat) : (s.seek p).unread = s.inBits.drop p := rfl

theorem unread_seek_add (s : State) (n : Nat) : (s.seek (s.inPos + n)).unread = s.unread.drop n := by
  simp [State.unread, List.drop_drop]

@[simp] theorem unread_seek_end (s : State) : (s.seek s.inBits.length).unread = [] := by simp

theorem readBits_none {n : Nat} {s : State} (h : s.unread.length < n) :
    readBits n s = (none, s.seek s.inBits.length) := by
  rw [length_unread] at h
  rw [readBits, if_pos (by omega)]

theorem readBits_some {n : Nat} {s : State} (h : n ≤ s.unread.length) (hn : 0 < n) :
    readBits n s = (some (val (s.unread.take n)), s.seek (s.inPos + n)) := by
  rw [length_unread] at h
  rw [readBits, if_neg (by omega)]

/-- What a read can answer: too few bits are consumed and answer EOS, else the next n bits are a number. -/
theorem readBits_cases {n : Nat} (hn : 0 < n) (s : State) :
    (s.unread.length < n ∧ readBits n s = (none, s.seek s.inBits.length)) ∨
      (n ≤ s.unread.length ∧ readBits n s = (some (val (s.unread.take n)), s.seek (s.inPos + n))) := by
  rcases Nat.lt_or_ge s.unread.length n with h | h
  · exact .inl ⟨h, readBits_none h⟩
  · exact .inr ⟨h, readBits_some h hn⟩

/-- Reading the bits that bin wrote. -/
theorem readBits_bin {n v : Nat} {s : State} {rest : Bits} (hu : s.unread = bin n v ++ rest) (hn : 0 < n)
    (hv : v < 2 ^ n) : readBits n s = (some v, s.seek (s.inPos + n)) ∧ (s.seek (s.inPos + n)).unread = rest := by
  have e := unread_seek_add s n
  rw [hu] at e
  constructor
  · rw [readBits_some (by simp [hu]) hn, hu]
    simp [val_bin_of_lt hv]
  · rw [e]
    simp

theorem inPos_add_of_unread {s : State} {a b : Bits} (hu : s.unread = a ++ b) (ha : a ≠ []) :
    s.inPos + (a.length + b.length) = s.inBits.length := by
  have h := length_unread s
  rw [hu, List.length_append] at h
  have := List.length_pos_iff.mpr ha
  omega

/-! ### Writing and closing (20_memory.md R63, R65) -/

/-- padOut appends the fewest zero bits that make the length whole bytes, if k are enough. -/
theorem padOut_spec (k : Nat) (s : State) (h : (8 - s.outBits.length % 8) % 8 ≤ k) :
    padOut k s = { s with
      outBits := s.outBits ++ List.replicate ((8 - s.outBits.length % 8) % 8) false
      portTrace := (padOut k s).portTrace } := by
  induction k generalizing s with
  | zero =>
    have e : (8 - s.outBits.length % 8) % 8 = 0 := by omega
    simp [padOut, e]
  | succ k ih =>
    rw [padOut]
    by_cases h0 : s.outBits.length % 8 = 0
    · simp [h0]
    · rw [if_neg h0]
      have hl : (writeBits 1 0 s).outBits.length = s.outBits.length + 1 := by simp
      have := ih (writeBits 1 0 s) (by rw [hl]; omega)
      rw [this]
      have e : (8 - s.outBits.length % 8) % 8 = (8 - (s.outBits.length + 1) % 8) % 8 + 1 := by omega
      rw [hl, e, List.replicate_succ]
      simp [writeBits, writeStr, State.mark, bin]

/-- CLOSE pads with fewer than 8 zero bits to whole bytes, and touches nothing else. -/
theorem closeOut_spec (s : State) :
    closeOut s = { s with
      outBits := s.outBits ++ List.replicate ((8 - s.outBits.length % 8) % 8) false
      portTrace := (closeOut s).portTrace } := padOut_spec 7 s (by omega)

theorem closeOut_aligned (s : State) : (closeOut s).outBits.length % 8 = 0 := by
  rw [closeOut_spec]
  simp
  omega

/-! ### Outcomes in sequence -/

@[simp] theorem andThen_next (t : State) (f : State → Outcome) : andThen (.next t) f = f t := rfl

@[simp] theorem andThen_fault (e : Fault) (f : State → Outcome) : andThen (.fault e) f = .fault e := rfl

@[simp] theorem andThen_refused (r : Refusal) (f : State → Outcome) : andThen (.refused r) f = .refused r := rfl

/-- A sequence answers a next state only through one. -/
theorem andThen_eq_next {o : Outcome} {f : State → Outcome} {t : State} (h : andThen o f = .next t) :
    ∃ m, o = .next m ∧ f m = .next t := by
  cases o with
  | next m => exact ⟨m, rfl, h⟩
  | fault _ => cases h
  | refused _ => cases h

theorem unlessRaised_next {t : State} (f : State → Outcome) (h : t.err = false) : unlessRaised (.next t) f = f t := by
  simp [unlessRaised, h]

theorem unlessRaised_raised {t : State} (f : State → Outcome) (h : t.err = true) :
    unlessRaised (.next t) f = .next t := by
  simp [unlessRaised, h]

/-- A sequence that stops at an error answers a next state in two ways. -/
theorem unlessRaised_eq_next {o : Outcome} {f : State → Outcome} {t : State} (h : unlessRaised o f = .next t) :
    ∃ m, o = .next m ∧ ((m.err = true ∧ t = m) ∨ (m.err = false ∧ f m = .next t)) := by
  obtain ⟨m, rfl, e⟩ := andThen_eq_next h
  refine ⟨m, rfl, ?_⟩
  cases hm : m.err
  · simp [hm] at e; exact .inr ⟨rfl, e⟩
  · simp [hm] at e; exact .inl ⟨rfl, e.symm⟩

@[simp] theorem finish_next (t : State) : finish (.next t) = .next { t with busy := false } := rfl

theorem finish_eq_next {o : Outcome} {t : State} (h : finish o = .next t) :
    ∃ m, o = .next m ∧ t = { m with busy := false } := by
  obtain ⟨m, rfl, e⟩ := andThen_eq_next h
  cases e
  exact ⟨m, rfl, rfl⟩

/-! ### The node store (10_state.md R29) -/

theorem newNode_some {n : Node} {s : State} (h : s.ncount.toNat < 513) :
    newNode n s = some (s.ncount, { s with nodes := s.nodes.set s.ncount.toNat n h, ncount := s.ncount + 1 }) := by
  rw [newNode, dif_pos h]

/-- What new_node can do: nothing else than fill the next entry. -/
theorem newNode_eq_some {n : Node} {s t : State} {i : NodeIx} (h : newNode n s = some (i, t)) :
    ∃ hlt : s.ncount.toNat < 513, i = s.ncount ∧
      t = { s with nodes := s.nodes.set s.ncount.toNat n hlt, ncount := s.ncount + 1 } := by
  rw [newNode] at h
  split at h
  · next hlt => simp at h; exact ⟨hlt, h.1.symm, h.2.symm⟩
  · cases h

theorem toNat_ncount_succ {c : NodeIx} (h : c.toNat < 513) : (c + 1).toNat = c.toNat + 1 := by
  rw [BitVec.toNat_add]
  simp
  omega

/-! ### Running a command (30_encoding.md R82) -/

theorem runCommand_busy {p : Primitive} {s : State} (h : s.busy = true) : runCommand p s = .refused .hostBusy := by
  simp [runCommand, h]

/-- While ERR = 1 a command is ignored (60_exceptions.md R209). -/
theorem runCommand_ignored {p : Primitive} {s : State} (hb : s.busy = false) (he : s.err = true) :
    runCommand p s = .next s := by
  simp [runCommand, hb, he]

theorem runCommand_ready {p : Primitive} {s : State} (h : s.Ready) :
    runCommand p s = finish (p.run { s with busy := true, curOp := p.op }) := by
  simp [runCommand, h.1, h.2]

theorem run_met {p : Primitive} {s : State} (h : firstUnmet p.needs s = none) : p.run s = p.body s := by
  simp [Primitive.run, h]

theorem run_unmet {p : Primitive} {s : State} {q : Precondition} (h : firstUnmet p.needs s = some q) :
    p.run s = .next (raise .sequenceError q.subcause (s.curOp.setWidth 32) s) := by
  simp [Primitive.run, h]

/-- What a command can do with the host's right to write it: run from BUSY = 1 to BUSY = 0. -/
theorem runCommand_eq_next {p : Primitive} {s t : State} (h : runCommand p s = .next t) :
    s.busy = false ∧ ((s.err = true ∧ t = s) ∨
      (s.err = false ∧ ∃ m, p.run { s with busy := true, curOp := p.op } = .next m ∧ t = { m with busy := false })) := by
  rw [runCommand] at h
  split at h
  · cases h
  · next hb =>
    split at h
    · next he => cases h; exact ⟨by simpa using hb, .inl ⟨he, rfl⟩⟩
    · next he =>
      obtain ⟨m, hm, e⟩ := finish_eq_next h
      exact ⟨by simpa using hb, .inr ⟨by simpa using he, m, hm, e⟩⟩

theorem runSteps_nil (k : Nat) (s : State) : runSteps k [] s = .next s := rfl

theorem runSteps_cons (k : Nat) (p : Primitive) (ps : List Primitive) (s : State) :
    runSteps k (p :: ps) s =
      unlessRaised (p.run { s with cstep := BitVec.ofNat 3 k, curOp := p.op }) (runSteps (k + 1) ps) := rfl

end Sys2Proof.Machine
end

