-- ==== Sys2Proof/Laws/Frames.lean ====
section
/-! SUPPORT. What each command can do, said once: it goes from its start to its end through the shared operations it is
made of, so any reflexive and transitive relation that holds across those operations holds across the command. Frames and
invariants are read off from these. -/

namespace Sys2Proof.Machine

/-- A relation that can be followed along a run. -/
structure Along (R : State → State → Prop) : Prop where
  refl : ∀ s, R s s
  trans : ∀ {a b c}, R a b → R b c → R a c

/-- The relation holds across reading. -/
def AcrossSeek (R : State → State → Prop) : Prop := ∀ s p, p ≤ s.inBits.length → R s (s.seek p)

/-- The relation holds across writing. -/
def AcrossWrite (R : State → State → Prop) : Prop := ∀ b s, R s (writeStr b s)

/-- The relation holds across an error. -/
def AcrossRaise (R : State → State → Prop) : Prop := ∀ op e sub data s, R s (raiseAs op e sub data s)

/-- The relation holds across new_node. -/
def AcrossNewNode (R : State → State → Prop) : Prop := ∀ n s i t, newNode n s = some (i, t) → R s t

variable {R : State → State → Prop}

theorem readBits_along (hs : AcrossSeek R) {n : Nat} (hn : 0 < n) {s t : State} {o : Option Nat}
    (h : readBits n s = (o, t)) : R s t := by
  rcases readBits_cases hn s with ⟨_, e⟩ | ⟨hl, e⟩
  · rw [e] at h; cases h; exact hs _ _ le_rfl
  · rw [e] at h
    cases h
    rw [length_unread] at hl
    exact hs _ _ (by omega)

theorem padOut_along (hR : Along R) (hw : AcrossWrite R) (k : Nat) (s : State) : R s (padOut k s) := by
  induction k generalizing s with
  | zero => exact hR.refl s
  | succ k ih =>
    rw [padOut]
    split
    · exact hR.refl s
    · exact hR.trans (hw _ s) (ih _)

/-! ### COUNT, REWIND -/

theorem countLoop_along (hR : Along R) (hs : AcrossSeek R) (hr : AcrossRaise R) (hb : ∀ v s, R s (countByte v s))
    (k : Nat) {s t : State} (h : countLoop k s = .next t) : R s t := by
  induction k generalizing s with
  | zero => cases h
  | succ k ih =>
    rw [countLoop] at h
    split at h
    · next u e => cases h; exact readBits_along hs (by omega) e
    · next v u e =>
      have hu := readBits_along hs (by omega) e
      split at h
      · cases h; exact hR.trans hu (hr _ _ _ _ _)
      · exact hR.trans hu (hR.trans (hb _ _) (ih h))

theorem countPrim_along (hR : Along R) (hs : AcrossSeek R) (hr : AcrossRaise R) (hstart : ∀ s, R s (countStart s))
    (hb : ∀ v s, R s (countByte v s)) (hend : ∀ s, R s (countEnd s)) {s t : State}
    (h : countPrim.body s = .next t) : R s t := by
  obtain ⟨m, hm, ⟨_, rfl⟩ | ⟨_, e⟩⟩ := unlessRaised_eq_next h
  · exact hR.trans (hstart s) (countLoop_along hR hs hr hb _ hm)
  · cases e
    exact hR.trans (hstart s) (hR.trans (countLoop_along hR hs hr hb _ hm) (hend m))

theorem rewindPrim_along (hs : AcrossSeek R) {s t : State} (h : rewindPrim.body s = .next t) : R s t := by
  cases h
  exact hs s 0 (Nat.zero_le _)

/-! ### BUILD -/

theorem enqueueNode_along (hR : Along R) (hn : AcrossNewNode R) (hpq : ∀ s l, R s { s with pq := l }) {n : Node}
    {s t : State} (h : enqueueNode n s = .next t) : R s t := by
  rw [enqueueNode] at h
  split at h
  · next i u e => cases h; exact hR.trans (hn _ _ _ _ e) (hpq _ _)
  · cases h

theorem popMin_eq_some {s t : State} {i : NodeIx} (h : popMin s = some (i, t)) : ∃ l, t = { s with pq := l } := by
  rw [popMin] at h
  split at h
  · cases h
  · cases h; exact ⟨_, rfl⟩

theorem buildLeaves_along (hR : Along R) (hn : AcrossNewNode R) (hpq : ∀ s l, R s { s with pq := l })
    (l : List (Word × Nat)) {s t : State} (h : buildLeaves l s = .next t) : R s t := by
  induction l generalizing s with
  | nil => cases h; exact hR.refl _
  | cons x l ih =>
    obtain ⟨w, sym⟩ := x
    rw [buildLeaves] at h
    split at h
    · exact ih h
    · obtain ⟨m, hm, e⟩ := andThen_eq_next h
      exact hR.trans (enqueueNode_along hR hn hpq hm) (ih e)

theorem mergeOnce_along (hR : Along R) (hn : AcrossNewNode R) (hpq : ∀ s l, R s { s with pq := l }) {s t : State}
    (h : mergeOnce s = .next t) : R s t := by
  rw [mergeOnce] at h
  split at h
  · cases h
  · next a u e1 =>
    split at h
    · cases h
    · next b v e2 =>
      obtain ⟨l1, rfl⟩ := popMin_eq_some e1
      obtain ⟨l2, rfl⟩ := popMin_eq_some e2
      exact hR.trans (hpq _ _) (enqueueNode_along hR hn hpq h)

theorem mergeLoop_along (hR : Along R) (hn : AcrossNewNode R) (hpq : ∀ s l, R s { s with pq := l })
    (hroot : ∀ s r, R s { s with root := r, pq := [], treeSrc := false, treeValid := true }) (k : Nat) {s t : State}
    (h : mergeLoop k s = .next t) : R s t := by
  induction k generalizing s with
  | zero => cases h
  | succ k ih =>
    rw [mergeLoop] at h
    split at h
    · cases h
    · cases h; exact hroot _ _
    · obtain ⟨m, hm, e⟩ := andThen_eq_next h
      exact hR.trans (mergeOnce_along hR hn hpq hm) (ih e)

theorem buildPrim_along (hR : Along R) (hn : AcrossNewNode R) (hpq : ∀ s l, R s { s with pq := l })
    (hstart : ∀ s, R s { s with treeValid := false, codesValid := false, ncount := 0, pq := [] })
    (hroot : ∀ s r, R s { s with root := r, pq := [], treeSrc := false, treeValid := true }) {s t : State}
    (h : buildPrim.body s = .next t) : R s t := by
  obtain ⟨m, hm, e⟩ := andThen_eq_next h
  exact hR.trans (hstart s) (hR.trans (buildLeaves_along hR hn hpq _ hm) (mergeLoop_along hR hn hpq hroot _ e))

/-! ### GENCODES -/

theorem recordCode_along (hc : ∀ i p s, R s (State.setCode s i p)) {sym : Symbol} {p : Bits} {s t : State}
    (h : recordCode sym p s = .next t) : R s t := by
  rw [recordCode] at h
  split at h
  · cases h; exact hc _ _ _
  · cases h

theorem codeWalk_along (hR : Along R) (hc : ∀ i p s, R s (State.setCode s i p)) (k : Nat) {n : NodeIx} {p : Bits}
    {s t : State} (h : codeWalk k n p s = .next t) : R s t := by
  induction k generalizing n p s t with
  | zero => cases h
  | succ k ih =>
    rw [codeWalk] at h
    split at h
    · cases h
    · split at h
      · exact recordCode_along hc h
      · obtain ⟨m, hm, e⟩ := andThen_eq_next h
        exact hR.trans (ih hm) (ih e)

theorem gencodesPrim_along (hR : Along R)
    (hstart : ∀ s, R s { s with codesValid := false, codes := Vector.replicate 257 Code.absent })
    (hc : ∀ i p s, R s (State.setCode s i p)) (hend : ∀ s, R s { s with codesValid := true }) {s t : State}
    (h : gencodesPrim.body s = .next t) : R s t := by
  obtain ⟨m, hm, e⟩ := andThen_eq_next h
  cases e
  refine hR.trans (hstart s) (hR.trans ?_ (hend m))
  split at hm
  · cases hm
  · split at hm
    · exact recordCode_along hc hm
    · exact codeWalk_along hR hc _ hm

/-! ### WRMAGIC, WRTREE -/

theorem wrmagicPrim_along (hw : AcrossWrite R) {s t : State} (h : wrmagicPrim.body s = .next t) : R s t := by
  cases h
  exact hw _ s

theorem writeTree_along (hR : Along R) (hw : AcrossWrite R) (k : Nat) {n : NodeIx} {s t : State}
    (h : writeTree k n s = .next t) : R s t := by
  induction k generalizing n s t with
  | zero => cases h
  | succ k ih =>
    rw [writeTree] at h
    split at h
    · cases h
    · split at h
      · cases h; exact hR.trans (hw _ _) (hw _ _)
      · obtain ⟨m, hm, e⟩ := andThen_eq_next h
        exact hR.trans (hw _ _) (hR.trans (ih hm) (ih e))

theorem wrtreePrim_along (hR : Along R) (hw : AcrossWrite R) {s t : State} (h : wrtreePrim.body s = .next t) :
    R s t := writeTree_along hR hw _ h

/-! ### RDMAGIC, RDTREE -/

theorem checkMagic_along (hR : Along R) (hr : AcrossRaise R) (v : Word) (s : State) : R s (checkMagic v s) := by
  rw [checkMagic]
  split
  · exact hR.refl s
  · exact hr _ _ _ _ _

theorem rdmagicPrim_along (hR : Along R) (hs : AcrossSeek R) (hr : AcrossRaise R) {s t : State}
    (h : rdmagicPrim.body s = .next t) : R s t := by
  simp only [rdmagicPrim] at h
  split at h
  · next u e => cases h; exact hR.trans (readBits_along hs (by decide) e) (hr _ _ _ _ _)
  · next v u e => cases h; exact hR.trans (readBits_along hs (by decide) e) (checkMagic_along hR hr _ _)

/-- Reading a token goes through reads, the count of markers and errors. -/
theorem fetchToken_along (hR : Along R) (hs : AcrossSeek R) (hr : AcrossRaise R) (hm : ∀ s, R s (countMark s))
    {s t : State} (h : fetchToken s = .raised t ∨ ∃ tok, fetchToken s = .token tok t) : R s t := by
  rw [fetchToken] at h
  split at h
  · next u e =>
    have hu := readBits_along hs (by decide) e
    rcases h with h | ⟨_, h⟩
    · cases h; exact hR.trans hu (hr _ _ _ _ _)
    · cases h
  · next m u e =>
    have hu := hR.trans (readBits_along hs (by decide) e) (hm u)
    simp only at h
    split at h
    · rcases h with h | ⟨_, h⟩
      · cases h; exact hR.trans hu (hr _ _ _ _ _)
      · cases h
    · split at h
      · rcases h with h | ⟨_, h⟩ <;> cases h
        exact hu
      · next hl =>
        have hp : 0 < tokenLength (decide (m = 1)) - 1 := by
          revert hl; cases decide (m = 1) <;> decide
        split at h
        · next x e2 =>
          rcases h with h | ⟨_, h⟩ <;> cases h
          exact hR.trans hu (hR.trans (readBits_along hs hp e2) (hr _ _ _ _ _))
        · next v x e2 =>
          rcases h with h | ⟨_, h⟩ <;> cases h
          exact hR.trans hu (readBits_along hs hp e2)

/-- The state a token leaves, when there was room for its nodes. -/
def Parsed.state? : Parsed → Option State
  | .more s | .complete s | .raised s => some s
  | .full => none

theorem subtreeDone_along (hR : Along R) (hn : AcrossNewNode R) (hst : ∀ s l, R s { s with rdStack := l })
    (hroot : ∀ s i, R s { s with root := i, treeSrc := true, treeValid := true, rdStack := [] })
    (st : List RdFrame) {i : NodeIx} {s t : State} (h : (subtreeDone st i s).state? = some t) : R s t := by
  induction st generalizing i s with
  | nil => cases h; exact hroot _ _
  | cons f st ih =>
    cases f with
    | waitLeft => cases h; exact hst _ _
    | waitRight l =>
      rw [subtreeDone] at h
      split at h
      · next p u e => exact hR.trans (hn _ _ _ _ e) (ih h)
      · cases h

theorem takeToken_along (hR : Along R) (hr : AcrossRaise R) (hn : AcrossNewNode R)
    (hst : ∀ s l, R s { s with rdStack := l })
    (hroot : ∀ s i, R s { s with root := i, treeSrc := true, treeValid := true, rdStack := [] })
    {tok : Token} {s t : State} (h : (takeToken tok s).state? = some t) : R s t := by
  cases tok with
  | internal => cases h; exact hst _ _
  | leaf v =>
    rw [takeToken] at h
    split at h
    · cases h; exact hr _ _ _ _ _
    · split at h
      · next i u e => exact hR.trans (hn _ _ _ _ e) (subtreeDone_along hR hn hst hroot _ h)
      · cases h

theorem readTree_along (hR : Along R) (hs : AcrossSeek R) (hr : AcrossRaise R) (hm : ∀ s, R s (countMark s))
    (hn : AcrossNewNode R) (hst : ∀ s l, R s { s with rdStack := l })
    (hroot : ∀ s i, R s { s with root := i, treeSrc := true, treeValid := true, rdStack := [] })
    (k : Nat) {s t : State} (h : readTree k s = .next t) : R s t := by
  induction k generalizing s with
  | zero => cases h
  | succ k ih =>
    rw [readTree] at h
    split at h
    · next u e => cases h; exact fetchToken_along hR hs hr hm (.inl e)
    · next tok u e =>
      have hu := fetchToken_along hR hs hr hm (.inr ⟨tok, e⟩)
      have ht := fun x (hx : (takeToken tok u).state? = some x) => takeToken_along hR hr hn hst hroot hx
      split at h
      · next x e2 => exact hR.trans hu (hR.trans (ht x (by rw [e2]; rfl)) (ih h))
      · next x e2 => cases h; exact hR.trans hu (ht _ (by rw [e2]; rfl))
      · next x e2 => cases h; exact hR.trans hu (ht _ (by rw [e2]; rfl))
      · cases h

theorem rdtreePrim_along (hR : Along R) (hs : AcrossSeek R) (hr : AcrossRaise R) (hm : ∀ s, R s (countMark s))
    (hn : AcrossNewNode R) (hst : ∀ s l, R s { s with rdStack := l })
    (hstart : ∀ s, R s { s with treeValid := false, codesValid := false, ncount := 0, marks := 0, rdStack := [] })
    (hroot : ∀ s i, R s { s with root := i, treeSrc := true, treeValid := true, rdStack := [] })
    {s t : State} (h : rdtreePrim.body s = .next t) : R s t :=
  hR.trans (hstart s) (readTree_along hR hs hr hm hn hst hroot _ h)

/-! ### ENCODE, CLOSE, DECODE -/

theorem encodeSymbol_along (hw : AcrossWrite R) (hr : AcrossRaise R) (i : Fin 257) (s : State) :
    R s (encodeSymbol i s) := by
  rw [encodeSymbol]
  split
  · exact hr _ _ _ _ _
  · exact hw _ _

theorem encodeLoop_along (hR : Along R) (hs : AcrossSeek R) (hw : AcrossWrite R) (hr : AcrossRaise R) (k : Nat)
    {s t : State} (h : encodeLoop k s = .next t) : R s t := by
  induction k generalizing s with
  | zero => cases h
  | succ k ih =>
    rw [encodeLoop] at h
    split at h
    · next u e => cases h; exact readBits_along hs (by omega) e
    · next v u e =>
      have hu := hR.trans (readBits_along hs (by omega) e) (encodeSymbol_along hw hr (byteIndex v) u)
      obtain ⟨m, hm, ⟨_, rfl⟩ | ⟨_, e2⟩⟩ := unlessRaised_eq_next h
      · cases hm; exact hu
      · cases hm; exact hR.trans hu (ih e2)

theorem encodePrim_along (hR : Along R) (hs : AcrossSeek R) (hw : AcrossWrite R) (hr : AcrossRaise R) {s t : State}
    (h : encodePrim.body s = .next t) : R s t := by
  obtain ⟨m, hm, ⟨_, rfl⟩ | ⟨_, e⟩⟩ := unlessRaised_eq_next h
  · exact encodeLoop_along hR hs hw hr _ hm
  · cases e; exact hR.trans (encodeLoop_along hR hs hw hr _ hm) (encodeSymbol_along hw hr _ _)

theorem closePrim_along (hR : Along R) (hw : AcrossWrite R) {s t : State} (h : closePrim.body s = .next t) :
    R s t := by
  cases h
  exact padOut_along hR hw _ _

theorem walkBit_along (hR : Along R) (hcur : ∀ s c, R s { s with cur := c }) (d : Node) (b : Nat) (s : State) :
    R s (walkBit d b s) := by
  rw [walkBit]
  split
  · exact hR.refl s
  · exact hcur _ _

theorem decodeLoop_along (hR : Along R) (hs : AcrossSeek R) (hw : AcrossWrite R) (hr : AcrossRaise R)
    (hcur : ∀ s c, R s { s with cur := c }) (k : Nat) {s t : State} (h : decodeLoop k s = .next t) : R s t := by
  induction k generalizing s with
  | zero => cases h
  | succ k ih =>
    rw [decodeLoop] at h
    split at h
    · next u e => cases h; exact hR.trans (readBits_along hs (by omega) e) (hr _ _ _ _ _)
    · next b u e =>
      have hu := readBits_along hs (by omega) e
      split at h
      · cases h
      · next d _ =>
        have hv := hR.trans hu (walkBit_along hR hcur d b u)
        simp only at h
        split at h
        · cases h
        · split at h
          · split at h
            · cases h; exact hv
            · exact hR.trans hv (hR.trans (hw _ _) (hR.trans (hcur _ _) (ih h)))
          · exact hR.trans hv (ih h)

theorem decodePrim_along (hR : Along R) (hs : AcrossSeek R) (hw : AcrossWrite R) (hr : AcrossRaise R)
    (hcur : ∀ s c, R s { s with cur := c }) {s t : State} (h : decodePrim.body s = .next t) : R s t :=
  hR.trans (hcur s s.root) (decodeLoop_along hR hs hw hr hcur _ h)

/-! ### Commands -/

/-- A primitive with its preconditions: the body, or the SequenceError. -/
theorem run_along (hr : AcrossRaise R) {p : Primitive} (hbody : ∀ {s t}, p.body s = .next t → R s t) {s t : State}
    (h : p.run s = .next t) : R s t := by
  rw [Primitive.run] at h
  split at h
  · cases h; exact hr _ _ _ _ _
  · exact hbody h

theorem runSteps_along (hR : Along R) (hr : AcrossRaise R)
    (hstep : ∀ s k op, R s { s with cstep := k, curOp := op }) (ps : List Primitive)
    (hbody : ∀ p ∈ ps, ∀ {s t}, p.body s = .next t → R s t) (k : Nat) {s t : State}
    (h : runSteps k ps s = .next t) : R s t := by
  induction ps generalizing k s with
  | nil => cases h; exact hR.refl _
  | cons p ps ih =>
    rw [runSteps_cons] at h
    obtain ⟨m, hm, hh⟩ := unlessRaised_eq_next h
    have h1 : R s m := hR.trans (hstep _ _ _) (run_along hr (hbody p (by simp)) hm)
    rcases hh with ⟨_, rfl⟩ | ⟨_, e⟩
    · exact h1
    · exact hR.trans h1 (ih (fun q hq => hbody q (by simp [hq])) _ e)

theorem runCommand_along (hR : Along R) (hr : AcrossRaise R)
    (hbegin : ∀ s op, R s { s with busy := true, curOp := op }) (hend : ∀ s, R s { s with busy := false })
    {p : Primitive} (hbody : ∀ {s t}, p.body s = .next t → R s t) {s t : State} (h : runCommand p s = .next t) :
    R s t := by
  obtain ⟨_, ⟨_, rfl⟩ | ⟨_, m, hm, rfl⟩⟩ := runCommand_eq_next h
  · exact hR.refl _
  · exact hR.trans (hbegin s p.op) (hR.trans (run_along hr hbody hm) (hend m))

end Sys2Proof.Machine
end

