-- ==== Sys2Proof/Laws/Trees.lean ====
section
/-! SUPPORT. Trees apart from any node store: sizes, headers, paths; and what a node store that holds one answers. -/

namespace Sys2Proof

namespace HTree

theorem symbols_ne_nil (t : HTree) : t.symbols ≠ [] := by
  induction t with
  | leaf s => simp [symbols]
  | node l r ihl ihr => simp [symbols, ihl]

theorem length_symbols_pos (t : HTree) : 0 < t.symbols.length := List.length_pos_iff.mpr t.symbols_ne_nil

/-- A full binary tree with L leaves has L - 1 internal nodes. -/
theorem size_add_one (t : HTree) : t.size + 1 = 2 * t.symbols.length := by
  induction t with
  | leaf s => simp [size, symbols]
  | node l r ihl ihr => simp [size, symbols]; omega

theorem size_pos (t : HTree) : 0 < t.size := by cases t <;> simp [size]

theorem height_lt (t : HTree) : t.height < t.symbols.length := by
  induction t with
  | leaf s => simp [height, symbols]
  | node l r ihl ihr =>
    have := l.length_symbols_pos
    have := r.length_symbols_pos
    simp [height, symbols]
    omega

/-- The header size law of 30_encoding.md R90. -/
theorem length_header (t : HTree) : t.header.length + 1 = 11 * t.symbols.length := by
  induction t with
  | leaf s => simp [header, symbols]
  | node l r ihl ihr =>
    simp [header, symbols]
    omega

theorem header_ne_nil (t : HTree) : t.header ≠ [] := by cases t <;> simp [header]

theorem map_fst_paths (t : HTree) : t.paths.map Prod.fst = t.symbols := by
  induction t with
  | leaf s => rfl
  | node l r ihl ihr => simp [paths, symbols, ← ihl, ← ihr, Function.comp_def]

theorem paths_length_le {t : HTree} {s : Symbol} {b : Bits} (h : (s, b) ∈ t.paths) : b.length ≤ t.height := by
  induction t generalizing b with
  | leaf s' => simp [paths] at h; simp [h, height]
  | node l r ihl ihr =>
    simp only [paths, List.mem_append, List.mem_map, Prod.exists, Prod.mk.injEq] at h
    simp only [height]
    rcases h with ⟨s', b', h, rfl, rfl⟩ | ⟨s', b', h, rfl, rfl⟩
    · have := ihl h; simp; omega
    · have := ihr h; simp; omega

theorem paths_node_ne_nil {l r : HTree} {s : Symbol} {b : Bits} (h : (s, b) ∈ (node l r).paths) : b ≠ [] := by
  simp only [paths, List.mem_append, List.mem_map, Prod.exists, Prod.mk.injEq] at h
  rcases h with ⟨_, _, _, _, rfl⟩ | ⟨_, _, _, _, rfl⟩ <;> simp

/-- No path of a tree is the start of another leaf's: two leaves of different symbols part somewhere. -/
theorem paths_prefix_free {t : HTree} {s s' : Symbol} {b b' : Bits} (h : (s, b) ∈ t.paths) (h' : (s', b') ∈ t.paths)
    (hp : b <+: b') : s = s' ∧ b = b' := by
  induction t generalizing b b' with
  | leaf x => simp [paths] at h h'; simp [h, h']
  | node l r ihl ihr =>
    simp only [paths, List.mem_append, List.mem_map, Prod.exists, Prod.mk.injEq] at h h'
    rcases h with ⟨_, c, h, rfl, rfl⟩ | ⟨_, c, h, rfl, rfl⟩ <;>
      rcases h' with ⟨_, c', h', rfl, rfl⟩ | ⟨_, c', h', rfl, rfl⟩ <;>
      simp only [List.cons_prefix_cons] at hp
    · obtain ⟨e1, e2⟩ := ihl h h' hp.2; simp [e1, e2]
    · simp at hp
    · simp at hp
    · obtain ⟨e1, e2⟩ := ihr h h' hp.2; simp [e1, e2]

/-- The paths of a tree share out the whole of 2^H among its leaves. -/
theorem sum_two_pow_paths (t : HTree) (H : Nat) (h : t.height ≤ H) :
    (t.paths.map fun p => 2 ^ (H - p.2.length)).sum = 2 ^ H := by
  induction t generalizing H with
  | leaf s => simp [paths]
  | node l r ihl ihr =>
    simp only [height] at h
    obtain ⟨H', rfl⟩ : ∃ H', H = H' + 1 := ⟨H - 1, by omega⟩
    have e1 := ihl H' (by omega)
    have e2 := ihr H' (by omega)
    simp only [paths, List.map_append, List.map_map, Function.comp_def, List.sum_append, List.length_cons,
      Nat.add_sub_add_right, e1, e2]
    rw [pow_succ]; ring

theorem map_fst_codeList (t : HTree) : t.codeList.map Prod.fst = t.symbols := by
  cases t with
  | leaf s => rfl
  | node l r => exact map_fst_paths _

theorem codeList_ne_nil {t : HTree} {s : Symbol} {b : Bits} (h : (s, b) ∈ t.codeList) : b ≠ [] := by
  cases t with
  | leaf s' => simp [codeList] at h; simp [h]
  | node l r => exact paths_node_ne_nil h

theorem codeList_length_le {t : HTree} {s : Symbol} {b : Bits} (h : (s, b) ∈ t.codeList) (ht : t.height ≤ 256) :
    b.length ≤ 256 := by
  cases t with
  | leaf s' => simp [codeList] at h; simp [h]
  | node l r => exact (paths_length_le h).trans ht

theorem spells_codeList {t : HTree} {s : Symbol} {b : Bits} (h : (s, b) ∈ t.codeList) : t.spells s b = true := by
  cases t with
  | leaf s' => simp [codeList] at h; simp [spells, h]
  | node l r => simpa [spells, codeList] using h

end HTree

namespace Machine

/-! ### A node store that holds a tree -/

theorem holds_leaf {s : State} {sym : Symbol} {i : NodeIx} :
    s.holds (.leaf sym) i = true ↔ ∃ d, s.nodeAt i = some d ∧ d.leaf = true ∧ d.sym = sym := by
  rw [State.holds]
  cases s.nodeAt i <;> simp

theorem holds_node {s : State} {l r : HTree} {i : NodeIx} :
    s.holds (.node l r) i = true ↔
      ∃ d, s.nodeAt i = some d ∧ d.leaf = false ∧ s.holds l d.left = true ∧ s.holds r d.right = true := by
  rw [State.holds]
  cases s.nodeAt i <;> simp [and_assoc]

/-- Whether a tree is held depends on the node store alone. -/
theorem holds_congr {s t : State} (h : t.nodes = s.nodes) (tr : HTree) (i : NodeIx) : t.holds tr i = s.holds tr i := by
  induction tr generalizing i with
  | leaf sym => simp [State.holds, State.nodeAt, h]
  | node l r ihl ihr => simp [State.holds, State.nodeAt, h, ihl, ihr]

/-- A node index holds one tree at most. -/
theorem holds_unique {s : State} {t t' : HTree} {i : NodeIx} (h : s.holds t i = true) (h' : s.holds t' i = true) :
    t = t' := by
  induction t generalizing t' i with
  | leaf sym =>
    obtain ⟨d, hd, hl, rfl⟩ := holds_leaf.mp h
    cases t' with
    | leaf sym' =>
      obtain ⟨d', hd', _, rfl⟩ := holds_leaf.mp h'
      rw [hd] at hd'; cases hd'; rfl
    | node l r =>
      obtain ⟨d', hd', hl', _⟩ := holds_node.mp h'
      rw [hd] at hd'; cases hd'; simp [hl] at hl'
  | node l r ihl ihr =>
    obtain ⟨d, hd, hl, h1, h2⟩ := holds_node.mp h
    cases t' with
    | leaf sym' =>
      obtain ⟨d', hd', hl', _⟩ := holds_leaf.mp h'
      rw [hd] at hd'; cases hd'; simp [hl] at hl'
    | node l' r' =>
      obtain ⟨d', hd', _, h1', h2'⟩ := holds_node.mp h'
      rw [hd] at hd'
      cases hd'
      rw [ihl h1 h1', ihr h2 h2']

/-! ### Writing the header (42_header_codec.md R141) -/

/-- wr writes the header of the tree it is given, and touches nothing else. -/
theorem writeTree_spec (t : HTree) {k : Nat} {n : NodeIx} {s : State} (h : s.holds t n = true) (hk : t.height < k) :
    ∃ tr, writeTree k n s = .next { s with outBits := s.outBits ++ t.header, portTrace := tr } := by
  induction t generalizing k n s with
  | leaf sym =>
    obtain ⟨d, hd, hl, rfl⟩ := holds_leaf.mp h
    obtain ⟨k, rfl⟩ : ∃ k', k = k' + 1 := ⟨k - 1, by omega⟩
    refine ⟨(writeBits 9 d.sym.toNat (writeBits 1 1 s)).portTrace, ?_⟩
    simp only [writeTree, hd, hl, if_true]
    congr 1
    simp [writeBits, writeStr, State.mark, HTree.header, bin]
  | node l r ihl ihr =>
    obtain ⟨d, hd, hl, h1, h2⟩ := holds_node.mp h
    simp only [HTree.height] at hk
    obtain ⟨k, rfl⟩ : ∃ k', k = k' + 1 := ⟨k - 1, by omega⟩
    obtain ⟨tr1, e1⟩ := ihl (k := k) (s := writeBits 1 0 s) ((holds_congr (by simp) _ _).trans h1) (by omega)
    obtain ⟨tr2, e2⟩ := ihr (k := k)
      (s := { writeBits 1 0 s with outBits := (writeBits 1 0 s).outBits ++ l.header, portTrace := tr1 })
      ((holds_congr (by simp) _ _).trans h2) (by omega)
    refine ⟨tr2, ?_⟩
    simp only [writeTree, hd, hl, e1, andThen_next, e2]
    simp [writeBits, writeStr, State.mark, HTree.header, bin]

/-! ### Walking for codes (41_code_table.md R130) -/

/-- Records a list of codes, first to last. -/
def recordAll : List (Symbol × Bits) → State → State
  | [], s => s
  | (sym, p) :: rest, s =>
    match symbolIndex sym with
    | some i => recordAll rest (s.setCode i p)
    | none => recordAll rest s

theorem recordAll_append (a b : List (Symbol × Bits)) (s : State) :
    recordAll (a ++ b) s = recordAll b (recordAll a s) := by
  induction a generalizing s with
  | nil => rfl
  | cons x a ih =>
    obtain ⟨sym, p⟩ := x
    simp only [List.cons_append, recordAll]
    split <;> exact ih _

/-- Recording codes touches the code table only. -/
theorem recordAll_frame (a : List (Symbol × Bits)) (s : State) :
    recordAll a s = { s with codes := (recordAll a s).codes } := by
  induction a generalizing s with
  | nil => rfl
  | cons x a ih =>
    obtain ⟨sym, p⟩ := x
    simp only [recordAll]
    split
    · next i _ => exact ih (s.setCode i p)
    · exact ih s

theorem symbolIndex_some {sym : Symbol} (h : sym.toNat ≤ 256) :
    symbolIndex sym = some ⟨sym.toNat, by omega⟩ := by
  rw [symbolIndex, dif_pos (by omega)]

/-- walk records each leaf's path behind the path so far. -/
theorem codeWalk_spec (t : HTree) {k : Nat} {n : NodeIx} {p : Bits} {s : State} (h : s.holds t n = true)
    (hk : t.height < k) (hs : t.symbolsOk = true) :
    codeWalk k n p s = .next (recordAll (t.paths.map fun q => (q.1, p ++ q.2)) s) := by
  induction t generalizing k n p s with
  | leaf sym =>
    obtain ⟨d, hd, hl, rfl⟩ := holds_leaf.mp h
    obtain ⟨k, rfl⟩ : ∃ k', k = k' + 1 := ⟨k - 1, by omega⟩
    simp [HTree.symbolsOk, HTree.symbols] at hs
    simp [codeWalk, hd, hl, recordCode, HTree.paths, recordAll, symbolIndex_some hs]
  | node l r ihl ihr =>
    obtain ⟨d, hd, hl, h1, h2⟩ := holds_node.mp h
    simp only [HTree.height] at hk
    obtain ⟨k, rfl⟩ : ∃ k', k = k' + 1 := ⟨k - 1, by omega⟩
    simp only [HTree.symbolsOk, HTree.symbols, List.all_append, Bool.and_eq_true] at hs
    have e1 := ihl (k := k) (p := p ++ [false]) h1 (by omega) hs.1
    have e2 := ihr (k := k) (p := p ++ [true])
      (s := recordAll (l.paths.map fun q => (q.1, p ++ [false] ++ q.2)) s)
      ((holds_congr (by rw [recordAll_frame]) _ _).trans h2) (by omega) hs.2
    simp only [codeWalk, hd, hl, e1, andThen_next, Bool.false_eq_true, if_false, e2]
    simp [HTree.paths, recordAll_append, Function.comp_def]

/-- With distinct symbols, a recorded code is the one the list gives its symbol, and the others are left alone. -/
theorem codeAt_recordAll (a : List (Symbol × Bits)) (s : State) (i : Fin 257) (hd : (a.map Prod.fst).Nodup) :
    (recordAll a s).codeAt i = match a.lookup (BitVec.ofNat 9 i.val) with
      | some b => { len := BitVec.ofNat 9 b.length, bits := b }
      | none => s.codeAt i := by
  induction a generalizing s with
  | nil => rfl
  | cons x a ih =>
    obtain ⟨sym, p⟩ := x
    simp only [List.map_cons, List.nodup_cons] at hd
    simp only [recordAll, List.lookup_cons]
    have hi : (BitVec.ofNat 9 i.val).toNat = i.val := by
      rw [BitVec.toNat_ofNat, Nat.mod_eq_of_lt (by omega)]
    by_cases he : BitVec.ofNat 9 i.val = sym
    · subst he
      rw [symbolIndex_some (by omega)]
      have hn : a.lookup (BitVec.ofNat 9 i.val) = none := by
        rw [List.lookup_eq_none_iff]
        intro q hq
        have : q.1 ∈ a.map Prod.fst := List.mem_map_of_mem hq
        by_contra hc
        have e : BitVec.ofNat 9 i.val = q.1 := by simpa using hc
        exact hd.1 (e ▸ this)
      rw [show (BitVec.ofNat 9 i.val == BitVec.ofNat 9 i.val) = true by simp]
      dsimp only
      rw [ih _ hd.2, hn]
      simp [State.codeAt, State.setCode, hi]
    · have : (BitVec.ofNat 9 i.val == sym) = false := by simpa using he
      rw [this]
      split
      · next j hj =>
        rw [ih _ hd.2]
        cases a.lookup (BitVec.ofNat 9 i.val) with
        | some b => rfl
        | none =>
          have hne : j.val ≠ i.val := by
            intro e
            apply he
            rw [symbolIndex] at hj
            split at hj
            · cases hj
              apply BitVec.eq_of_toNat_eq
              rw [hi, ← e]
            · cases hj
          simp [State.codeAt, State.setCode, Vector.getElem_set_ne _ _ hne]
      · rw [ih _ hd.2]

end Machine

end Sys2Proof
end

