-- ==== Sys2Proof/Laws/Streams.lean ====
section
/-! SUPPORT. What COUNT and ENCODE do with the bytes they read. -/

namespace Sys2Proof.Machine

/-- A read of a byte that is there. -/
theorem readByte {s : State} {b : Byte} {bs : List Byte} {rest : Bits} (hu : s.unread = bitsOf (b :: bs) ++ rest) :
    readBits 8 s = (some b.toNat, s.seek (s.inPos + 8)) ∧ (s.seek (s.inPos + 8)).unread = bitsOf bs ++ rest := by
  rw [bitsOf_cons, List.append_assoc] at hu
  exact readBits_bin hu (by decide) b.isLt

/-- A read with less than a byte left. -/
theorem readByte_end {s : State} {rest : Bits} (hu : s.unread = bitsOf [] ++ rest) (hr : rest.length < 8) :
    readBits 8 s = (none, s.seek s.inBits.length) :=
  readBits_none (by simpa [hu] using hr)

theorem groupBound_gt {s : State} {bs : List Byte} {rest : Bits} (hu : s.unread = bitsOf bs ++ rest) :
    bs.length < s.groupBound := by
  have := length_unread s
  rw [hu] at this
  simp at this
  rw [State.groupBound]
  omega

/-! ### COUNT (40_count_and_build.md R110) -/

theorem toNat_countLimit {s : State} (h : s.WidthOk) : s.countLimit.toNat = 2 ^ s.wCnt - 2 := by
  rw [State.countLimit, BitVec.toNat_ofNat, Nat.mod_eq_of_lt]
  have := Nat.pow_le_pow_right (n := 2) (by omega) h.2
  omega

theorem freqAt_countByte (v : Nat) (s : State) (i : Fin 257) :
    (countByte v s).freqAt i = s.freqAt i + if i = byteIndex v then 1 else 0 := by
  simp only [State.freqAt, countByte_freq]
  by_cases h : i = byteIndex v
  · subst h; simp
  · have : (byteIndex v).val ≠ i.val := fun e => h (Fin.ext e.symm)
    simp [Vector.getElem_set_ne _ _ this, h]

/-- Counting bytes within the capacity: each adds one to TOTAL and to its own counter. -/
theorem countLoop_spec (bs : List Byte) {k : Nat} {s : State} {rest : Bits} (hu : s.unread = bitsOf bs ++ rest)
    (hr : rest.length < 8) (hk : bs.length < k) (hw : s.WidthOk) (hc : s.total.toNat + bs.length + 2 ≤ 2 ^ s.wCnt) :
    ∃ t, countLoop k s = .next t ∧ t.total.toNat = s.total.toNat + bs.length ∧
      (∀ i, t.freqAt i = s.freqAt i + BitVec.ofNat 32 (bs.countP fun b => decide (i = byteIndex b.toNat))) ∧
      t = { s with freq := t.freq, total := t.total, inPos := s.inBits.length, portTrace := t.portTrace } := by
  induction bs generalizing k s with
  | nil =>
    obtain ⟨k, rfl⟩ : ∃ k', k = k' + 1 := ⟨k - 1, by simp at hk; omega⟩
    refine ⟨s.seek s.inBits.length, ?_, by simp, by simp [State.freqAt], rfl⟩
    rw [countLoop, readByte_end hu hr]
  | cons b bs ih =>
    obtain ⟨k, rfl⟩ : ∃ k', k = k' + 1 := ⟨k - 1, by simp at hk; omega⟩
    obtain ⟨hrd, hu'⟩ := readByte hu
    simp only [List.length_cons] at hk hc
    have hlim := toNat_countLimit hw
    have hpow := Nat.pow_le_pow_right (n := 2) (by omega) hw.2
    have ht : (countByte b.toNat (s.seek (s.inPos + 8))).total.toNat = s.total.toNat + 1 := by
      simp only [countByte_total, seek_total, BitVec.toNat_add]
      simp
      omega
    obtain ⟨t, e, h1, h2, h3⟩ := ih (k := k) (s := countByte b.toNat (s.seek (s.inPos + 8))) hu' (by omega) hw
      (by rw [ht]; simp; omega)
    refine ⟨t, ?_, ?_, ?_, ?_⟩
    · rw [countLoop, hrd]
      simp only
      rw [if_neg, e]
      intro he
      have he' := congrArg BitVec.toNat he
      have : (s.seek (s.inPos + 8)).countLimit = s.countLimit := rfl
      rw [this, hlim] at he'
      simp at he'
      omega
    · rw [h1, ht]; simp; omega
    · intro i
      rw [h2, freqAt_countByte, List.countP_cons]
      have : (s.seek (s.inPos + 8)).freqAt i = s.freqAt i := rfl
      rw [this, BitVec.add_assoc]
      congr 1
      by_cases hi : i = byteIndex b.toNat <;> simp [hi, BitVec.ofNat_add, BitVec.add_comm]
    · rw [h3]; rfl

/-- Counting past the capacity: the error, just after the byte too many. -/
theorem countLoop_full (bs : List Byte) {k : Nat} {s : State} {rest : Bits} (hu : s.unread = bitsOf bs ++ rest)
    (hk : bs.length < k) (hw : s.WidthOk) (ht : s.total.toNat + 2 ≤ 2 ^ s.wCnt)
    (hc : 2 ^ s.wCnt < s.total.toNat + bs.length + 2) :
    ∃ t, countLoop k s = .next (raise .capacityExceeded 1 0 t) ∧
      t = { s with
        freq := t.freq
        total := t.total
        inPos := s.inPos + 8 * (2 ^ s.wCnt - 1 - s.total.toNat)
        portTrace := t.portTrace } := by
  induction bs generalizing k s with
  | nil => simp at hc; omega
  | cons b bs ih =>
    obtain ⟨k, rfl⟩ : ∃ k', k = k' + 1 := ⟨k - 1, by simp at hk; omega⟩
    obtain ⟨hrd, hu'⟩ := readByte hu
    simp only [List.length_cons] at hk hc
    have hlim := toNat_countLimit hw
    have hpow := Nat.pow_le_pow_right (n := 2) (by omega) hw.2
    rw [countLoop, hrd]
    simp only
    by_cases he : s.total.toNat = 2 ^ s.wCnt - 2
    · rw [if_pos (by
        apply BitVec.eq_of_toNat_eq
        have : (s.seek (s.inPos + 8)).countLimit = s.countLimit := rfl
        rw [this, hlim, ← he]; rfl)]
      refine ⟨s.seek (s.inPos + 8), rfl, ?_⟩
      have : 8 * (2 ^ s.wCnt - 1 - s.total.toNat) = 8 := by omega
      rw [this]; rfl
    · have ht' : (countByte b.toNat (s.seek (s.inPos + 8))).total.toNat = s.total.toNat + 1 := by
        simp only [countByte_total, seek_total, BitVec.toNat_add]
        simp
        omega
      rw [if_neg]
      · obtain ⟨t, e, h⟩ := ih (k := k) (s := countByte b.toNat (s.seek (s.inPos + 8))) hu' (by omega) hw
          (by rw [ht']; simp; omega) (by rw [ht']; simp; omega)
        refine ⟨t, e, ?_⟩
        rw [h, ht']
        have : s.inPos + 8 + 8 * (2 ^ s.wCnt - 1 - (s.total.toNat + 1)) =
          s.inPos + 8 * (2 ^ s.wCnt - 1 - s.total.toNat) := by omega
        simp only [countByte_wCnt, seek_wCnt, countByte_inPos, seek_inPos, this]
        rfl
      · intro h
        apply he
        have := congrArg BitVec.toNat h
        have e2 : (s.seek (s.inPos + 8)).countLimit = s.countLimit := rfl
        rw [e2, hlim] at this
        exact this

/-! ### ENCODE (43_encoder.md R160) -/

theorem encodeSymbol_present {i : Fin 257} {s : State} (h : (s.codeAt i).len ≠ 0) :
    encodeSymbol i s = writeStr (s.codeAt i).bits s := by
  rw [encodeSymbol, if_neg h]

theorem encodeSymbol_absent {i : Fin 257} {s : State} (h : (s.codeAt i).len = 0) :
    encodeSymbol i s = raise .missingCode 1 (BitVec.ofNat 32 i.val) s := by
  rw [encodeSymbol, if_pos h]

/-- Encoding bytes that all have a code writes their codes in order. -/
theorem encodeLoop_spec (bs : List Byte) {k : Nat} {s : State} {rest : Bits} (hu : s.unread = bitsOf bs ++ rest)
    (hr : rest.length < 8) (hk : bs.length < k) (he : s.err = false) (hc : ∀ b ∈ bs, s.hasCode b = true) :
    ∃ tr, encodeLoop k s = .next { s with
      outBits := s.outBits ++ bs.flatMap s.codeBits
      inPos := s.inBits.length
      portTrace := tr } := by
  induction bs generalizing k s with
  | nil =>
    obtain ⟨k, rfl⟩ : ∃ k', k = k' + 1 := ⟨k - 1, by simp at hk; omega⟩
    refine ⟨(s.seek s.inBits.length).portTrace, ?_⟩
    rw [encodeLoop, readByte_end hu hr]
    simp [State.seek, State.mark]
  | cons b bs ih =>
    obtain ⟨k, rfl⟩ : ∃ k', k = k' + 1 := ⟨k - 1, by simp at hk; omega⟩
    obtain ⟨hrd, hu'⟩ := readByte hu
    simp only [List.length_cons] at hk
    have hb0 : (s.codeAt (byteIndex b.toNat)).len ≠ 0 := by simpa [State.hasCode] using hc b (by simp)
    have hb : ((s.seek (s.inPos + 8)).codeAt (byteIndex b.toNat)).len ≠ 0 := hb0
    obtain ⟨tr, e⟩ := ih (k := k) (s := writeStr (s.codeBits b) (s.seek (s.inPos + 8))) hu' (by omega)
      (by simpa using he) (fun b' hb' => hc b' (by simp [hb']))
    refine ⟨tr, ?_⟩
    rw [encodeLoop, hrd]
    simp only
    rw [encodeSymbol_present hb, unlessRaised_next _ (by simpa using he)]
    refine e.trans ?_
    congr 1
    have : (writeStr (s.codeBits b) (s.seek (s.inPos + 8))).codeBits = s.codeBits := rfl
    rw [this]
    simp [writeStr, State.seek, State.mark]

/-- Encoding stops at the first byte without a code: the codes before it stand, and none of its own bits. -/
theorem encodeLoop_missing (pre : List Byte) {b : Byte} {post : List Byte} {k : Nat} {s : State} {rest : Bits}
    (hu : s.unread = bitsOf (pre ++ b :: post) ++ rest) (hk : pre.length < k) (he : s.err = false)
    (hc : ∀ b ∈ pre, s.hasCode b = true) (hb : s.hasCode b = false) :
    ∃ tr, encodeLoop k s = .next (raise .missingCode 1 (b.setWidth 32) { s with
      outBits := s.outBits ++ pre.flatMap s.codeBits
      inPos := s.inPos + 8 * (pre.length + 1)
      portTrace := tr }) := by
  induction pre generalizing k s with
  | nil =>
    obtain ⟨k, rfl⟩ : ∃ k', k = k' + 1 := ⟨k - 1, by simp at hk; omega⟩
    obtain ⟨hrd, _⟩ := readByte hu
    refine ⟨(s.seek (s.inPos + 8)).portTrace, ?_⟩
    have hb0 : (s.codeAt (byteIndex b.toNat)).len = 0 := by simpa [State.hasCode] using hb
    have hb' : ((s.seek (s.inPos + 8)).codeAt (byteIndex b.toNat)).len = 0 := hb0
    rw [encodeLoop, hrd]
    simp only
    rw [encodeSymbol_absent hb', unlessRaised_raised _ rfl]
    have : BitVec.ofNat 32 (byteIndex b.toNat).val = b.setWidth 32 := by
      apply BitVec.eq_of_toNat_eq
      simp [byteIndex, Nat.mod_eq_of_lt b.isLt]
    rw [this]
    simp [State.seek, State.mark]
  | cons a pre ih =>
    obtain ⟨k, rfl⟩ : ∃ k', k = k' + 1 := ⟨k - 1, by simp at hk; omega⟩
    obtain ⟨hrd, hu'⟩ := readByte hu
    simp only [List.length_cons] at hk
    have ha0 : (s.codeAt (byteIndex a.toNat)).len ≠ 0 := by simpa [State.hasCode] using hc a (by simp)
    have ha : ((s.seek (s.inPos + 8)).codeAt (byteIndex a.toNat)).len ≠ 0 := ha0
    obtain ⟨tr, e⟩ := ih (k := k) (s := writeStr (s.codeBits a) (s.seek (s.inPos + 8))) hu' (by omega)
      (by simpa using he) (fun b' hb' => hc b' (by simp [hb'])) hb
    refine ⟨tr, ?_⟩
    rw [encodeLoop, hrd]
    simp only
    rw [encodeSymbol_present ha, unlessRaised_next _ (by simpa using he)]
    refine e.trans ?_
    congr 2
    have : (writeStr (s.codeBits a) (s.seek (s.inPos + 8))).codeBits = s.codeBits := rfl
    rw [this]
    simp [writeStr, State.seek, State.mark]
    omega

end Sys2Proof.Machine
end

