-- ==== Sys2Proof/Laws/Decoding.lean ====
section
/-! SUPPORT. What DECODE does with the bits it reads: it follows them to leaves of the tree (44_decoder.md). -/

namespace Sys2Proof.Machine

/-- A read of a bit that is there. -/
theorem readBit {s : State} {b : Bool} {rest : Bits} (hu : s.unread = b :: rest) :
    readBits 1 s = (some b.toNat, s.seek (s.inPos + 1)) ∧ (s.seek (s.inPos + 1)).unread = rest := by
  have e : s.unread = bin 1 b.toNat ++ rest := by cases b <;> simp [hu, bin]
  exact readBits_bin e (by decide) (by cases b <;> decide)

/-- DECODE on reaching a leaf. -/
def atLeaf (k : Nat) (sym : Symbol) (s : State) : Outcome :=
  if sym = Config.pseudoEof then .next s else decodeLoop k { writeBits 8 sym.toNat s with cur := s.root }

/-- One round of DECODE from an internal node: the bit leads to a child. -/
theorem decodeLoop_node {k : Nat} {s : State} {b : Bool} {rest : Bits} {d e : Node} (hu : s.unread = b :: rest)
    (hd : s.nodeAt s.cur = some d) (hl : d.leaf = false)
    (he : s.nodeAt (if b then d.right else d.left) = some e) :
    decodeLoop (k + 1) s =
      let u := { s.seek (s.inPos + 1) with cur := if b then d.right else d.left }
      if e.leaf then atLeaf k e.sym u else decodeLoop k u := by
  obtain ⟨hr, _⟩ := readBit hu
  have h1 : (s.seek (s.inPos + 1)).nodeAt (s.seek (s.inPos + 1)).cur = some d := hd
  have hw : walkBit d b.toNat (s.seek (s.inPos + 1)) =
      { s.seek (s.inPos + 1) with cur := if b then d.right else d.left } := by
    cases b <;> simp [walkBit, hl]
  have h2 : ({ s.seek (s.inPos + 1) with cur := if b then d.right else d.left } : State).nodeAt
      (if b then d.right else d.left) = some e := he
  simp only [decodeLoop, hr, h1, hw, h2, atLeaf]

/-- Following a whole path leads to its leaf. -/
theorem decodeLoop_path {p : Bits} {l r : HTree} {k : Nat} {s : State} {sym : Symbol} {rest : Bits}
    (h : s.holds (.node l r) s.cur = true) (hp : (sym, p) ∈ (HTree.node l r).paths) (hu : s.unread = p ++ rest) :
    ∃ c tr, decodeLoop (k + p.length) s =
      atLeaf k sym { s with cur := c, inPos := s.inPos + p.length, portTrace := tr } := by
  induction p generalizing l r s with
  | nil => exact absurd rfl (HTree.paths_node_ne_nil hp)
  | cons b p ih =>
    obtain ⟨d, hd, hl, h1, h2⟩ := holds_node.mp h
    obtain ⟨t, hc, hpt⟩ : ∃ t : HTree, s.holds t (if b then d.right else d.left) = true ∧ (sym, p) ∈ t.paths := by
      simp only [HTree.paths, List.mem_append, List.mem_map, Prod.exists, Prod.mk.injEq] at hp
      rcases hp with ⟨_, _, hp, rfl, e⟩ | ⟨_, _, hp, rfl, e⟩ <;> cases e
      · exact ⟨l, h1, hp⟩
      · exact ⟨r, h2, hp⟩
    obtain ⟨_, hu'⟩ := readBit (rest := p ++ rest) (s := s) (b := b) hu
    rw [List.length_cons, ← Nat.add_assoc]
    cases t with
    | leaf x =>
      obtain ⟨e, he, hel, rfl⟩ := holds_leaf.mp hc
      simp [HTree.paths] at hpt
      obtain ⟨rfl, rfl⟩ := hpt
      rw [decodeLoop_node (e := e) hu hd hl he]
      exact ⟨_, _, by simp only [hel]; rfl⟩
    | node l' r' =>
      obtain ⟨e, he, hel, _⟩ := holds_node.mp hc
      rw [decodeLoop_node (e := e) hu hd hl he]
      obtain ⟨c, tr, hh⟩ := ih (s := { s.seek (s.inPos + 1) with cur := if b then d.right else d.left })
        ((holds_congr (by rfl) _ _).trans hc) hpt hu'
      refine ⟨c, tr, ?_⟩
      simp only [hel]
      refine hh.trans ?_
      congr 1
      simp [State.seek, State.mark]
      omega

/-- The bits of one symbol, from the root: a path, or one bit when the root is a leaf (R171). -/
theorem decodeLoop_symbol {t : HTree} {p : Bits} {k : Nat} {s : State} {sym : Symbol} {rest : Bits}
    (h : s.holds t s.root = true) (hc : s.cur = s.root) (hp : t.spells sym p = true) (hu : s.unread = p ++ rest) :
    ∃ c tr, decodeLoop (k + p.length) s =
      atLeaf k sym { s with cur := c, inPos := s.inPos + p.length, portTrace := tr } := by
  cases t with
  | node l r => exact decodeLoop_path (by rw [hc]; exact h) (by simpa [HTree.spells] using hp) hu
  | leaf x =>
    simp only [HTree.spells, Bool.and_eq_true, decide_eq_true_eq] at hp
    obtain ⟨rfl, hl⟩ := hp
    obtain ⟨b, rfl⟩ := List.length_eq_one_iff.mp hl
    obtain ⟨d, hd, hdl, rfl⟩ := holds_leaf.mp h
    obtain ⟨hr, _⟩ := readBit (rest := rest) (s := s) (b := b) hu
    refine ⟨s.cur, (s.seek (s.inPos + 1)).portTrace, ?_⟩
    have h1 : (s.seek (s.inPos + 1)).nodeAt (s.seek (s.inPos + 1)).cur = some d := by
      rw [show (s.seek (s.inPos + 1)).cur = s.root from hc]; exact hd
    simp only [List.length_singleton, decodeLoop, hr, h1, walkBit, hdl, if_true, atLeaf]
    rfl

/-- The bits of a sequence of bytes: each is written in turn. -/
theorem decodeLoop_bytes {t : HTree} (ws : List (Byte × Bits)) {k : Nat} {s : State} {rest : Bits}
    (h : s.holds t s.root = true) (hc : s.cur = s.root) (hp : ∀ w ∈ ws, t.spells (byteSymbol w.1) w.2 = true)
    (hu : s.unread = ws.flatMap Prod.snd ++ rest) :
    ∃ tr, decodeLoop (k + (ws.flatMap Prod.snd).length) s = decodeLoop k { s with
      outBits := s.outBits ++ bitsOf (ws.map Prod.fst)
      inPos := s.inPos + (ws.flatMap Prod.snd).length
      portTrace := tr } := by
  induction ws generalizing s with
  | nil => exact ⟨s.portTrace, by simp⟩
  | cons w ws ih =>
    obtain ⟨b, p⟩ := w
    simp only [List.flatMap_cons, List.append_assoc] at hu
    obtain ⟨c, tr, e⟩ := decodeLoop_symbol (k := k + (ws.flatMap Prod.snd).length) h hc (hp (b, p) (by simp)) hu
    have hne : ¬ (byteSymbol b = Config.pseudoEof) := by
      intro he
      have := congrArg BitVec.toNat he
      have hb := b.isLt
      simp [byteSymbol] at this
      omega
    have hv : (byteSymbol b).toNat = b.toNat := by
      have hb := b.isLt
      simp [byteSymbol]
      omega
    rw [atLeaf, if_neg hne, hv] at e
    have hu' : State.unread { writeBits 8 b.toNat { s with cur := c, inPos := s.inPos + p.length, portTrace := tr }
        with cur := s.root } = ws.flatMap Prod.snd ++ rest := by
      have : s.unread.drop p.length = ws.flatMap Prod.snd ++ rest := by rw [hu]; simp
      rw [← this]
      simp [State.unread, List.drop_drop]
    obtain ⟨tr', e'⟩ := ih (s := { writeBits 8 b.toNat { s with cur := c, inPos := s.inPos + p.length, portTrace := tr }
      with cur := s.root }) ((holds_congr (by simp) _ _).trans h) (by simp)
      (fun w hw => hp w (by simp [hw])) hu'
    refine ⟨tr', ?_⟩
    rw [List.flatMap_cons, List.length_append, show k + (p.length + (ws.flatMap Prod.snd).length) =
      k + (ws.flatMap Prod.snd).length + p.length by omega]
    refine e.trans (e'.trans ?_)
    congr 1
    simp [writeBits, writeStr, State.mark, hc]
    omega

/-- Bits that lead to no leaf end in TruncatedPayload (R170), with every bit read. -/
theorem decodeLoop_path_short {p : Bits} {l r : HTree} {k : Nat} {s : State} {sym : Symbol} {q : Bits}
    (h : s.holds (.node l r) s.cur = true) (hp : (sym, p ++ q) ∈ (HTree.node l r).paths) (hq : q ≠ [])
    (hu : s.unread = p) :
    ∃ c tr, decodeLoop (k + p.length + 1) s =
      .next (raise .truncatedPayload 1 0 { s with cur := c, inPos := s.inBits.length, portTrace := tr }) := by
  induction p generalizing l r s with
  | nil =>
    refine ⟨s.cur, (s.seek s.inBits.length).portTrace, ?_⟩
    simp only [decodeLoop, readBits_none (n := 1) (s := s) (by simp [hu])]
    rfl
  | cons b p ih =>
    obtain ⟨d, hd, hl, h1, h2⟩ := holds_node.mp h
    obtain ⟨t, hc, hpt⟩ : ∃ t : HTree, s.holds t (if b then d.right else d.left) = true ∧ (sym, p ++ q) ∈ t.paths := by
      simp only [List.cons_append, HTree.paths, List.mem_append, List.mem_map, Prod.exists, Prod.mk.injEq] at hp
      rcases hp with ⟨_, _, hp, rfl, e⟩ | ⟨_, _, hp, rfl, e⟩ <;> cases e
      · exact ⟨l, h1, hp⟩
      · exact ⟨r, h2, hp⟩
    obtain ⟨_, hu'⟩ := readBit (rest := p) (s := s) (b := b) hu
    rw [List.length_cons, ← Nat.add_assoc]
    cases t with
    | leaf x =>
      simp only [HTree.paths, List.mem_singleton, Prod.mk.injEq, List.append_eq_nil_iff] at hpt
      exact absurd hpt.2.2 hq
    | node l' r' =>
      obtain ⟨e, he, hel, _⟩ := holds_node.mp hc
      rw [decodeLoop_node (e := e) hu hd hl he]
      obtain ⟨c, tr, hh⟩ := ih (s := { s.seek (s.inPos + 1) with cur := if b then d.right else d.left })
        ((holds_congr (by rfl) _ _).trans hc) hpt hu'
      refine ⟨c, tr, ?_⟩
      simp only [hel]
      exact hh

theorem decodeLoop_short {t : HTree} {p : Bits} {k : Nat} {s : State} (h : s.holds t s.root = true)
    (hc : s.cur = s.root) (hp : t.unfinished p = true) (hu : s.unread = p) :
    ∃ c tr, decodeLoop (k + p.length + 1) s =
      .next (raise .truncatedPayload 1 0 { s with cur := c, inPos := s.inBits.length, portTrace := tr }) := by
  cases t with
  | leaf x =>
    simp only [HTree.unfinished, decide_eq_true_eq] at hp
    subst hp
    refine ⟨s.cur, (s.seek s.inBits.length).portTrace, ?_⟩
    simp only [decodeLoop, readBits_none (n := 1) (s := s) (by simp [hu])]
    rfl
  | node l r =>
    simp only [HTree.unfinished, List.any_eq_true, Bool.and_eq_true, List.isPrefixOf_iff_prefix,
      decide_eq_true_eq] at hp
    obtain ⟨⟨sym, b⟩, hm, ⟨q, hq⟩, hne⟩ := hp
    simp only at hq hne
    subst hq
    exact decodeLoop_path_short (by rw [hc]; exact h) hm (by rintro rfl; simp at hne) hu

end Sys2Proof.Machine
end

