-- ==== Sys2Proof/Laws/Forest.lean ====
section
/-! SUPPORT. How the node store grows into a tree: a forest whose roots are still pending, one new_node at a time, and
what the invariant of 10_state.md R26 says of the one tree at the end. -/

namespace Sys2Proof.Machine

/-- The entries in use form a forest with these roots. -/
structure Forest (s : State) (roots : List NodeIx) : Prop where
  nodup : roots.Nodup
  bound : ∀ i ∈ roots, i.toNat < s.ncount.toNat
  cap : s.ncount.toNat ≤ 513
  ok : ∀ i < s.ncount.toNat, s.nodeOk i = true
  parents : ∀ j < s.ncount.toNat, s.parents j = if (∃ r ∈ roots, r.toNat = j) then 0 else 1

theorem Forest.perm {s : State} {a b : List NodeIx} (h : Forest s a) (p : a.Perm b) : Forest s b where
  nodup := p.nodup_iff.mp h.nodup
  bound := fun i hi => h.bound i (p.mem_iff.mpr hi)
  cap := h.cap
  ok := h.ok
  parents := fun j hj => by
    rw [h.parents j hj]
    simp only [p.mem_iff]

/-- The forest depends on the node store alone. -/
theorem Forest.congr {s t : State} {a : List NodeIx} (h : Forest s a) (hn : t.nodes = s.nodes)
    (hc : t.ncount = s.ncount) : Forest t a where
  nodup := h.nodup
  bound := by rw [hc]; exact h.bound
  cap := by rw [hc]; exact h.cap
  ok := by
    rw [hc]
    intro i hi
    have := h.ok i hi
    rwa [State.nodeOk, ← hn] at this
  parents := by
    rw [hc]
    intro j hj
    rw [← h.parents j hj]
    simp only [State.parents, State.isParent, hn, hc]

theorem Forest.empty {s : State} (h : s.ncount = 0) : Forest s [] where
  nodup := List.nodup_nil
  bound := by simp
  cap := by simp [h]
  ok := by simp [h]
  parents := by simp [h]

/-- What the store holds after new_node. -/
theorem newNode_nodes {n : Node} {s t : State} {i : NodeIx} (h : newNode n s = some (i, t)) (x : Nat) :
    t.nodes[x]? = if x = s.ncount.toNat then some n else s.nodes[x]? := by
  obtain ⟨hlt, rfl, rfl⟩ := newNode_eq_some h
  simp only [Vector.getElem?_set]
  split
  · next e => subst e; simp
  · next e => simp [Ne.symm e]

theorem newNode_ncount {n : Node} {s t : State} {i : NodeIx} (h : newNode n s = some (i, t)) :
    t.ncount.toNat = s.ncount.toNat + 1 := by
  obtain ⟨hlt, rfl, rfl⟩ := newNode_eq_some h
  exact toNat_ncount_succ hlt

theorem newNode_index {n : Node} {s t : State} {i : NodeIx} (h : newNode n s = some (i, t)) : i = s.ncount :=
  (newNode_eq_some h).2.1

/-- new_node touches the store and its count only. -/
theorem newNode_frame {n : Node} {s t : State} {i : NodeIx} (h : newNode n s = some (i, t)) :
    t = { s with nodes := t.nodes, ncount := t.ncount } := by
  obtain ⟨hlt, rfl, rfl⟩ := newNode_eq_some h
  rfl

theorem newNode_lt {n : Node} {s t : State} {i : NodeIx} (h : newNode n s = some (i, t)) : s.ncount.toNat < 513 :=
  (newNode_eq_some h).1

/-- Children lie below their parent, so an entry not yet in use is nobody's child. -/
theorem parents_beyond {s : State} (hok : ∀ i < s.ncount.toNat, s.nodeOk i = true) {j : Nat}
    (hj : s.ncount.toNat ≤ j) : s.parents j = 0 := by
  rw [State.parents, List.countP_eq_zero]
  intro i hi hp
  rw [List.mem_range] at hi
  have := hok i hi
  rw [State.nodeOk] at this
  rw [State.isParent] at hp
  split at hp
  · next d hd =>
    rw [hd] at this
    simp only at this
    cases hl : d.leaf
    · simp [hl] at this hp
      omega
    · simp [hl] at hp
  · simp at hp

theorem isParent_newNode {n : Node} {s t : State} {i : NodeIx} (h : newNode n s = some (i, t)) (x j : Nat) :
    t.isParent x j = if x = s.ncount.toNat then (!n.leaf && (decide (n.left.toNat = j) || decide (n.right.toNat = j)))
      else s.isParent x j := by
  simp only [State.isParent, newNode_nodes h]
  by_cases e : x = s.ncount.toNat <;> simp [e]

theorem parents_newNode {n : Node} {s t : State} {i : NodeIx} (h : newNode n s = some (i, t)) (j : Nat) :
    t.parents j = s.parents j +
      if (n.leaf = false ∧ (n.left.toNat = j ∨ n.right.toNat = j)) then 1 else 0 := by
  rw [State.parents, newNode_ncount h, List.range_succ, List.countP_append, State.parents]
  congr 1
  · apply List.countP_congr
    intro x hx
    rw [List.mem_range] at hx
    rw [isParent_newNode h, if_neg (by omega)]
  · simp only [List.countP_cons, List.countP_nil, isParent_newNode h, if_true, Nat.zero_add]
    simp

theorem nodeOk_newNode {n : Node} {s t : State} {i : NodeIx} (h : newNode n s = some (i, t)) {x : Nat}
    (hx : x < s.ncount.toNat) : t.nodeOk x = s.nodeOk x := by
  simp only [State.nodeOk, newNode_nodes h, if_neg (show ¬ x = s.ncount.toNat by omega)]

/-- A new leaf is a new root. -/
theorem Forest.newLeaf {s t : State} {roots : List NodeIx} {i : NodeIx} {n : Node} (hf : Forest s roots)
    (h : newNode n s = some (i, t)) (hl : n.leaf = true) (hs : n.sym.toNat ≤ 256) : Forest t (i :: roots) := by
  have hc := newNode_ncount h
  have hi := newNode_index h
  have hlt := newNode_lt h
  refine ⟨?_, ?_, by omega, ?_, ?_⟩
  · rw [List.nodup_cons]
    refine ⟨fun hm => ?_, hf.nodup⟩
    have := hf.bound _ hm
    rw [hi] at this
    omega
  · intro x hx
    rcases List.mem_cons.mp hx with rfl | hx
    · rw [hi]; omega
    · have := hf.bound _ hx; omega
  · intro x hx
    rcases Nat.lt_succ_iff_lt_or_eq.mp (hc ▸ hx) with hx | rfl
    · rw [nodeOk_newNode h hx]; exact hf.ok x hx
    · simp [State.nodeOk, newNode_nodes h, hl, hs]
  · intro j hj
    rw [parents_newNode h, if_neg (by simp [hl]), Nat.add_zero]
    rcases Nat.lt_succ_iff_lt_or_eq.mp (hc ▸ hj) with hj | rfl
    · rw [hf.parents j hj]
      congr 1
      apply propext
      simp only [List.mem_cons, exists_eq_or_imp, hi]
      constructor
      · exact fun h => .inr h
      · rintro (h | h)
        · omega
        · exact h
    · rw [parents_beyond hf.ok le_rfl, if_pos]
      exact ⟨i, by simp, by rw [hi]⟩

/-- A new internal node takes two roots as its children and is a root in their place. -/
theorem Forest.newInternal {s t : State} {roots : List NodeIx} {i l r : NodeIx} {n : Node}
    (hf : Forest s (l :: r :: roots)) (h : newNode n s = some (i, t)) (hn : n.leaf = false) (hnl : n.left = l)
    (hnr : n.right = r) : Forest t (i :: roots) := by
  have hc := newNode_ncount h
  have hi := newNode_index h
  have hlt := newNode_lt h
  have hnd := hf.nodup
  simp only [List.nodup_cons, List.mem_cons, not_or] at hnd
  have hbl := hf.bound l (by simp)
  have hbr := hf.bound r (by simp)
  refine ⟨?_, ?_, by omega, ?_, ?_⟩
  · rw [List.nodup_cons]
    refine ⟨fun hm => ?_, hnd.2.2⟩
    have := hf.bound i (by simp [hm])
    rw [hi] at this
    omega
  · intro x hx
    rcases List.mem_cons.mp hx with rfl | hx
    · rw [hi]; omega
    · have := hf.bound x (by simp [hx]); omega
  · intro x hx
    rcases Nat.lt_succ_iff_lt_or_eq.mp (hc ▸ hx) with hx | rfl
    · rw [nodeOk_newNode h hx]; exact hf.ok x hx
    · simp [State.nodeOk, newNode_nodes h, hn, hnl, hnr, hnd.1.1, hbl, hbr]
  · intro j hj
    rw [parents_newNode h, hnl, hnr]
    simp only [hn, true_and]
    rcases Nat.lt_succ_iff_lt_or_eq.mp (hc ▸ hj) with hj | rfl
    · rw [hf.parents j hj]
      have hij : ¬ (i.toNat = j) := by rw [hi]; omega
      by_cases h1 : l.toNat = j
      · subst h1
        have : ¬ ∃ x ∈ i :: roots, x.toNat = l.toNat := by
          rintro ⟨x, hx, e⟩
          rcases List.mem_cons.mp hx with rfl | hx
          · exact hij e
          · exact hnd.1.2 (BitVec.eq_of_toNat_eq e ▸ hx)
        rw [if_neg this]
        simp
      · by_cases h2 : r.toNat = j
        · subst h2
          have : ¬ ∃ x ∈ i :: roots, x.toNat = r.toNat := by
            rintro ⟨x, hx, e⟩
            rcases List.mem_cons.mp hx with rfl | hx
            · exact hij e
            · exact hnd.2.1 (BitVec.eq_of_toNat_eq e ▸ hx)
          rw [if_neg this]
          simp
        · rw [if_neg (show ¬ (l.toNat = j ∨ r.toNat = j) by tauto), Nat.add_zero]
          congr 1
          apply propext
          simp [h1, h2, hij]
    · rw [parents_beyond hf.ok le_rfl, if_neg (by omega), if_pos]
      exact ⟨i, by simp, by rw [hi]⟩

/-- The invariant of 10_state.md R26 is about the node store alone. -/
theorem TreeOk.congr {s t : State} (h : s.TreeOk) (hn : t.nodes = s.nodes) (hc : t.ncount = s.ncount)
    (hr : t.root = s.root) : t.TreeOk := by
  simp only [State.TreeOk, State.nodeOk, State.parents, State.isParent] at h ⊢
  rw [hn, hc, hr]
  exact h

/-- A forest with one root is a tree: the invariant of 10_state.md R26. -/
theorem Forest.treeOk {s : State} (hf : Forest s [s.root]) : s.TreeOk := by
  have hb := hf.bound s.root (by simp)
  refine ⟨hb, hf.ok, ?_, ?_⟩
  · rw [hf.parents _ hb, if_pos ⟨s.root, by simp, rfl⟩]
  · intro j hj hne
    rw [hf.parents j hj, if_neg]
    rintro ⟨x, hx, rfl⟩
    simp at hx
    exact hne (by rw [hx])

/-! ### The tree of a store that meets R26 -/

/-- Below the bound, children lie below their parent, so every entry holds a tree. -/
theorem exists_tree {s : State} (hok : ∀ i < s.ncount.toNat, s.nodeOk i = true) (i : NodeIx)
    (hi : i.toNat < s.ncount.toNat) : ∃ t : HTree, s.holds t i = true ∧ t.symbolsOk = true := by
  induction h : i.toNat using Nat.strong_induction_on generalizing i with
  | _ n ih =>
    subst h
    have := hok i.toNat hi
    rw [State.nodeOk] at this
    split at this
    · next d hd =>
      have hd' : s.nodeAt i = some d := hd
      cases hl : d.leaf
      · simp [hl] at this
        obtain ⟨l, hl1, hl2⟩ := ih d.left.toNat this.1.2 d.left (by omega) rfl
        obtain ⟨r, hr1, hr2⟩ := ih d.right.toNat this.2 d.right (by omega) rfl
        refine ⟨.node l r, holds_node.mpr ⟨d, hd', hl, hl1, hr1⟩, ?_⟩
        simp only [HTree.symbolsOk, HTree.symbols, List.all_append, Bool.and_eq_true]
        exact ⟨hl2, hr2⟩
      · simp [hl] at this
        exact ⟨.leaf d.sym, holds_leaf.mpr ⟨d, hd', hl, rfl⟩, by simp [HTree.symbolsOk, HTree.symbols, this]⟩
    · cases this

/-- The indices of a held tree, its root first. -/
def indices (s : State) : HTree → NodeIx → List Nat
  | .leaf _, i => [i.toNat]
  | .node l r, i =>
    match s.nodeAt i with
    | some d => i.toNat :: (indices s l d.left ++ indices s r d.right)
    | none => [i.toNat]

theorem length_indices {s : State} {t : HTree} {i : NodeIx} (h : s.holds t i = true) :
    (indices s t i).length = t.size := by
  induction t generalizing i with
  | leaf _ => rfl
  | node l r ihl ihr =>
    obtain ⟨d, hd, _, h1, h2⟩ := holds_node.mp h
    simp [indices, hd, HTree.size, ihl h1, ihr h2]

theorem indices_le {s : State} (hok : ∀ i < s.ncount.toNat, s.nodeOk i = true) {t : HTree} {i : NodeIx}
    (hi : i.toNat < s.ncount.toNat) (h : s.holds t i = true) {x : Nat} (hx : x ∈ indices s t i) : x ≤ i.toNat := by
  induction t generalizing i with
  | leaf _ => simp [indices] at hx; omega
  | node l r ihl ihr =>
    obtain ⟨d, hd, hl, h1, h2⟩ := holds_node.mp h
    have := hok i.toNat hi
    rw [State.nodeOk, show s.nodes[i.toNat]? = some d from hd] at this
    simp [hl] at this
    simp [indices, hd] at hx
    rcases hx with rfl | hx | hx
    · exact le_rfl
    · have := ihl (by omega) h1 hx; omega
    · have := ihr (by omega) h2 hx; omega

/-- An index of a held tree is its root or has a parent in it. -/
theorem indices_parent {s : State} {t : HTree} {i : NodeIx} (h : s.holds t i = true) {x : Nat}
    (hx : x ∈ indices s t i) : x = i.toNat ∨ ∃ p ∈ indices s t i, s.isParent p x = true := by
  induction t generalizing i with
  | leaf _ => simp [indices] at hx; exact .inl hx
  | node l r ihl ihr =>
    obtain ⟨d, hd, hl, h1, h2⟩ := holds_node.mp h
    simp only [indices, hd, List.mem_cons, List.mem_append] at hx ⊢
    have hp : ∀ c : NodeIx, c = d.left ∨ c = d.right → s.isParent i.toNat c.toNat = true := by
      intro c hc
      rw [State.isParent, show s.nodes[i.toNat]? = some d from hd]
      rcases hc with rfl | rfl <;> simp [hl]
    rcases hx with rfl | hx | hx
    · exact .inl rfl
    · rcases ihl h1 hx with rfl | ⟨p, hm, e⟩
      · exact .inr ⟨i.toNat, .inl rfl, hp _ (.inl rfl)⟩
      · exact .inr ⟨p, .inr (.inl hm), e⟩
    · rcases ihr h2 hx with rfl | ⟨p, hm, e⟩
      · exact .inr ⟨i.toNat, .inl rfl, hp _ (.inr rfl)⟩
      · exact .inr ⟨p, .inr (.inr hm), e⟩

theorem isParent_lt {s : State} (hok : ∀ i < s.ncount.toNat, s.nodeOk i = true) {p x : Nat}
    (hp : p < s.ncount.toNat) (h : s.isParent p x = true) : x < p := by
  have := hok p hp
  rw [State.nodeOk] at this
  rw [State.isParent] at h
  split at h
  · next d hd =>
    rw [hd] at this
    simp only at this
    cases hl : d.leaf
    · simp [hl] at this h
      omega
    · simp [hl] at h
  · cases h

/-- Two entries in use that have a child in common are one. -/
theorem parent_unique {s : State} {j a b : Nat} (h1 : s.parents j ≤ 1) (ha : a < s.ncount.toNat)
    (hb : b < s.ncount.toNat) (hpa : s.isParent a j = true) (hpb : s.isParent b j = true) : a = b := by
  rw [State.parents, List.countP_eq_length_filter] at h1
  have hma : a ∈ (List.range s.ncount.toNat).filter (fun i => s.isParent i j) := by simp [ha, hpa]
  have hmb : b ∈ (List.range s.ncount.toNat).filter (fun i => s.isParent i j) := by simp [hb, hpb]
  match hl : (List.range s.ncount.toNat).filter (fun i => s.isParent i j) with
  | [] => rw [hl] at hma; cases hma
  | [x] => rw [hl] at hma hmb; simp at hma hmb; omega
  | x :: y :: rest => rw [hl] at h1; simp at h1

/-- Two subtrees under one node have no entry in common. -/
theorem indices_disjoint {s : State} (hok : ∀ i < s.ncount.toNat, s.nodeOk i = true)
    (hone : ∀ j < s.ncount.toNat, s.parents j ≤ 1) {l r : HTree} {i : NodeIx} {d : Node}
    (hi : i.toNat < s.ncount.toNat) (hd : s.nodeAt i = some d) (hl : d.leaf = false) (h1 : s.holds l d.left = true)
    (h2 : s.holds r d.right = true) : ∀ x, x ∈ indices s l d.left → x ∈ indices s r d.right → False := by
  have hk := hok i.toNat hi
  rw [State.nodeOk, show s.nodes[i.toNat]? = some d from hd] at hk
  simp [hl] at hk
  have hpi : ∀ c : NodeIx, c = d.left ∨ c = d.right → s.isParent i.toNat c.toNat = true := by
    intro c hc
    rw [State.isParent, show s.nodes[i.toNat]? = some d from hd]
    rcases hc with rfl | rfl <;> simp [hl]
  suffices ∀ n x, s.ncount.toNat - x = n → x ∈ indices s l d.left → x ∈ indices s r d.right → False from
    fun x => this _ x rfl
  intro n
  induction n using Nat.strong_induction_on with
  | _ n ih =>
    intro x hn hxl hxr
    have hle := indices_le hok (by omega) h1 hxl
    have hre := indices_le hok (by omega) h2 hxr
    have hx1 := hone x (by omega)
    rcases indices_parent h1 hxl with e1 | ⟨p, hp, ep⟩ <;> rcases indices_parent h2 hxr with e2 | ⟨q, hq, eq⟩
    · exact hk.1.1 (BitVec.eq_of_toNat_eq (e1 ▸ e2))
    · have hq' := indices_le hok (by omega) h2 hq
      have := parent_unique hx1 hi (by omega) (e1 ▸ hpi _ (.inl rfl)) eq
      omega
    · have hp' := indices_le hok (by omega) h1 hp
      have := parent_unique hx1 hi (by omega) (e2 ▸ hpi _ (.inr rfl)) ep
      omega
    · have hp' := indices_le hok (by omega) h1 hp
      have hq' := indices_le hok (by omega) h2 hq
      have := parent_unique hx1 (by omega) (by omega) ep eq
      subst this
      have hlt := isParent_lt hok (show p < s.ncount.toNat by omega) ep
      exact ih (s.ncount.toNat - p) (by omega) p rfl hp hq

theorem nodup_indices {s : State} (hok : ∀ i < s.ncount.toNat, s.nodeOk i = true)
    (hone : ∀ j < s.ncount.toNat, s.parents j ≤ 1) {t : HTree} {i : NodeIx} (hi : i.toNat < s.ncount.toNat)
    (h : s.holds t i = true) : (indices s t i).Nodup := by
  induction t generalizing i with
  | leaf _ => simp [indices]
  | node l r ihl ihr =>
    obtain ⟨d, hd, hl, h1, h2⟩ := holds_node.mp h
    have hk := hok i.toNat hi
    rw [State.nodeOk, show s.nodes[i.toNat]? = some d from hd] at hk
    simp [hl] at hk
    simp only [indices, hd, List.nodup_cons, List.mem_append, List.nodup_append]
    refine ⟨?_, ihl (by omega) h1, ihr (by omega) h2, ?_⟩
    · rintro (hx | hx)
      · have := indices_le hok (by omega) h1 hx; omega
      · have := indices_le hok (by omega) h2 hx; omega
    · rintro a ha b hb rfl
      exact indices_disjoint hok hone hi hd hl h1 h2 a ha hb

theorem TreeOk.parents_le {s : State} (h : s.TreeOk) : ∀ j < s.ncount.toNat, s.parents j ≤ 1 := by
  intro j hj
  by_cases e : j = s.root.toNat
  · rw [e, h.2.2.1]; omega
  · rw [h.2.2.2 j hj e]

/-- The store that meets R26 holds a tree at ROOT, and the tree has no more nodes than the store has entries in use. -/
theorem TreeOk.tree {s : State} (h : s.TreeOk) :
    ∃ t : HTree, s.holds t s.root = true ∧ t.symbolsOk = true ∧ t.size ≤ s.ncount.toNat := by
  obtain ⟨t, ht, hs⟩ := exists_tree h.2.1 s.root h.1
  refine ⟨t, ht, hs, ?_⟩
  have hn := nodup_indices h.2.1 (TreeOk.parents_le h) h.1 ht
  rw [← length_indices ht]
  have hsub : indices s t s.root ⊆ List.range s.ncount.toNat := fun x hx =>
    List.mem_range.mpr (lt_of_le_of_lt (indices_le h.2.1 h.1 ht hx) h.1)
  have := (List.subperm_of_subset hn hsub).length_le
  simpa using this

theorem ncount_le {s : State} (h : s.TreeOk) : s.ncount.toNat ≤ 513 := by
  by_contra hc
  have := h.2.1 513 (by omega)
  simp [State.nodeOk] at this

/-- A tree of a store that meets R26 is at most MAXLEN high (00_scope.md R13). -/
theorem TreeOk.height {s : State} (h : s.TreeOk) {t : HTree} (ht : s.holds t s.root = true) : t.height ≤ 256 := by
  obtain ⟨t', ht', _, hsz⟩ := TreeOk.tree h
  rw [holds_unique ht ht']
  have := t'.size_add_one
  have := t'.height_lt
  have := ncount_le h
  omega

end Sys2Proof.Machine
end

