-- ==== Sys2Proof/Laws/ReadTree.lean ====
section
/-! SUPPORT. What RDTREE does with the bits it reads: it succeeds exactly on a tree header, and then holds that tree
(42_header_codec.md R148, R149). -/

namespace Sys2Proof.Machine

/-! ### One token -/

theorem toNat_marks_succ {m : BitVec 10} (h : m.toNat ≤ 513) : (m + 1).toNat = m.toNat + 1 := by
  rw [BitVec.toNat_add]
  simp
  omega

theorem marks_full_iff {m : BitVec 10} (h : m.toNat ≤ 513) : m + 1 > 513 ↔ m.toNat = 513 := by
  rw [gt_iff_lt, BitVec.lt_def, toNat_marks_succ h]
  simp
  omega

theorem fetchToken_eos {s : State} (hu : s.unread = []) :
    fetchToken s = .raised (raise .malformedHeader 1 0 (s.seek s.inBits.length)) := by
  rw [fetchToken, readBits_none (by simp [hu])]

theorem fetchToken_full {s : State} {b : Bool} {rest : Bits} (hu : s.unread = b :: rest) (hm : s.marks.toNat = 513) :
    fetchToken s = .raised (raise .malformedHeader 4 514 (countMark (s.seek (s.inPos + 1)))) := by
  obtain ⟨hr, _⟩ := readBit hu
  have e : s.marks = 513 := BitVec.eq_of_toNat_eq hm
  rw [fetchToken, hr]
  simp [e]

theorem fetchToken_internal {s : State} {rest : Bits} (hu : s.unread = false :: rest) (hm : s.marks.toNat < 513) :
    fetchToken s = .token .internal (countMark (s.seek (s.inPos + 1))) := by
  obtain ⟨hr, _⟩ := readBit hu
  have hf : ¬ (countMark (s.seek (s.inPos + 1))).marks > 513 := by
    rw [countMark_marks, seek_marks, marks_full_iff (by omega)]; omega
  rw [fetchToken, hr]
  dsimp only
  rw [if_neg hf]
  rfl

theorem fetchToken_short {s : State} {rest : Bits} (hu : s.unread = true :: rest) (hm : s.marks.toNat < 513)
    (hl : rest.length < 9) :
    fetchToken s = .raised (raise .malformedHeader 2 0 ((countMark (s.seek (s.inPos + 1))).seek s.inBits.length)) := by
  obtain ⟨hr, hu'⟩ := readBit hu
  have hf : ¬ (countMark (s.seek (s.inPos + 1))).marks > 513 := by
    rw [countMark_marks, seek_marks, marks_full_iff (by omega)]; omega
  rw [fetchToken, hr]
  dsimp only
  rw [if_neg hf]
  have h9 := readBits_none (n := 9) (s := countMark (s.seek (s.inPos + 1))) (by
    rw [show (countMark (s.seek (s.inPos + 1))).unread = rest from hu']; exact hl)
  simp only [Bool.toNat_true, decide_true, tokenLength, if_true, h9]
  rfl

theorem fetchToken_leaf {s : State} {rest : Bits} (hu : s.unread = true :: rest) (hm : s.marks.toNat < 513)
    (hl : 9 ≤ rest.length) :
    fetchToken s = .token (.leaf (BitVec.ofNat 9 (val (rest.take 9))))
      ((countMark (s.seek (s.inPos + 1))).seek (s.inPos + 1 + 9)) := by
  obtain ⟨hr, hu'⟩ := readBit hu
  have hf : ¬ (countMark (s.seek (s.inPos + 1))).marks > 513 := by
    rw [countMark_marks, seek_marks, marks_full_iff (by omega)]; omega
  have hu2 : (countMark (s.seek (s.inPos + 1))).unread = rest := hu'
  rw [fetchToken, hr]
  dsimp only
  rw [if_neg hf]
  have h9 := readBits_some (n := 9) (s := countMark (s.seek (s.inPos + 1))) (by rw [hu2]; exact hl) (by decide)
  rw [hu2] at h9
  simp only [Bool.toNat_true, decide_true, tokenLength, if_true, h9]
  rfl

/-! ### Whole headers -/

/-- How RDTREE goes on after a token. -/
def resume (k : Nat) : Parsed → Outcome
  | .more u => readTree k u
  | .complete u => .next u
  | .raised u => .next u
  | .full => .fault .nodeStoreFull

theorem readTree_token {k : Nat} {s t : State} {tok : Token} (h : fetchToken s = .token tok t) :
    readTree (k + 1) s = resume k (takeToken tok t) := by
  rw [readTree, h]
  rfl

theorem readTree_raised {k : Nat} {s t : State} (h : fetchToken s = .raised t) : readTree (k + 1) s = .next t := by
  rw [readTree, h]

/-- What waits does not matter to a finished subtree beyond the list given. -/
theorem subtreeDone_rdStack (st : List RdFrame) (i : NodeIx) (s : State) (l : List RdFrame) :
    subtreeDone st i { s with rdStack := l } = subtreeDone st i s := by
  induction st generalizing i s with
  | nil => rfl
  | cons f st ih =>
    cases f with
    | waitLeft => rfl
    | waitRight x =>
      by_cases hlt : s.ncount.toNat < 513
      · rw [subtreeDone, subtreeDone, newNode_some hlt, newNode_some (s := { s with rdStack := l }) hlt]
        exact ih s.ncount { s with
          nodes := s.nodes.set s.ncount.toNat { leaf := false, sym := 0, weight := 0, left := x, right := i } hlt
          ncount := s.ncount + 1 }
      · rw [subtreeDone, subtreeDone, newNode, newNode, dif_neg hlt, dif_neg hlt]

theorem holds_mono {s t : State} {tr : HTree} {i : NodeIx} (h : s.holds tr i = true)
    (hag : ∀ x ∈ indices s tr i, t.nodes[x]? = s.nodes[x]?) :
    t.holds tr i = true ∧ indices t tr i = indices s tr i := by
  induction tr generalizing i with
  | leaf sym =>
    obtain ⟨d, hd, hl, rfl⟩ := holds_leaf.mp h
    have := hag i.toNat (by simp [indices])
    exact ⟨holds_leaf.mpr ⟨d, by rw [State.nodeAt, this]; exact hd, hl, rfl⟩, rfl⟩
  | node l r ihl ihr =>
    obtain ⟨d, hd, hl, h1, h2⟩ := holds_node.mp h
    simp only [indices, hd, List.mem_cons, List.mem_append] at hag
    have hd' : t.nodeAt i = some d := by rw [State.nodeAt, hag _ (.inl rfl)]; exact hd
    obtain ⟨e1, e2⟩ := ihl h1 (fun x hx => hag x (.inr (.inl hx)))
    obtain ⟨e3, e4⟩ := ihr h2 (fun x hx => hag x (.inr (.inr hx)))
    exact ⟨holds_node.mpr ⟨d, hd', hl, e1, e3⟩, by simp [indices, hd, hd', e2, e4]⟩

/-- What reading a header leaves, before the callers of rd() go on: the subtree at the last index made. -/
structure ReadSubtree (t : HTree) (rest : Bits) (s s' : State) (ix : NodeIx) : Prop where
  index : ix.toNat + 1 = s'.ncount.toNat
  holds : s'.holds t ix = true
  below : ∀ x ∈ indices s' t ix, x < s'.ncount.toNat
  unread : s'.unread = rest
  marks : s'.marks.toNat = s.marks.toNat + t.size
  ncount : s'.ncount.toNat = s.ncount.toNat + t.size
  kept : ∀ x < s.ncount.toNat, s'.nodes[x]? = s.nodes[x]?
  weight : ∀ x, s.ncount.toNat ≤ x → x < s'.ncount.toNat → (s'.nodes[x]?.map Node.weight) = some 0
  forest : ∀ {roots}, Forest s roots → Forest s' (ix :: roots)
  frame : s' = { s with
    nodes := s'.nodes
    ncount := s'.ncount
    marks := s'.marks
    inPos := s.inPos + t.header.length
    portTrace := s'.portTrace
    rdStack := s'.rdStack }

theorem readTree_header (t : HTree) {k : Nat} {s : State} {rest : Bits} (hu : s.unread = t.header ++ rest)
    (hm : s.marks.toNat + t.size ≤ 513) (hn : s.ncount.toNat + t.size ≤ 513) (hs : t.symbolsOk = true) :
    ∃ ix s', readTree (k + t.size) s = resume k (subtreeDone s.rdStack ix s') ∧ ReadSubtree t rest s s' ix := by
  induction t generalizing k s rest with
  | leaf sym =>
    simp only [HTree.header, List.cons_append] at hu
    simp only [HTree.size] at hm hn ⊢
    have hsym : sym.toNat ≤ 256 := by simpa [HTree.symbolsOk, HTree.symbols] using hs
    have hf := fetchToken_leaf hu (by omega) (by simp)
    have hv : BitVec.ofNat 9 (val ((bin 9 sym.toNat ++ rest).take 9)) = sym := by
      apply BitVec.eq_of_toNat_eq
      have h9 : (bin 9 sym.toNat ++ rest).take 9 = bin 9 sym.toNat := by simp
      rw [h9, val_bin_of_lt sym.isLt]
      simp
    rw [hv] at hf
    rw [readTree_token hf]
    obtain ⟨u, hdef⟩ : ∃ u, u = (countMark (s.seek (s.inPos + 1))).seek (s.inPos + 1 + 9) := ⟨_, rfl⟩
    rw [← hdef]
    have hlt : u.ncount.toNat < 513 := by rw [hdef]; simp; omega
    have hnn := newNode_some (n := { leaf := true, sym := sym, weight := 0, left := 0, right := 0 }) hlt
    have hgt : ¬ sym > 256 := by rw [gt_iff_lt, BitVec.lt_def]; simp; omega
    have hust : u.rdStack = s.rdStack := by rw [hdef]; rfl
    simp only [takeToken, if_neg hgt, hnn]
    obtain ⟨v, hv'⟩ : ∃ v : State, v = { u with
      nodes := u.nodes.set u.ncount.toNat { leaf := true, sym := sym, weight := 0, left := 0, right := 0 } hlt
      ncount := u.ncount + 1 } := ⟨_, rfl⟩
    rw [← hv'] at hnn ⊢
    have hfr := newNode_frame hnn
    have hc := newNode_ncount hnn
    have hcu : u.ncount.toNat = s.ncount.toNat := by rw [hdef]; rfl
    have hnode : v.nodeAt u.ncount = some { leaf := true, sym := sym, weight := 0, left := 0, right := 0 } := by
      rw [State.nodeAt, newNode_nodes hnn, if_pos rfl]
    have hsz : (HTree.leaf sym).size = 1 := rfl
    refine ⟨u.ncount, v, ?_, ?_, ?_, ?_, ?_, ?_, ?_, ?_, ?_, ?_, ?_⟩
    · rw [← hust]
    · omega
    · exact holds_leaf.mpr ⟨_, hnode, rfl, rfl⟩
    · intro x hx; simp [indices] at hx; omega
    · have h1 : v.unread = s.unread.drop 10 := by
        rw [hfr, hdef]
        simp [State.unread, List.drop_drop, countMark, Nat.add_assoc]
      rw [h1, hu]
      simp
    · rw [hfr, hdef]
      simp only [seek_marks, countMark_marks]
      exact toNat_marks_succ (by omega)
    · omega
    · intro x hx
      rw [newNode_nodes hnn, if_neg (by omega), hdef]
      rfl
    · intro x h1 h2
      rw [newNode_nodes hnn, if_pos (by omega)]
      rfl
    · intro roots hF
      exact (hF.congr (t := u) (by rw [hdef]; rfl) (by rw [hdef]; rfl)).newLeaf hnn rfl hsym
    · rw [hfr, hdef]
      simp [State.seek, State.mark, countMark, HTree.header, Nat.add_assoc]
  | node l r ihl ihr =>
    simp only [HTree.header, List.cons_append, List.append_assoc] at hu
    simp only [HTree.size] at hm hn ⊢
    simp only [HTree.symbolsOk, HTree.symbols, List.all_append, Bool.and_eq_true] at hs
    have hls := l.size_pos
    have hrs := r.size_pos
    have hf := fetchToken_internal hu (by omega)
    obtain ⟨_, hu1⟩ := readBit hu
    rw [← Nat.add_assoc, readTree_token hf]
    obtain ⟨u, hdef⟩ : ∃ u : State, u = { countMark (s.seek (s.inPos + 1)) with
      rdStack := .waitLeft :: s.rdStack } := ⟨_, rfl⟩
    have htk : takeToken .internal (countMark (s.seek (s.inPos + 1))) = .more u := by rw [hdef]; rfl
    rw [htk]
    have hum : u.marks.toNat = s.marks.toNat + 1 := by
      rw [hdef]; exact toNat_marks_succ (m := s.marks) (by omega)
    have hun : u.ncount = s.ncount := by rw [hdef]; rfl
    obtain ⟨i, s1, e1, R1⟩ := ihl (k := k + r.size) (s := u) (rest := r.header ++ rest)
      (by rw [hdef]; exact hu1) (by omega) (by rw [hun]; omega) hs.1
    have hst1 : u.rdStack = .waitLeft :: s.rdStack := by rw [hdef]
    rw [hst1] at e1
    obtain ⟨w, hw⟩ : ∃ w : State, w = { s1 with rdStack := .waitRight i :: s.rdStack } := ⟨_, rfl⟩
    have e1' : readTree (k + (l.size + r.size)) u = readTree (k + r.size) w := by
      rw [show k + (l.size + r.size) = k + r.size + l.size by omega, e1, hw]
      rfl
    have hwn : w.ncount = s1.ncount := by rw [hw]
    have hwm : w.marks = s1.marks := by rw [hw]
    have hwd : w.nodes = s1.nodes := by rw [hw]
    have hwu : w.unread = s1.unread := by rw [hw]; rfl
    have m1 := R1.marks
    have n1 := R1.ncount
    rw [hun] at n1
    obtain ⟨j, s2, e2, R2⟩ := ihr (k := k) (s := w) (rest := rest) (by rw [hwu]; exact R1.unread)
      (by rw [hwm]; omega) (by rw [hwn]; omega) hs.2
    have hst2 : w.rdStack = .waitRight i :: s.rdStack := by rw [hw]
    have m2 := R2.marks
    have n2 := R2.ncount
    rw [hwm] at m2
    rw [hwn] at n2
    have hlt : s2.ncount.toNat < 513 := by omega
    have hnn := newNode_some (n := { leaf := false, sym := 0, weight := 0, left := i, right := j }) hlt
    obtain ⟨v, hv'⟩ : ∃ v : State, v = { s2 with
      nodes := s2.nodes.set s2.ncount.toNat { leaf := false, sym := 0, weight := 0, left := i, right := j } hlt
      ncount := s2.ncount + 1 } := ⟨_, rfl⟩
    rw [← hv'] at hnn
    rw [hst2, subtreeDone, hnn] at e2
    have hc := newNode_ncount hnn
    have hfr := newNode_frame hnn
    have hag1 : ∀ x ∈ indices s1 l i, s2.nodes[x]? = s1.nodes[x]? := by
      intro x hx
      rw [R2.kept x (by rw [hwn]; exact R1.below x hx), hwd]
    obtain ⟨hl1, hl2⟩ := holds_mono R1.holds hag1
    have hag2 : ∀ x ∈ indices s2 l i, v.nodes[x]? = s2.nodes[x]? := by
      intro x hx
      rw [hl2] at hx
      have := R1.below x hx
      rw [newNode_nodes hnn, if_neg (by omega)]
    obtain ⟨hl3, hl4⟩ := holds_mono hl1 hag2
    have hag3 : ∀ x ∈ indices s2 r j, v.nodes[x]? = s2.nodes[x]? := by
      intro x hx
      have := R2.below x hx
      rw [newNode_nodes hnn, if_neg (by omega)]
    obtain ⟨hr3, hr4⟩ := holds_mono R2.holds hag3
    have hnode : v.nodeAt s2.ncount = some { leaf := false, sym := 0, weight := 0, left := i, right := j } := by
      rw [State.nodeAt, newNode_nodes hnn, if_pos rfl]
    have hsz : (HTree.node l r).size = l.size + r.size + 1 := rfl
    refine ⟨s2.ncount, v, ?_, ?_, ?_, ?_, ?_, ?_, ?_, ?_, ?_, ?_, ?_⟩
    · show readTree (k + (l.size + r.size)) u = _
      rw [e1', e2]
    · omega
    · exact holds_node.mpr ⟨_, hnode, rfl, hl3, hr3⟩
    · intro x hx
      simp only [indices, hnode, List.mem_cons, List.mem_append] at hx
      rcases hx with rfl | hx | hx
      · omega
      · rw [hl4, hl2] at hx
        have := R1.below x hx; omega
      · rw [hr4] at hx
        have := R2.below x hx; omega
    · rw [hfr]; exact R2.unread
    · rw [hfr]; show s2.marks.toNat = _; omega
    · omega
    · intro x hx
      rw [newNode_nodes hnn, if_neg (by omega), R2.kept x (by rw [hwn]; omega), hwd, R1.kept x (by rw [hun]; omega), hdef]
      rfl
    · intro x h1 h2
      rw [newNode_nodes hnn]
      split
      · rfl
      · by_cases hx : x < s1.ncount.toNat
        · rw [R2.kept x (by rw [hwn]; omega), hwd]
          exact R1.weight x (by rw [hun]; omega) hx
        · exact R2.weight x (by rw [hwn]; omega) (by omega)
    · intro roots hF
      have F1 := R1.forest (hF.congr (t := u) (by rw [hdef]; rfl) (by rw [hdef]; rfl))
      have F2 := R2.forest (F1.congr (t := w) hwd hwn)
      exact (F2.perm (.swap i j roots)).newInternal hnn rfl rfl rfl
    · rw [hfr, R2.frame, hw, R1.frame, hdef]
      simp [State.seek, State.mark, countMark, HTree.header]
      omega

end Sys2Proof.Machine
end

