-- ==== Sys2Proof/Laws/Tokens.lean ====
section
/-! SUPPORT. RDTREE token by token: where it stands inside a header, and that every bit string is a header, the front of
one, or breaks the grammar in one of the ways of 60_exceptions.md R202. -/

namespace Sys2Proof

theorem Token.bits_internal : Token.bits .internal = [false] := rfl

theorem Token.bits_leaf (v : Symbol) : Token.bits (.leaf v) = true :: bin 9 v.toNat := rfl

/-! ### Tokens and trees -/

/-- The tokens of a tree's header. -/
def HTree.tokens : HTree → List Token
  | .leaf v => [.leaf v]
  | .node l r => .internal :: (l.tokens ++ r.tokens)

theorem HTree.flatMap_tokens (t : HTree) : t.tokens.flatMap Token.bits = t.header := by
  induction t with
  | leaf v => simp [tokens, header, Token.bits_leaf]
  | node l r ihl ihr => simp [tokens, header, Token.bits_internal, List.flatMap_append, ihl, ihr]

theorem HTree.length_tokens (t : HTree) : t.tokens.length = t.size := by
  induction t with
  | leaf v => rfl
  | node l r ihl ihr => simp [tokens, size, ihl, ihr]

/-- Tokens that supply every missing subtree are the tokens of that many trees. -/
theorem trees_of_missing (ts : List Token) {m : Nat} (h : missingAfter m ts = some 0) :
    ∃ trees : List HTree, trees.length = m ∧ trees.flatMap HTree.tokens = ts ∧ ∀ t ∈ trees, t.symbolsOk = true := by
  induction ts generalizing m with
  | nil => simp only [missingAfter, Option.some.injEq] at h; exact ⟨[], by simp [h], rfl, by simp⟩
  | cons x ts ih =>
    cases m with
    | zero => simp [missingAfter] at h
    | succ m =>
      cases x with
      | internal =>
        obtain ⟨trees, hl, hf, ho⟩ := ih (m := m + 2) (by simpa [missingAfter] using h)
        match trees, hl with
        | l :: r :: rest, hl =>
          refine ⟨.node l r :: rest, by simpa using hl, ?_, ?_⟩
          · simp only [List.flatMap_cons] at hf ⊢
            simp [HTree.tokens, hf]
          · intro t ht
            rcases List.mem_cons.mp ht with rfl | ht
            · have h1 := ho l (by simp)
              have h2 := ho r (by simp)
              simp only [HTree.symbolsOk, HTree.symbols, List.all_append, Bool.and_eq_true] at h1 h2 ⊢
              exact ⟨h1, h2⟩
            · exact ho t (by simp [ht])
      | leaf v =>
        simp only [missingAfter] at h
        split at h
        · next hv =>
          obtain ⟨trees, hl, hf, ho⟩ := ih h
          refine ⟨.leaf v :: trees, by simp [hl], by simp [HTree.tokens, hf], ?_⟩
          intro t ht
          rcases List.mem_cons.mp ht with rfl | ht
          · simp [HTree.symbolsOk, HTree.symbols, hv]
          · exact ho t ht
        · simp at h

/-- The tokens of one whole header are those of a tree. -/
theorem tree_of_missing {ts : List Token} (h : missingAfter 1 ts = some 0) :
    ∃ t : HTree, t.tokens = ts ∧ t.symbolsOk = true := by
  obtain ⟨trees, hl, hf, ho⟩ := trees_of_missing ts h
  match trees, hl with
  | [t], _ => exact ⟨t, by simpa using hf, ho t (by simp)⟩

theorem headerFront_iff {ts : List Token} : headerFront ts = true ↔ ∃ n, missingAfter 1 ts = some (n + 1) := by
  rw [headerFront]
  cases missingAfter 1 ts with
  | none => simp
  | some m => cases m <;> simp

/-- Where a bit string stands to the grammar of headers, at most cap tokens being allowed. -/
inductive Reading (m cap : Nat) (b : Bits) : Prop where
  | whole (ts : List Token) (rest : Bits) (e : b = ts.flatMap Token.bits ++ rest) (h : missingAfter m ts = some 0)
      (hc : ts.length ≤ cap)
  | noMarker (ts : List Token) (n : Nat) (e : b = ts.flatMap Token.bits) (h : missingAfter m ts = some (n + 1))
      (hc : ts.length ≤ cap)
  | shortField (ts : List Token) (n : Nat) (rest : Bits) (e : b = ts.flatMap Token.bits ++ true :: rest)
      (hr : rest.length < 9) (h : missingAfter m ts = some (n + 1)) (hc : ts.length < cap)
  | badSymbol (ts : List Token) (n : Nat) (v : Symbol) (hv : 256 < v.toNat) (rest : Bits)
      (e : b = ts.flatMap Token.bits ++ (true :: bin 9 v.toNat) ++ rest) (h : missingAfter m ts = some (n + 1))
      (hc : ts.length < cap)
  | tooMany (ts : List Token) (n : Nat) (x : Bool) (rest : Bits) (e : b = ts.flatMap Token.bits ++ x :: rest)
      (h : missingAfter m ts = some (n + 1)) (hc : ts.length = cap)

theorem Reading.cons {m m' cap : Nat} {b : Bits} (t : Token) (hm : ∀ ts, missingAfter m (t :: ts) = missingAfter m' ts)
    (h : Reading m' cap b) : Reading m (cap + 1) (t.bits ++ b) := by
  cases h with
  | whole ts rest e h hc => exact .whole (t :: ts) rest (by simp [e]) (by rw [hm, h]) (by simpa using hc)
  | noMarker ts n e h hc => exact .noMarker (t :: ts) n (by simp [e]) (by rw [hm, h]) (by simpa using hc)
  | shortField ts n rest e hr h hc =>
    exact .shortField (t :: ts) n rest (by simp [e]) hr (by rw [hm, h]) (by simpa using hc)
  | badSymbol ts n v hv rest e h hc =>
    exact .badSymbol (t :: ts) n v hv rest (by simp [e]) (by rw [hm, h]) (by simpa using hc)
  | tooMany ts n x rest e h hc => exact .tooMany (t :: ts) n x rest (by simp [e]) (by rw [hm, h]) (by simpa using hc)

/-- Every bit string is a whole header and what follows it, or breaks off in one of four ways. -/
theorem reading (cap m : Nat) (b : Bits) : Reading m cap b := by
  induction cap generalizing m b with
  | zero =>
    cases m with
    | zero => exact .whole [] b (by simp) rfl (by simp)
    | succ m =>
      cases b with
      | nil => exact .noMarker [] m (by simp) rfl (by simp)
      | cons x b => exact .tooMany [] m x b (by simp) rfl rfl
  | succ cap ih =>
    cases m with
    | zero => exact .whole [] b (by simp) rfl (by simp)
    | succ m =>
      cases b with
      | nil => exact .noMarker [] m (by simp) rfl (by simp)
      | cons x b =>
        cases x with
        | false => exact .cons (m' := m + 2) .internal (fun ts => rfl) (ih (m + 2) b)
        | true =>
          by_cases hl : b.length < 9
          · exact .shortField [] m b (by simp) hl rfl (by simp)
          · have hv : bin 9 (BitVec.ofNat 9 (val (b.take 9))).toNat = b.take 9 := by
              rw [BitVec.toNat_ofNat, bin_mod]
              exact bin_val_take (by omega)
            have hb : true :: b = Token.bits (.leaf (BitVec.ofNat 9 (val (b.take 9)))) ++ b.drop 9 := by
              rw [Token.bits_leaf, hv, List.cons_append, List.take_append_drop]
            by_cases hg : 256 < (BitVec.ofNat 9 (val (b.take 9))).toNat
            · exact .badSymbol [] m _ hg (b.drop 9) (by simpa [Token.bits_leaf] using hb) rfl (by simp)
            · rw [hb]
              refine .cons (m' := m) _ (fun ts => ?_) (ih m (b.drop 9))
              rw [missingAfter, if_pos (by omega)]

namespace Machine

/-! ### Where RDTREE stands -/

/-- How many finished subtrees wait for nothing but their right sibling's start: the calls of rd() that still have a left
subtree to read. -/
def lefts : List RdFrame → Nat
  | [] => 0
  | .waitLeft :: st => lefts st + 1
  | .waitRight _ :: st => lefts st

/-- A subtree is finished and another is still to be read. -/
theorem subtreeDone_more {st : List RdFrame} {i : NodeIx} {s : State} {w : Nat} (hw : lefts st = w + 1)
    (hc : s.ncount.toNat + st.length ≤ 513) :
    ∃ u, subtreeDone st i s = .more u ∧ lefts u.rdStack = w ∧
      u.ncount.toNat + u.rdStack.length = s.ncount.toNat + st.length ∧
      u = { s with nodes := u.nodes, ncount := u.ncount, rdStack := u.rdStack } := by
  induction st generalizing i s with
  | nil => simp [lefts] at hw
  | cons f st ih =>
    cases f with
    | waitLeft =>
      refine ⟨{ s with rdStack := .waitRight i :: st }, rfl, ?_, ?_, rfl⟩
      · simpa [lefts] using hw
      · simp
    | waitRight l =>
      simp only [List.length_cons] at hc
      have hlt : s.ncount.toNat < 513 := by omega
      have hnn := newNode_some (n := { leaf := false, sym := 0, weight := 0, left := l, right := i }) hlt
      have hn := newNode_ncount hnn
      obtain ⟨u, e, h1, h2, h3⟩ := ih (i := s.ncount) (s := { s with
        nodes := s.nodes.set s.ncount.toNat { leaf := false, sym := 0, weight := 0, left := l, right := i } hlt
        ncount := s.ncount + 1 }) (by simpa [lefts] using hw) (by rw [hn]; omega)
      refine ⟨u, ?_, h1, ?_, ?_⟩
      · rw [subtreeDone, hnn]; exact e
      · rw [h2, hn]; simp; omega
      · rw [h3]

/-- The tokens of the front of a header are read one by one. -/
theorem readTree_front (ts : List Token) {k n : Nat} {s : State} {rest : Bits}
    (hu : s.unread = ts.flatMap Token.bits ++ rest) (hg : s.marks.toNat = s.ncount.toNat + s.rdStack.length)
    (hm : s.marks.toNat + ts.length ≤ 513) (hn : missingAfter (lefts s.rdStack + 1) ts = some (n + 1)) :
    ∃ u, readTree (k + ts.length) s = readTree k u ∧ u.unread = rest ∧ u.marks.toNat = s.marks.toNat + ts.length ∧
      u.marks.toNat = u.ncount.toNat + u.rdStack.length ∧ lefts u.rdStack = n ∧
      u = { s with
        nodes := u.nodes
        ncount := u.ncount
        marks := u.marks
        inPos := s.inPos + (ts.flatMap Token.bits).length
        portTrace := u.portTrace
        rdStack := u.rdStack } := by
  induction ts generalizing s with
  | nil =>
    simp only [missingAfter, Option.some.injEq] at hn
    exact ⟨s, rfl, by simpa using hu, by simp, hg, by omega, by simp⟩
  | cons x ts ih =>
    simp only [List.length_cons] at hm
    have hm1 : (s.marks + 1).toNat = s.marks.toNat + 1 := toNat_marks_succ (by omega)
    cases x with
    | internal =>
      simp only [List.flatMap_cons, Token.bits_internal, List.cons_append, List.nil_append] at hu
      have hf := fetchToken_internal hu (by omega)
      obtain ⟨_, hu1⟩ := readBit hu
      obtain ⟨v, hv⟩ : ∃ v : State, v = { countMark (s.seek (s.inPos + 1)) with rdStack := .waitLeft :: s.rdStack } :=
        ⟨_, rfl⟩
      have htk : takeToken .internal (countMark (s.seek (s.inPos + 1))) = .more v := by rw [hv]; rfl
      have hvm : v.marks.toNat = s.marks.toNat + 1 := by rw [hv]; exact hm1
      obtain ⟨u, e, h1, h2, h3, h4, h5⟩ := ih (s := v) (by rw [hv]; exact hu1)
        (by rw [hvm, hv]; simp; omega) (by omega) (by rw [hv]; simpa [missingAfter, lefts] using hn)
      refine ⟨u, ?_, h1, by rw [h2, hvm]; simp; omega, h3, h4, ?_⟩
      · rw [List.length_cons, ← Nat.add_assoc, readTree_token hf, htk]; exact e
      · rw [h5, hv]
        simp [State.seek, State.mark, countMark, Token.bits_internal]
        omega
    | leaf v =>
      simp only [List.flatMap_cons, Token.bits_leaf, List.cons_append, List.append_assoc] at hu
      simp only [missingAfter] at hn
      split at hn
      · next hv256 =>
        have hf := fetchToken_leaf hu (by omega) (by simp)
        have hv : BitVec.ofNat 9 (val ((bin 9 v.toNat ++ (ts.flatMap Token.bits ++ rest)).take 9)) = v := by
          apply BitVec.eq_of_toNat_eq
          have h9 : (bin 9 v.toNat ++ (ts.flatMap Token.bits ++ rest)).take 9 = bin 9 v.toNat := by simp
          rw [h9, val_bin_of_lt v.isLt]
          simp
        rw [hv] at hf
        obtain ⟨w, hw⟩ : ∃ w, w = (countMark (s.seek (s.inPos + 1))).seek (s.inPos + 1 + 9) := ⟨_, rfl⟩
        rw [← hw] at hf
        have hwm : w.marks.toNat = s.marks.toNat + 1 := by rw [hw]; exact hm1
        have hwn : w.ncount = s.ncount := by rw [hw]; rfl
        have hws : w.rdStack = s.rdStack := by rw [hw]; rfl
        have hlt : w.ncount.toNat < 513 := by rw [hwn]; omega
        have hnn := newNode_some (n := { leaf := true, sym := v, weight := 0, left := 0, right := 0 }) hlt
        obtain ⟨y, hy⟩ : ∃ y : State, y = { w with
          nodes := w.nodes.set w.ncount.toNat { leaf := true, sym := v, weight := 0, left := 0, right := 0 } hlt
          ncount := w.ncount + 1 } := ⟨_, rfl⟩
        rw [← hy] at hnn
        have hyc := newNode_ncount hnn
        have hyf := newNode_frame hnn
        have hgt : ¬ v > 256 := by rw [gt_iff_lt, BitVec.lt_def]; simp; omega
        cases hl : lefts s.rdStack with
        | zero => rw [hl] at hn; cases ts <;> simp [missingAfter] at hn
        | succ z =>
          have hst : y.rdStack = s.rdStack := by rw [hyf]; exact hws
          obtain ⟨q, eq, g1, g2, g3⟩ := subtreeDone_more (st := s.rdStack) (i := w.ncount) (s := y) hl
            (by rw [hyc, hwn]; omega)
          have htk : takeToken (.leaf v) w = .more q := by
            rw [takeToken, if_neg hgt, hnn]
            dsimp only
            rw [hst]
            exact eq
          have hqm : q.marks = w.marks := by rw [g3, hyf]
          have hqu : q.unread = ts.flatMap Token.bits ++ rest := by
            have : s.unread.drop 10 = ts.flatMap Token.bits ++ rest := by rw [hu]; simp
            rw [← this, g3, hyf, hw]
            simp [State.unread, List.drop_drop, countMark, Nat.add_assoc]
          obtain ⟨u, e, h1, h2, h3, h4, h5⟩ := ih (s := q) hqu (by rw [hqm, hwm]; rw [hyc, hwn] at g2; omega)
            (by rw [hqm, hwm]; omega) (by rw [g1]; rw [hl] at hn; exact hn)
          refine ⟨u, ?_, h1, by rw [h2, hqm, hwm]; simp; omega, h3, h4, ?_⟩
          · rw [List.length_cons, ← Nat.add_assoc, readTree_token hf, htk]; exact e
          · rw [h5, g3, hyf, hw]
            simp [State.seek, State.mark, countMark, Token.bits_leaf]
            omega
      · simp at hn

/-- After the front of a header, no marker: subcause 1. -/
theorem readTree_noMarker (k : Nat) {u : State} (hu : u.unread = []) :
    readTree (k + 1) u = .next (raise .malformedHeader 1 0 (u.seek u.inBits.length)) :=
  readTree_raised (fetchToken_eos hu)

/-- After the front of a header, a leaf field cut short: subcause 2. -/
theorem readTree_shortField (k : Nat) {u : State} {rest : Bits} (hu : u.unread = true :: rest)
    (hm : u.marks.toNat < 513) (hl : rest.length < 9) :
    readTree (k + 1) u =
      .next (raise .malformedHeader 2 0 ((countMark (u.seek (u.inPos + 1))).seek u.inBits.length)) :=
  readTree_raised (fetchToken_short hu hm hl)

/-- After the front of a header, a leaf that is no symbol: subcause 3. -/
theorem readTree_badSymbol (k : Nat) {u : State} {v : Symbol} {rest : Bits}
    (hu : u.unread = (true :: bin 9 v.toNat) ++ rest) (hm : u.marks.toNat < 513) (hv : 256 < v.toNat) :
    readTree (k + 1) u = .next (raise .malformedHeader 3 (v.setWidth 32)
      ((countMark (u.seek (u.inPos + 1))).seek (u.inPos + 1 + 9))) := by
  have hf := fetchToken_leaf (s := u) (rest := bin 9 v.toNat ++ rest) (by simpa using hu) hm (by simp)
  have e : BitVec.ofNat 9 (val ((bin 9 v.toNat ++ rest).take 9)) = v := by
    apply BitVec.eq_of_toNat_eq
    have h9 : (bin 9 v.toNat ++ rest).take 9 = bin 9 v.toNat := by simp
    rw [h9, val_bin_of_lt v.isLt]
    simp
  rw [e] at hf
  rw [readTree_token hf, takeToken, if_pos (by rw [gt_iff_lt, BitVec.lt_def]; simpa using hv)]
  rfl

/-- After 513 tokens that make no whole header, one marker more: subcause 4. -/
theorem readTree_tooMany (k : Nat) {u : State} {x : Bool} {rest : Bits} (hu : u.unread = x :: rest)
    (hm : u.marks.toNat = 513) :
    readTree (k + 1) u = .next (raise .malformedHeader 4 514 (countMark (u.seek (u.inPos + 1)))) :=
  readTree_raised (fetchToken_full hu hm)

end Machine

end Sys2Proof
end

