-- ==== Sys2Proof/Laws/Build.lean ====
section
/-! SUPPORT. What BUILD makes of the counts (40_count_and_build.md R112 to R117): the leaves in symbol order, then the
merges of the two first nodes of PQ, until one node is left. -/

namespace Sys2Proof.Machine

/-! ### The order of PQ -/

theorem before_iff {s : State} {a b : NodeIx} :
    s.before a b = true ↔ (s.weightAt a).toNat < (s.weightAt b).toNat ∨
      ((s.weightAt a).toNat = (s.weightAt b).toNat ∧ a.toNat < b.toNat) := by
  simp [State.before, BitVec.lt_def, BitVec.toNat_eq]

theorem before_congr {s t : State} {a b : NodeIx} (ha : t.weightAt a = s.weightAt a) (hb : t.weightAt b = s.weightAt b) :
    t.before a b = s.before a b := by
  simp [State.before, ha, hb]

/-- The first of a list is one of its members, and before every other. -/
theorem firstOf_spec (s : State) (m : NodeIx) (as : List NodeIx) :
    s.firstOf m as ∈ m :: as ∧ ∀ x ∈ m :: as, x = s.firstOf m as ∨ s.before (s.firstOf m as) x = true := by
  induction as generalizing m with
  | nil => simp [State.firstOf]
  | cons a as ih =>
    rw [State.firstOf]
    by_cases hb : s.before a m = true
    · rw [if_pos hb]
      obtain ⟨h1, h2⟩ := ih a
      refine ⟨List.mem_cons_of_mem _ h1, fun x hx => ?_⟩
      rcases List.mem_cons.mp hx with rfl | hx
      · rcases h2 a (by simp) with e | e
        · rw [← e]; exact .inr hb
        · right
          rw [before_iff] at hb e ⊢
          omega
      · exact h2 x hx
    · rw [if_neg hb]
      obtain ⟨h1, h2⟩ := ih m
      have hma : m = a ∨ s.before m a = true := by
        by_cases e : m = a
        · exact .inl e
        · right
          rw [before_iff] at hb ⊢
          have : m.toNat ≠ a.toNat := fun h => e (BitVec.eq_of_toNat_eq h)
          omega
      refine ⟨?_, fun x hx => ?_⟩
      · rcases List.mem_cons.mp h1 with e | h
        · rw [e]; simp
        · exact List.mem_cons_of_mem _ (List.mem_cons_of_mem _ h)
      · rcases List.mem_cons.mp hx with rfl | hx
        · exact h2 x (by simp)
        · rcases List.mem_cons.mp hx with rfl | hx
          · rcases hma with rfl | hma
            · exact h2 m (by simp)
            · rcases h2 m (by simp) with e | e
              · rw [← e]; exact .inr hma
              · right
                rw [before_iff] at hma e ⊢
                omega
          · exact h2 x (by simp [hx])

/-- popmin (R115). -/
theorem popMin_spec {s : State} (h : s.pq ≠ []) :
    ∃ n, popMin s = some (n, { s with pq := s.pq.erase n }) ∧ n ∈ s.pq ∧ ∀ x ∈ s.pq, x = n ∨ s.before n x = true := by
  rw [popMin]
  split
  · contradiction
  · next a as e =>
    have := firstOf_spec s a as
    refine ⟨_, rfl, ?_⟩
    rw [e]
    exact this

/-! ### The leaves -/

/-- The counts that give a leaf. -/
def counted (l : List (Word × Nat)) : List (Word × Nat) := l.filter fun p => decide (p.1 ≠ 0)

theorem counted_zero {sym : Nat} {l : List (Word × Nat)} : counted ((0, sym) :: l) = counted l := by
  rw [counted, List.filter_cons_of_neg (by simp)]; rfl

theorem counted_pos {w : Word} {sym : Nat} {l : List (Word × Nat)} (h : w ≠ 0) :
    counted ((w, sym) :: l) = (w, sym) :: counted l := by
  rw [counted, List.filter_cons_of_pos (by exact decide_eq_true h)]; rfl

theorem weightAt_newNode {n : Node} {s t : State} {i j : NodeIx} (h : newNode n s = some (i, t))
    (hj : j.toNat < s.ncount.toNat) : t.weightAt j = s.weightAt j := by
  simp only [State.weightAt, State.nodeAt, newNode_nodes h, if_neg (show ¬ j.toNat = s.ncount.toNat by omega)]

/-- The sum of the weights of the nodes in PQ. -/
def State.pqWeight (s : State) : Nat := (s.pq.map fun i => (s.weightAt i).toNat).sum

/-- What the leaves of a list of counts leave: one leaf for each count that is not 0, in order, each in PQ. -/
structure Leaves (l : List (Word × Nat)) (s t : State) : Prop where
  forest : Forest t t.pq
  ncount : t.ncount.toNat = s.ncount.toNat + (counted l).length
  length : t.pq.length = s.pq.length + (counted l).length
  kept : ∀ x < s.ncount.toNat, t.nodes[x]? = s.nodes[x]?
  made : ∀ j p, (counted l)[j]? = some p → t.nodes[s.ncount.toNat + j]? =
    some { leaf := true, sym := BitVec.ofNat 9 p.2, weight := p.1, left := 0, right := 0 }
  sum : t.pqWeight = s.pqWeight + (l.map fun p => p.1.toNat).sum
  frame : t = { s with nodes := t.nodes, ncount := t.ncount, pq := t.pq }

theorem buildLeaves_spec (l : List (Word × Nat)) {s : State} (hl : ∀ p ∈ l, p.2 ≤ 256) (hf : Forest s s.pq)
    (hc : s.ncount.toNat + (counted l).length ≤ 513) : ∃ t, buildLeaves l s = .next t ∧ Leaves l s t := by
  induction l generalizing s with
  | nil => exact ⟨s, rfl, hf, by simp [counted], by simp [counted], by simp, by simp [counted], by simp, rfl⟩
  | cons p l ih =>
    obtain ⟨w, sym⟩ := p
    have hl' : ∀ p ∈ l, p.2 ≤ 256 := fun p hp => hl p (by simp [hp])
    rw [buildLeaves]
    by_cases hw : w = 0
    · subst hw
      rw [counted_zero] at hc
      obtain ⟨t, e, L⟩ := ih hl' hf hc
      exact ⟨t, e, L.forest, by rw [counted_zero]; exact L.ncount, by rw [counted_zero]; exact L.length, L.kept,
        by rw [counted_zero]; exact L.made, by rw [L.sum]; simp, L.frame⟩
    · rw [if_neg hw]
      rw [counted_pos hw, List.length_cons] at hc
      have hlt : s.ncount.toNat < 513 := by omega
      have hnn := newNode_some
        (n := { leaf := true, sym := BitVec.ofNat 9 sym, weight := w, left := 0, right := 0 }) hlt
      obtain ⟨u, hu⟩ : ∃ u : State, u = { s with
        nodes := s.nodes.set s.ncount.toNat
          { leaf := true, sym := BitVec.ofNat 9 sym, weight := w, left := 0, right := 0 } hlt
        ncount := s.ncount + 1 } := ⟨_, rfl⟩
      rw [← hu] at hnn
      have huf := newNode_frame hnn
      have huc := newNode_ncount hnn
      have hun := newNode_nodes hnn
      have hpq : u.pq = s.pq := by rw [huf]
      have hsym := hl (w, sym) (by simp)
      have hF := (hf.newLeaf hnn rfl (by simp; omega)).perm (List.perm_append_singleton s.ncount s.pq).symm
      rw [enqueueNode, hnn]
      obtain ⟨v, hv⟩ : ∃ v : State, v = { u with pq := u.pq ++ [s.ncount] } := ⟨_, rfl⟩
      dsimp only
      rw [← hv]
      have hvp : v.pq = s.pq ++ [s.ncount] := by rw [hv, ← hpq]
      have hvn : v.nodes = u.nodes := by rw [hv]
      have hvc : v.ncount = u.ncount := by rw [hv]
      obtain ⟨t, e, L⟩ := ih (s := v) hl' (by rw [hvp]; exact hF.congr hvn hvc) (by rw [hvc]; omega)
      have lc := L.ncount
      have ll := L.length
      rw [hvc] at lc
      rw [hvp, List.length_append, List.length_singleton] at ll
      refine ⟨t, e, L.forest, ?_, ?_, ?_, ?_, ?_, ?_⟩
      · rw [counted_pos hw, List.length_cons]; omega
      · rw [counted_pos hw, List.length_cons]; omega
      · intro x hx
        rw [L.kept x (by rw [hvc]; omega), hvn, hun, if_neg (by omega)]
      · intro j p hp
        rw [counted_pos hw] at hp
        cases j with
        | zero =>
          simp only [List.getElem?_cons_zero, Option.some.injEq] at hp
          subst hp
          rw [Nat.add_zero, L.kept _ (by rw [hvc]; omega), hvn, hun, if_pos rfl]
        | succ j =>
          have := L.made j p (by simpa using hp)
          rw [hvc, huc] at this
          rw [show s.ncount.toNat + (j + 1) = s.ncount.toNat + 1 + j by omega, this]
      · rw [L.sum, State.pqWeight, hvp, List.map_append, List.sum_append, List.map_cons, List.sum_cons]
        have hnew : v.weightAt s.ncount = w := by
          simp only [State.weightAt, State.nodeAt, hvn, hun, if_true, Option.map_some, Option.getD_some]
        have hold : (s.pq.map fun i => (v.weightAt i).toNat) = s.pq.map fun i => (s.weightAt i).toNat := by
          apply List.map_congr_left
          intro i hi
          have hb := hf.bound i hi
          simp only [State.weightAt, State.nodeAt, hvn, hun, if_neg (show ¬ i.toNat = s.ncount.toNat by omega)]
        simp only [List.map_cons, List.map_nil, List.sum_cons, List.sum_nil, hnew, hold, State.pqWeight]
        omega
      · rw [L.frame, hv, huf]

/-! ### The merges -/

/-- The node store below a bound is all that node x's merge speaks of. -/
theorem mergedAt_congr {s t : State} {x : Nat} {d : Node} (hn : ∀ y < x, t.nodes[y]? = s.nodes[y]?)
    (h : s.mergedAt x d) : t.mergedAt x d := by
  have hp : ∀ y < x, ∀ j, t.isParent y j = s.isParent y j := by
    intro y hy j
    simp only [State.isParent, hn y hy]
  have hw : ∀ j, t.waited x j = s.waited x j := by
    intro j
    simp only [State.waited]
    congr 1
    rw [Bool.eq_iff_iff, List.all_eq_true, List.all_eq_true]
    constructor <;> intro h i hi <;> have := h i hi <;> rw [List.mem_range] at hi
    · rwa [hp i hi] at this
    · rwa [hp i hi]
  have hwt : ∀ j : NodeIx, t.waited x j.toNat = true → t.weightAt j = s.weightAt j := by
    intro j hj
    simp only [State.waited, Bool.and_eq_true, decide_eq_true_eq] at hj
    simp only [State.weightAt, State.nodeAt, hn _ hj.1]
  obtain ⟨h1, h2, h3, h4, h5⟩ := h
  have w1 := hwt d.left (by rw [hw]; exact h1)
  have w2 := hwt d.right (by rw [hw]; exact h2)
  refine ⟨by rw [hw]; exact h1, by rw [hw]; exact h2, by rw [before_congr w1 w2]; exact h3, ?_, by rw [w1, w2]; exact h5⟩
  intro j hj
  have w3 := hwt j hj
  rw [hw] at hj
  rw [before_congr w2 w3]
  exact h4 j hj

/-- In a forest, the nodes that wait are the roots. -/
theorem Forest.waited {s : State} {roots : List NodeIx} (hf : Forest s roots) (j : NodeIx) :
    s.waited s.ncount.toNat j.toNat = true ↔ j ∈ roots := by
  rw [State.waited, Bool.and_eq_true, decide_eq_true_eq, List.all_eq_true]
  constructor
  · rintro ⟨hj, hp⟩
    have h0 : s.parents j.toNat = 0 := by
      rw [State.parents, List.countP_eq_zero]
      intro i hi
      have := hp i hi
      simpa using this
    rw [hf.parents _ hj] at h0
    by_contra hn
    rw [if_neg] at h0
    · omega
    · rintro ⟨r, hr, e⟩
      exact hn (BitVec.eq_of_toNat_eq e ▸ hr)
  · intro hj
    have hb := hf.bound j hj
    refine ⟨hb, fun i hi => ?_⟩
    have h0 := hf.parents _ hb
    rw [if_pos ⟨j, hj, rfl⟩, State.parents, List.countP_eq_zero] at h0
    have := h0 i hi
    simpa using this

/-- What one merge does: the two first nodes of PQ become the children of a new one. -/
structure Merge (s t : State) (d : Node) : Prop where
  internal : d.leaf = false ∧ d.sym = 0
  mem : d.left ∈ s.pq ∧ d.right ∈ s.pq.erase d.left
  first : ∀ x ∈ s.pq, x = d.left ∨ s.before d.left x = true
  second : ∀ x ∈ s.pq.erase d.left, x = d.right ∨ s.before d.right x = true
  weight : d.weight = s.weightAt d.left + s.weightAt d.right
  node : newNode d { s with pq := (s.pq.erase d.left).erase d.right } =
    some (s.ncount, { t with pq := (s.pq.erase d.left).erase d.right })
  pq : t.pq = (s.pq.erase d.left).erase d.right ++ [s.ncount]

theorem mergeOnce_spec {s : State} {a b : NodeIx} {rest : List NodeIx} (h : s.pq = a :: b :: rest)
    (hc : s.ncount.toNat < 513) : ∃ t d, mergeOnce s = .next t ∧ Merge s t d := by
  obtain ⟨l, e1, m1, f1⟩ := popMin_spec (s := s) (by simp [h])
  have hlen : (s.pq.erase l).length + 1 = s.pq.length := by
    rw [List.length_erase_of_mem m1, h]; simp
  obtain ⟨r, e2, m2, f2⟩ := popMin_spec (s := { s with pq := s.pq.erase l }) (by
    intro h0
    have h0' : s.pq.erase l = [] := h0
    rw [h0', h] at hlen
    simp at hlen)
  have hnn := newNode_some (n := { leaf := false, sym := 0, weight := s.weightAt l + s.weightAt r, left := l, right := r })
    (s := { s with pq := (s.pq.erase l).erase r }) hc
  refine ⟨{ s with
    nodes := s.nodes.set s.ncount.toNat
      { leaf := false, sym := 0, weight := s.weightAt l + s.weightAt r, left := l, right := r } hc
    ncount := s.ncount + 1
    pq := (s.pq.erase l).erase r ++ [s.ncount] },
    { leaf := false, sym := 0, weight := s.weightAt l + s.weightAt r, left := l, right := r }, ?_,
    ⟨⟨rfl, rfl⟩, ⟨m1, m2⟩, f1, f2, rfl, hnn, rfl⟩⟩
  rw [mergeOnce, e1]
  dsimp only
  rw [e2]
  dsimp only
  rw [enqueueNode]
  have : ∀ j, State.weightAt { s with pq := (s.pq.erase l).erase r } j = s.weightAt j := fun _ => rfl
  rw [this, this, hnn]

/-- What a merge keeps and makes. -/
structure MergeFacts (s t : State) : Prop where
  forest : Forest t t.pq
  ncount : t.ncount.toNat = s.ncount.toNat + 1
  length : t.pq.length + 1 = s.pq.length
  kept : ∀ x < s.ncount.toNat, t.nodes[x]? = s.nodes[x]?
  made : ∃ d, t.nodes[s.ncount.toNat]? = some d ∧ d.leaf = false ∧ t.mergedAt s.ncount.toNat d
  last : s.ncount ∈ t.pq
  sum : t.pqWeight = s.pqWeight
  frame : t = { s with nodes := t.nodes, ncount := t.ncount, pq := t.pq }

theorem Merge.facts {s t : State} {d : Node} (h : Merge s t d) (hf : Forest s s.pq)
    (hw : s.pqWeight < 2 ^ 32) : MergeFacts s t := by
  have hnn := h.node
  have hfr : t = { s with nodes := t.nodes, ncount := t.ncount, pq := t.pq } := by
    have := newNode_frame hnn
    have e2 := congrArg (fun u : State => { u with pq := t.pq }) this
    exact e2
  have hcn : t.ncount.toNat = s.ncount.toNat + 1 := by
    have := newNode_ncount hnn
    exact this
  have hnodes : ∀ x, t.nodes[x]? = if x = s.ncount.toNat then some d else s.nodes[x]? := by
    have := newNode_nodes hnn
    exact this
  have p1 : s.pq.Perm (d.left :: s.pq.erase d.left) := List.perm_cons_erase h.mem.1
  have p2 : (s.pq.erase d.left).Perm (d.right :: (s.pq.erase d.left).erase d.right) := List.perm_cons_erase h.mem.2
  have p : s.pq.Perm (d.left :: d.right :: (s.pq.erase d.left).erase d.right) := p1.trans (p2.cons _)
  have hr : d.right ∈ s.pq := List.mem_of_mem_erase h.mem.2
  have hF := ((hf.perm p).congr (t := { s with pq := (s.pq.erase d.left).erase d.right }) rfl rfl).newInternal hnn
    h.internal.1 rfl rfl
  have hF' : Forest t t.pq := by
    rw [h.pq]
    exact (hF.perm (List.perm_append_singleton _ _).symm).congr rfl rfl
  have hwt : ∀ j : NodeIx, j.toNat < s.ncount.toNat → t.weightAt j = s.weightAt j := by
    intro j hj
    simp only [State.weightAt, State.nodeAt, hnodes, if_neg (show ¬ j.toNat = s.ncount.toNat by omega)]
  have hsum := (p.map fun i => (s.weightAt i).toNat).sum_eq
  simp only [List.map_cons, List.sum_cons] at hsum
  rw [State.pqWeight] at hw
  have hdw : d.weight.toNat = (s.weightAt d.left).toNat + (s.weightAt d.right).toNat := by
    rw [h.weight, BitVec.toNat_add, Nat.mod_eq_of_lt]
    omega
  refine ⟨hF', hcn, ?_, ?_, ⟨d, by rw [hnodes, if_pos rfl], h.internal.1, ?_⟩, by rw [h.pq]; simp, ?_, hfr⟩
  · rw [h.pq, p.length_eq]; simp
  · intro x hx
    rw [hnodes, if_neg (by omega)]
  · refine mergedAt_congr (s := s) (fun y hy => by rw [hnodes, if_neg (by omega)]) ⟨?_, ?_, ?_, ?_, hdw⟩
    · exact (hf.waited _).mpr h.mem.1
    · exact (hf.waited _).mpr hr
    · rcases h.first _ hr with e | e
      · have hnd := hf.nodup.not_mem_erase (a := d.left)
        exact absurd (e ▸ h.mem.2) hnd
      · exact e
    · intro j hj
      have hj' := (hf.waited j).mp hj
      by_cases e : j = d.left
      · exact .inl e
      · exact .inr (h.second j ((List.mem_erase_of_ne e).mpr hj'))
  · rw [State.pqWeight, State.pqWeight, h.pq, List.map_append, List.sum_append, hsum]
    have hnew : t.weightAt s.ncount = d.weight := by
      simp only [State.weightAt, State.nodeAt, hnodes, if_true, Option.map_some, Option.getD_some]
    have hold : (((s.pq.erase d.left).erase d.right).map fun i => (t.weightAt i).toNat) =
        ((s.pq.erase d.left).erase d.right).map fun i => (s.weightAt i).toNat := by
      apply List.map_congr_left
      intro i hi
      rw [hwt i (hf.bound i (List.mem_of_mem_erase (List.mem_of_mem_erase hi)))]
    rw [hold]
    simp only [List.map_cons, List.map_nil, List.sum_cons, List.sum_nil, hnew, hdw]
    omega

/-- The merges go on until one node is left, which is the last made. -/
theorem mergeLoop_spec (k : Nat) {s : State} (hk : s.pq.length < k) (h0 : s.pq ≠ []) (hf : Forest s s.pq)
    (hc : s.ncount.toNat + s.pq.length ≤ 514) (hw : s.pqWeight < 2 ^ 32)
    (hl : ∀ r, s.pq = [r] → r.toNat + 1 = s.ncount.toNat) :
    ∃ t, mergeLoop k s = .next t ∧ Forest t [t.root] ∧ t.ncount.toNat + 1 = s.ncount.toNat + s.pq.length ∧
      t.root.toNat + 1 = t.ncount.toNat ∧ (∀ x < s.ncount.toNat, t.nodes[x]? = s.nodes[x]?) ∧
      (∀ x, s.ncount.toNat ≤ x → x < t.ncount.toNat → ∃ d, t.nodes[x]? = some d ∧ d.leaf = false ∧ t.mergedAt x d) ∧
      (t.weightAt t.root).toNat = s.pqWeight ∧
      t = { s with nodes := t.nodes, ncount := t.ncount, root := t.root, pq := [], treeSrc := false, treeValid := true } := by
  induction k generalizing s with
  | zero => omega
  | succ k ih =>
    rw [mergeLoop]
    split
    · contradiction
    · next r e =>
      refine ⟨_, rfl, ?_, by simp [e], hl r e, by simp, by intro x h1 h2; simp at h2; omega, ?_, rfl⟩
      · exact (show Forest s [r] from e ▸ hf).congr rfl rfl
      · simp [State.pqWeight, e]; rfl
    · next a b rest e =>
      have hlen : s.pq.length = rest.length + 2 := by rw [e]; rfl
      obtain ⟨u, d, eu, M⟩ := mergeOnce_spec e (by omega)
      have F := M.facts hf hw
      rw [eu, andThen_next]
      have l1 := F.length
      have n1 := F.ncount
      obtain ⟨t, h1, h2, h3, h4, h5, h6, h7, h8⟩ := ih (s := u) (by omega)
        (by intro h; rw [h] at l1; simp at l1; omega) F.forest (by omega) (by rw [F.sum]; exact hw)
        (by
          intro r hr
          have := F.last
          rw [hr, List.mem_singleton] at this
          rw [← this, n1])
      refine ⟨t, h1, h2, by omega, h4, ?_, ?_, by rw [h7, F.sum], ?_⟩
      · intro x hx
        rw [h5 x (by omega), F.kept x hx]
      · intro x hx1 hx2
        by_cases e : x = s.ncount.toNat
        · subst e
          obtain ⟨d, hd1, hd2, hd3⟩ := F.made
          refine ⟨d, by rw [h5 _ (by omega)]; exact hd1, hd2, mergedAt_congr (fun y hy => h5 y (by omega)) hd3⟩
        · exact h6 x (by omega) hx2
      · rw [h8, F.frame]

/-! ### BUILD as a whole -/

theorem zipIdx_freq (s : State) :
    s.freq.toList.zipIdx = (List.finRange 257).map fun i => (s.freqAt i, i.val) := by
  apply List.ext_getElem
  · simp
  · intro i h1 h2
    simp [State.freqAt]

theorem counted_freq (s : State) : counted s.freq.toList.zipIdx = s.present.map fun i => (s.freqAt i, i.val) := by
  rw [zipIdx_freq, counted, List.filter_map, State.present]
  rfl

theorem length_present_le (s : State) : s.present.length ≤ 257 := by
  have := List.length_filter_le (fun i => decide (s.freqAt i ≠ 0)) (List.finRange 257)
  rwa [List.length_finRange] at this

theorem present_congr {s t : State} (h : t.freq = s.freq) : t.present = s.present := by
  have : t.freqAt = s.freqAt := by funext i; simp only [State.freqAt, h]
  simp only [State.present, this]

/-- BuiltOk is about the node store and the counts. -/
theorem BuiltOk.congr {s t : State} (h : s.BuiltOk) (hn : t.nodes = s.nodes) (hc : t.ncount = s.ncount)
    (hf : t.freq = s.freq) : t.BuiltOk := by
  rw [State.BuiltOk, present_congr hf, hn, hc]
  exact h

/-- WeightsOk is about the node store and the counts. -/
theorem WeightsOk.congr {s t : State} (h : s.WeightsOk) (hn : t.nodes = s.nodes) (hc : t.ncount = s.ncount)
    (hf : t.freq = s.freq) : t.WeightsOk := by
  have hw : t.weightAt = s.weightAt := by funext i; simp only [State.weightAt, State.nodeAt, hn]
  have hp : t.isParent = s.isParent := by funext i j; simp only [State.isParent, hn]
  simp only [State.WeightsOk, State.mergedAt, State.waited, State.before, State.freqAt, hn, hc, hf, hw, hp] at h ⊢
  exact h

/-- What BUILD makes of a count. -/
structure Built (s t : State) : Prop where
  tree : t.TreeOk
  built : t.BuiltOk
  weights : t.WeightsOk
  root : t.root.toNat + 1 = t.ncount.toNat
  total : (t.weightAt t.root).toNat = ((List.finRange 257).map fun i => (s.freqAt i).toNat).sum
  frame : t = { s with
    nodes := t.nodes
    ncount := t.ncount
    root := t.root
    pq := []
    treeSrc := false
    treeValid := true
    codesValid := false }

theorem buildPrim_spec {s : State} (he : s.freqAt eofIndex ≠ 0)
    (hs : ((List.finRange 257).map fun i => (s.freqAt i).toNat).sum < 2 ^ 32) :
    ∃ t, buildPrim.body s = .next t ∧ Built s t := by
  have hp : eofIndex ∈ s.present := by
    rw [State.present, List.mem_filter]
    exact ⟨List.mem_finRange _, decide_eq_true he⟩
  have hpl : 0 < s.present.length := List.length_pos_of_mem hp
  have hp257 := length_present_le s
  obtain ⟨s0, hs0⟩ : ∃ s0 : State, s0 = { s with treeValid := false, codesValid := false, ncount := 0, pq := [] } :=
    ⟨_, rfl⟩
  have hcl : (counted s.freq.toList.zipIdx).length = s.present.length := by rw [counted_freq, List.length_map]
  have hn0 : s0.ncount.toNat = 0 := by rw [hs0]; rfl
  have hq0 : s0.pq = [] := by rw [hs0]
  obtain ⟨u, eu, L⟩ := buildLeaves_spec s.freq.toList.zipIdx (s := s0)
    (by
      rw [zipIdx_freq]
      intro p hp
      obtain ⟨i, _, rfl⟩ := List.mem_map.mp hp
      have := i.isLt
      simp only
      omega)
    (by rw [hq0]; exact Forest.empty (by rw [hs0])) (by omega)
  have hul := L.length
  have huc := L.ncount
  rw [hcl, hq0, List.length_nil, Nat.zero_add] at hul
  rw [hcl, hn0, Nat.zero_add] at huc
  have husum : u.pqWeight = ((List.finRange 257).map fun i => (s.freqAt i).toNat).sum := by
    rw [L.sum, State.pqWeight, hq0, zipIdx_freq, List.map_map]
    simp [Function.comp_def]
  obtain ⟨t, et, hF, hc, hr, hk, hm, hw, hfr⟩ := mergeLoop_spec (u.pq.length + 1) (s := u) (by omega)
    (by intro h; rw [h] at hul; simp at hul; omega) L.forest (by omega) (by rw [husum]; exact hs)
    (by
      intro r hr
      have := L.forest.bound r (by rw [hr]; simp)
      rw [hr] at hul
      simp at hul
      omega)
  have hfreq : t.freq = s.freq := by rw [hfr, L.frame, hs0]
  have hfa : ∀ i, t.freqAt i = s.freqAt i := fun i => by simp only [State.freqAt, hfreq]
  have hpres : t.present = s.present := by simp only [State.present, hfa]
  have hleaf : ∀ x, (h : x < s.present.length) → t.nodes[x]? =
      some { leaf := true, sym := BitVec.ofNat 9 s.present[x].val, weight := s.freqAt s.present[x], left := 0,
             right := 0 } := by
    intro x h
    have := L.made x (s.freqAt s.present[x], s.present[x].val) (by rw [counted_freq]; simp [h])
    rw [hn0, Nat.zero_add] at this
    rw [hk x (by omega), this]
  refine ⟨t, ?_, hF.treeOk, ⟨by rw [hpres]; omega, ?_⟩, ?_, hr, by rw [hw, husum], by rw [hfr, L.frame, hs0]⟩
  · rw [hs0] at eu
    show andThen (buildLeaves s.freq.toList.zipIdx _) _ = _
    rw [eu]
    exact et
  · intro x hx
    rw [hpres]
    by_cases h : x < s.present.length
    · rw [hleaf x h]
      have := (s.present[x]).isLt
      simp [h]
      omega
    · obtain ⟨d, hd, hdl, _⟩ := hm x (by omega) hx
      rw [hd]
      simp [hdl]
      omega
  · intro x d hx hd
    by_cases h : x < s.present.length
    · rw [hleaf x h] at hd
      cases hd
      refine ⟨fun _ i hi => ?_, by simp⟩
      have hlt := (s.present[x]).isLt
      rw [symbolIndex_some (by simp; omega)] at hi
      cases hi
      rw [hfa]
      dsimp only
      congr 1
      apply Fin.ext
      simp
      omega
    · obtain ⟨d', hd', hdl, hdm⟩ := hm x (by omega) hx
      rw [hd'] at hd
      cases hd
      exact ⟨by simp [hdl], fun _ => hdm⟩

end Sys2Proof.Machine
end

