-- ==== Sys2Proof/Laws/Codes.lean ====
section
/-! SUPPORT. The leaves of a store that meets 10_state.md R26, and the code table GENCODES makes of a built tree
(41_code_table.md R130 to R133). -/

namespace Sys2Proof.Machine

/-! ### Every entry in use is in the tree -/

theorem indices_self {s : State} (t : HTree) (i : NodeIx) : i.toNat ∈ indices s t i := by
  cases t with
  | leaf _ => simp [indices]
  | node l r => rw [indices]; split <;> simp

/-- A child of a member is a member. -/
theorem indices_child {s : State} {t : HTree} {i : NodeIx} (h : s.holds t i = true) {p x : Nat}
    (hp : p ∈ indices s t i) (e : s.isParent p x = true) : x ∈ indices s t i := by
  induction t generalizing i with
  | leaf _ =>
    obtain ⟨d, hd, hl, _⟩ := holds_leaf.mp h
    simp only [indices, List.mem_singleton] at hp
    subst hp
    rw [State.isParent, show s.nodes[i.toNat]? = some d from hd] at e
    simp [hl] at e
  | node l r ihl ihr =>
    obtain ⟨d, hd, hl, h1, h2⟩ := holds_node.mp h
    simp only [indices, hd, List.mem_cons, List.mem_append] at hp ⊢
    rcases hp with rfl | hp | hp
    · rw [State.isParent, show s.nodes[i.toNat]? = some d from hd] at e
      simp only [hl, Bool.not_false, Bool.true_and, Bool.or_eq_true, decide_eq_true_eq] at e
      rcases e with e | e
      · exact .inr (.inl (e ▸ indices_self l d.left))
      · exact .inr (.inr (e ▸ indices_self r d.right))
    · exact .inr (.inl (ihl h1 hp))
    · exact .inr (.inr (ihr h2 hp))

theorem exists_parent {s : State} {j : Nat} (h : s.parents j ≠ 0) : ∃ p < s.ncount.toNat, s.isParent p j = true := by
  rw [State.parents] at h
  obtain ⟨p, hp, e⟩ := List.countP_pos_iff.mp (Nat.pos_of_ne_zero h)
  exact ⟨p, List.mem_range.mp hp, e⟩

/-- The tree at ROOT has every entry in use, each once (10_state.md R26). -/
theorem TreeOk.perm {s : State} (h : s.TreeOk) {t : HTree} (ht : s.holds t s.root = true) :
    (indices s t s.root).Perm (List.range s.ncount.toNat) := by
  have hn := nodup_indices h.2.1 (TreeOk.parents_le h) h.1 ht
  rw [List.perm_ext_iff_of_nodup hn List.nodup_range]
  intro x
  rw [List.mem_range]
  refine ⟨fun hx => lt_of_le_of_lt (indices_le h.2.1 h.1 ht hx) h.1, ?_⟩
  intro hx
  induction hk : s.ncount.toNat - x using Nat.strongRecOn generalizing x with
  | _ k ih =>
    by_cases e : x = s.root.toNat
    · rw [e]; exact indices_self t s.root
    · obtain ⟨p, hp, hpx⟩ := exists_parent (j := x) (by rw [h.2.2.2 x hx e]; decide)
      have := isParent_lt h.2.1 hp hpx
      exact indices_child ht (ih (s.ncount.toNat - p) (by omega) p hp rfl) hpx

theorem TreeOk.size {s : State} (h : s.TreeOk) {t : HTree} (ht : s.holds t s.root = true) :
    t.size = s.ncount.toNat := by
  rw [← length_indices ht, (TreeOk.perm h ht).length_eq, List.length_range]

theorem TreeOk.symbolsOk {s : State} (h : s.TreeOk) {t : HTree} (ht : s.holds t s.root = true) : t.symbolsOk = true := by
  obtain ⟨t', ht', hs, _⟩ := TreeOk.tree h
  rwa [holds_unique ht ht']

/-- The symbol of an entry that is a leaf. -/
def leafSymbol (s : State) (x : Nat) : Option Symbol :=
  s.nodes[x]?.bind fun d => if d.leaf then some d.sym else none

theorem filterMap_indices {s : State} {t : HTree} {i : NodeIx} (h : s.holds t i = true) :
    (indices s t i).filterMap (leafSymbol s) = t.symbols := by
  induction t generalizing i with
  | leaf sym =>
    obtain ⟨d, hd, hl, rfl⟩ := holds_leaf.mp h
    have hd' : s.nodes[i.toNat]? = some d := hd
    simp [indices, leafSymbol, hd', hl, HTree.symbols]
  | node l r ihl ihr =>
    obtain ⟨d, hd, hl, h1, h2⟩ := holds_node.mp h
    have hd' : s.nodes[i.toNat]? = some d := hd
    have hn : leafSymbol s i.toNat = none := by simp [leafSymbol, hd', hl]
    rw [indices, hd]
    simp only [List.filterMap_cons, hn, List.filterMap_append, ihl h1, ihr h2, HTree.symbols]

/-- The leaves of a built tree stand for the symbols with a count, each once. -/
theorem symbols_perm {s : State} (h : s.TreeOk) (hb : s.BuiltOk) {t : HTree} (ht : s.holds t s.root = true) :
    t.symbols.Perm (s.present.map fun i => BitVec.ofNat 9 i.val) := by
  have hp := (TreeOk.perm h ht).filterMap (leafSymbol s)
  rw [filterMap_indices ht] at hp
  refine hp.trans (.of_eq ?_)
  have hL : s.present.length ≤ s.ncount.toNat := by have := hb.1; omega
  have hls : ∀ x < s.ncount.toNat, leafSymbol s x = s.present[x]?.map fun i => BitVec.ofNat 9 i.val := by
    intro x hx
    have := hb.2 x hx
    rw [leafSymbol]
    cases hd : s.nodes[x]? with
    | none => simp [hd] at this
    | some d =>
      rw [hd] at this
      simp only [Option.map_some, Option.some.injEq] at this
      simp only [Option.bind_some]
      cases hl : d.leaf
      · simp only [hl, Bool.false_eq_true, if_false] at this ⊢
        have hnone : s.present[x]? = none := by
          cases h : s.present[x]? with
          | none => rfl
          | some a => rw [h] at this; simp at this
        rw [hnone]; rfl
      · simp only [hl, if_true] at this ⊢
        cases h : s.present[x]? with
        | none => rw [h] at this; simp at this
        | some a =>
          rw [h] at this
          simp only [Option.map_some, Option.some.injEq] at this ⊢
          apply BitVec.eq_of_toNat_eq
          rw [this, BitVec.toNat_ofNat, Nat.mod_eq_of_lt (by omega)]
  have hfm : ∀ (n : Nat), s.present.length ≤ n →
      (List.range n).filterMap (fun x => s.present[x]?.map fun i => BitVec.ofNat 9 i.val) =
        s.present.map fun i => BitVec.ofNat 9 i.val := by
    intro n hn
    obtain ⟨m, rfl⟩ : ∃ m, n = s.present.length + m := ⟨n - s.present.length, by omega⟩
    rw [List.range_add, List.filterMap_append]
    have h1 : ((List.range m).map fun x => s.present.length + x).filterMap
        (fun x => s.present[x]?.map fun i => BitVec.ofNat 9 i.val) = [] := by
      rw [List.filterMap_eq_nil_iff]
      intro a ha
      obtain ⟨b, _, rfl⟩ := List.mem_map.mp ha
      rw [List.getElem?_eq_none (by omega)]; rfl
    rw [h1, List.append_nil]
    have h2 : (List.range s.present.length).filterMap (fun x => s.present[x]?.map fun i => BitVec.ofNat 9 i.val) =
        ((List.range s.present.length).filterMap fun x => s.present[x]?).map fun i => BitVec.ofNat 9 i.val := by
      rw [List.map_filterMap]
    rw [h2]
    congr 1
    generalize s.present = l
    induction l with
    | nil => rfl
    | cons a l ih =>
      rw [List.length_cons, List.range_succ_eq_map, List.filterMap_cons]
      simp only [List.getElem?_cons_zero, List.filterMap_map]
      congr 1
  rw [← hfm s.ncount.toNat hL]
  apply List.filterMap_congr
  intro x hx
  exact hls x (List.mem_range.mp hx)

theorem ofNat_symbol_injective {i j : Fin 257} (h : BitVec.ofNat 9 i.val = BitVec.ofNat 9 j.val) : i = j := by
  have := congrArg BitVec.toNat h
  rw [BitVec.toNat_ofNat, BitVec.toNat_ofNat, Nat.mod_eq_of_lt (by omega), Nat.mod_eq_of_lt (by omega)] at this
  exact Fin.ext this

theorem nodup_present (s : State) : s.present.Nodup := (List.nodup_finRange 257).filter _

theorem nodup_symbols {s : State} (h : s.TreeOk) (hb : s.BuiltOk) {t : HTree} (ht : s.holds t s.root = true) :
    t.symbols.Nodup := by
  rw [(symbols_perm h hb ht).nodup_iff]
  exact (nodup_present s).map fun i j e => ofNat_symbol_injective e

theorem mem_present {s : State} {i : Fin 257} : i ∈ s.present ↔ s.freqAt i ≠ 0 := by
  rw [State.present, List.mem_filter, decide_eq_true_iff]
  exact ⟨fun h => h.2, fun h => ⟨List.mem_finRange _, h⟩⟩

/-- A symbol has a leaf exactly when it has a count. -/
theorem mem_symbols {s : State} (h : s.TreeOk) (hb : s.BuiltOk) {t : HTree} (ht : s.holds t s.root = true)
    (i : Fin 257) : BitVec.ofNat 9 i.val ∈ t.symbols ↔ s.freqAt i ≠ 0 := by
  rw [(symbols_perm h hb ht).mem_iff, List.mem_map, ← mem_present]
  constructor
  · rintro ⟨j, hj, e⟩
    exact ofNat_symbol_injective e ▸ hj
  · exact fun hi => ⟨i, hi, rfl⟩

/-! ### GENCODES -/

/-- GENCODES records the code of each leaf, in an empty table. -/
theorem gencodesPrim_spec {s : State} (h : s.TreeOk) (hb : s.BuiltOk) {t : HTree} (ht : s.holds t s.root = true) :
    ∃ u, gencodesPrim.body s = .next u ∧ (∀ i, u.codeAt i = codeFor t i) ∧
      u = { s with codes := u.codes, codesValid := true } := by
  have hok := TreeOk.symbolsOk h ht
  have hh := TreeOk.height h ht
  have hnd := nodup_symbols h hb ht
  obtain ⟨s0, hs0⟩ : ∃ s0 : State, s0 = { s with codesValid := false, codes := Vector.replicate 257 Code.absent } :=
    ⟨_, rfl⟩
  have h0 : s0.holds t s0.root = true := by
    rw [hs0]; exact (holds_congr (by rfl) _ _).trans ht
  have hw : (match s0.nodeAt s0.root with
        | none => .fault .nodeStoreBroken
        | some d => if d.leaf then recordCode d.sym [false] s0 else codeWalk (Config.maxLen + 1) s0.root [] s0) =
      Host.Outcome.next (recordAll t.codeList s0) := by
    cases t with
    | leaf sym =>
      obtain ⟨d, hd, hl, rfl⟩ := holds_leaf.mp h0
      simp only [HTree.symbolsOk, HTree.symbols, List.all_cons, List.all_nil, Bool.and_true, decide_eq_true_eq] at hok
      simp [hd, hl, HTree.codeList, recordAll, recordCode, symbolIndex_some hok]
    | node l r =>
      obtain ⟨d, hd, hl, _⟩ := holds_node.mp h0
      have := codeWalk_spec (.node l r) (k := Config.maxLen + 1) (p := []) h0 (by simp [Config.maxLen]; omega) hok
      simp only [hd, hl, Bool.false_eq_true, if_false, this, HTree.codeList]
      all_goals simp
  refine ⟨{ recordAll t.codeList s0 with codesValid := true }, ?_, ?_, ?_⟩
  · show andThen _ _ = _
    dsimp only
    rw [show s0.root = s.root by rw [hs0]] at hw
    rw [← hs0]
    exact congrArg (fun o => andThen o fun u => Host.Outcome.next { u with codesValid := true }) hw
  · intro i
    have := codeAt_recordAll t.codeList s0 i (by rw [HTree.map_fst_codeList]; exact hnd)
    rw [show State.codeAt { recordAll t.codeList s0 with codesValid := true } i = (recordAll t.codeList s0).codeAt i
      from rfl, this, codeFor]
    have hi : s0.codeAt i = Code.absent := by simp [hs0, State.codeAt]
    cases List.lookup (BitVec.ofNat 9 i.val) t.codeList with
    | none => exact hi
    | some b => rfl
  · rw [recordAll_frame, hs0]

/-! ### Reading the table -/

theorem lookup_of_mem {t : HTree} (hnd : t.symbols.Nodup) {s : Symbol} {b : Bits} (h : (s, b) ∈ t.codeList) :
    t.codeList.lookup s = some b := by
  rw [← HTree.map_fst_codeList] at hnd
  revert hnd h
  generalize t.codeList = l
  intro hnd h
  induction l with
  | nil => cases h
  | cons x l ih =>
    obtain ⟨y, c⟩ := x
    simp only [List.map_cons, List.nodup_cons] at hnd
    rcases List.mem_cons.mp h with e | hm
    · cases e; simp
    · have hne : s ≠ y := by
        rintro rfl
        exact hnd.1 (List.mem_map.mpr ⟨(s, b), hm, rfl⟩)
      rw [List.lookup_cons, show (s == y) = false by simpa using hne]
      exact ih hnd.2 hm

theorem mem_of_lookup {l : List (Symbol × Bits)} {s : Symbol} {b : Bits} (h : l.lookup s = some b) : (s, b) ∈ l := by
  induction l with
  | nil => simp at h
  | cons x l ih =>
    obtain ⟨y, c⟩ := x
    rw [List.lookup_cons] at h
    split at h
    · next e => cases h; simp at e; simp [e]
    · simp [ih h]

/-- The entry of a symbol: absent without a leaf, else the leaf's code, of length 1 to 256. -/
theorem codeFor_cases {t : HTree} (hh : t.height ≤ 256) (i : Fin 257) :
    (BitVec.ofNat 9 i.val ∉ t.symbols ∧ codeFor t i = Code.absent) ∨
      ∃ b, (BitVec.ofNat 9 i.val, b) ∈ t.codeList ∧ (codeFor t i).bits = b ∧ (codeFor t i).len.toNat = b.length ∧
        1 ≤ b.length ∧ b.length ≤ 256 := by
  rw [codeFor]
  cases h : t.codeList.lookup (BitVec.ofNat 9 i.val) with
  | none =>
    left
    refine ⟨fun hm => ?_, rfl⟩
    rw [← HTree.map_fst_codeList, List.mem_map] at hm
    obtain ⟨q, hq, e⟩ := hm
    rw [List.lookup_eq_none_iff] at h
    simpa [e] using h q hq
  | some b =>
    right
    have hm := mem_of_lookup h
    have h1 := HTree.codeList_length_le hm hh
    have h2 := List.length_pos_iff.mpr (HTree.codeList_ne_nil hm)
    exact ⟨b, hm, rfl, by simp; omega, h2, h1⟩

end Sys2Proof.Machine
end

