-- ==== Sys2Proof/Laws/Commands.lean ====
section
/-! SUPPORT. What the pseudocode of each command leaves, in each of its cases, on its own and as a step of COMPRESS or
DECOMPRESS. -/

namespace Sys2Proof.Machine

/-! ### Preconditions -/

theorem firstUnmet_congr {ps : List Precondition} {s t : State} (h1 : t.freqValid = s.freqValid)
    (h2 : t.treeValid = s.treeValid) (h3 : t.treeSrc = s.treeSrc) (h4 : t.codesValid = s.codesValid) :
    firstUnmet ps t = firstUnmet ps s := by
  have : (fun p : Precondition => !p.holds t) = fun p => !p.holds s := by
    funext p
    cases p <;> simp [Precondition.holds, h1, h2, h3, h4]
  rw [firstUnmet, firstUnmet, this]

theorem firstUnmet_none {ps : List Precondition} {s : State} (h : ∀ p ∈ ps, p.holds s = true) :
    firstUnmet ps s = none := by
  rw [firstUnmet, List.find?_eq_none]
  intro p hp
  simp [h p hp]

/-- A command whose preconditions hold runs its pseudocode. -/
theorem runCommand_met {p : Primitive} {s : State} (h : s.Ready) (hm : firstUnmet p.needs s = none) :
    runCommand p s = finish (p.body { s with busy := true, curOp := p.op }) := by
  have hm' : firstUnmet p.needs { s with busy := true, curOp := p.op } = none :=
    (firstUnmet_congr (s := s) rfl rfl rfl rfl).trans hm
  rw [runCommand_ready h, run_met hm']

/-- A step of a pipeline whose preconditions hold and that ends well hands on to the next. -/
theorem runSteps_step {k : Nat} {p : Primitive} {ps : List Primitive} {s t : State} (hm : firstUnmet p.needs s = none)
    (hb : p.body { s with cstep := BitVec.ofNat 3 k, curOp := p.op } = .next t) (he : t.err = false) :
    runSteps k (p :: ps) s = runSteps (k + 1) ps t := by
  have hm' : firstUnmet p.needs { s with cstep := BitVec.ofNat 3 k, curOp := p.op } = none :=
    (firstUnmet_congr (s := s) rfl rfl rfl rfl).trans hm
  rw [runSteps_cons, run_met hm', hb, unlessRaised_next _ he]

/-- A step of a pipeline whose preconditions hold and that raises an error ends the pipeline (60_exceptions.md R208). -/
theorem runSteps_raised {k : Nat} {p : Primitive} {ps : List Primitive} {s t : State}
    (hm : firstUnmet p.needs s = none) (hb : p.body { s with cstep := BitVec.ofNat 3 k, curOp := p.op } = .next t)
    (he : t.err = true) : runSteps k (p :: ps) s = .next t := by
  have hm' : firstUnmet p.needs { s with cstep := BitVec.ofNat 3 k, curOp := p.op } = none :=
    (firstUnmet_congr (s := s) rfl rfl rfl rfl).trans hm
  rw [runSteps_cons, run_met hm', hb, unlessRaised_raised _ he]

theorem ErrorEntry.raised {code : BitVec 4} {sub op : BitVec 8} {data : Word} {s t : State}
    (h : ErrorEntry code sub op data s t) : t.err = true := by
  rw [show t = _ from h]

/-! ### COUNT -/

theorem freqAt_countStart (s : State) (i : Fin 257) (h : i ≠ eofIndex) : (countStart s).freqAt i = 0 := by
  have hi : ¬ (256 = i.val) := fun e => h (Fin.ext e.symm)
  simp [State.freqAt, countStart, hi]

theorem byteIndex_ne_eof (v : Nat) : byteIndex v ≠ eofIndex := by
  intro h
  have := congrArg Fin.val h
  simp [byteIndex, eofIndex] at this
  omega

theorem byteIndex_injective {a b : Byte} (h : byteIndex a.toNat = byteIndex b.toNat) : a = b := by
  have := congrArg Fin.val h
  have ha := a.isLt
  have hb := b.isLt
  simp only [byteIndex] at this
  exact BitVec.eq_of_toNat_eq (by omega)

theorem countP_byteIndex (bs : List Byte) (b : Byte) :
    (bs.countP fun x => decide (byteIndex b.toNat = byteIndex x.toNat)) = bs.count b := by
  rw [List.count]
  apply List.countP_congr
  intro x _
  simp only [decide_eq_true_eq, beq_iff_eq]
  exact ⟨fun h => (byteIndex_injective h).symm, fun h => by rw [h]⟩

/-- The number of occurrences of a symbol in a sequence of bytes, the end-of-stream symbol being there once. -/
def tally (bs : List Byte) (i : Fin 257) : Nat :=
  if i = eofIndex then 1 else bs.countP fun b => decide (i = byteIndex b.toNat)

/-- COUNT within its capacity. -/
theorem countPrim_spec {s : State} {bs : List Byte} {rest : Bits} (hw : s.WidthOk) (he : s.err = false)
    (hu : s.unread = bitsOf bs ++ rest) (hr : rest.length < 8) (hl : bs.length ≤ 2 ^ s.wCnt - 2) :
    ∃ t, countPrim.body s = .next t ∧ t.total.toNat = bs.length ∧ (∀ i, (t.freqAt i).toNat = tally bs i) ∧
      t = { s with
        freq := t.freq
        total := t.total
        freqValid := true
        treeValid := false
        treeSrc := false
        codesValid := false
        inPos := s.inBits.length
        portTrace := t.portTrace } := by
  have hp := Nat.pow_le_pow_right (n := 2) (by omega) hw.1
  have hp' := Nat.pow_le_pow_right (n := 2) (by omega) hw.2
  obtain ⟨u, e, h1, h2, h3⟩ := countLoop_spec bs (k := s.groupBound) (s := countStart s) hu hr (groupBound_gt hu) hw
    (by simp [countStart]; omega)
  refine ⟨countEnd u, ?_, ?_, ?_, ?_⟩
  · show unlessRaised (countLoop s.groupBound (countStart s)) _ = _
    rw [e, unlessRaised_next _ (by rw [h3]; exact he)]
  · have : (countEnd u).total = u.total := rfl
    rw [this, h1]; simp [countStart]
  · intro i
    rw [tally]
    split
    · next hi => subst hi; simp [countEnd, State.freqAt, State.setFreq]
    · next hi =>
      have hi' : ¬ (eofIndex.val = i.val) := fun e => hi (Fin.ext e.symm)
      have : (countEnd u).freqAt i = u.freqAt i := by
        simp [countEnd, State.freqAt, State.setFreq, hi']
      rw [this, h2, freqAt_countStart s i hi]
      have hle := List.countP_le_length (p := fun b : Byte => decide (i = byteIndex b.toNat)) (l := bs)
      simp
      omega
  · have hfr : countEnd u = { u with freq := (countEnd u).freq, freqValid := true } := rfl
    rw [hfr, h3]
    rfl

/-- COUNT beyond its capacity. -/
theorem countPrim_full {s : State} {bs : List Byte} {rest : Bits} (hw : s.WidthOk)
    (hu : s.unread = bitsOf bs ++ rest) (hl : 2 ^ s.wCnt - 2 < bs.length) :
    ∃ t, countPrim.body s = .next t ∧ ErrorEntry 5 1 s.curOp 0 { s with
      freq := t.freq
      total := t.total
      busy := false
      inPos := s.inPos + 8 * (2 ^ s.wCnt - 1)
      portTrace := t.portTrace } t := by
  have hp := Nat.pow_le_pow_right (n := 2) (by omega) hw.1
  obtain ⟨u, e, h⟩ := countLoop_full bs (k := s.groupBound) (s := countStart s) hu (groupBound_gt hu) hw
    (by simp [countStart]; omega) (by simp [countStart]; omega)
  refine ⟨raise .capacityExceeded 1 0 u, ?_, ?_⟩
  · show unlessRaised (countLoop s.groupBound (countStart s)) _ = _
    rw [e, unlessRaised_raised _ rfl]
  · rw [h]
    simp [ErrorEntry, raise, raiseAs, State.clearValid, State.discardHidden, countStart, ErrorKind.code]

theorem sum_tally (bs : List Byte) : ((List.finRange 257).map (tally bs)).sum = bs.length + 1 := by
  have h1 : (List.finRange 257).map (tally bs) = (List.finRange 257).map fun i =>
      (if i = eofIndex then 1 else 0) + (bs.map fun b => if i = byteIndex b.toNat then 1 else 0).sum := by
    apply List.map_congr_left
    intro i _
    rw [tally]
    have h2 : (bs.map fun b => if i = byteIndex b.toNat then 1 else 0).sum =
        bs.countP fun b => decide (i = byteIndex b.toNat) := by
      induction bs with
      | nil => rfl
      | cons b bs ih => rw [List.map_cons, List.sum_cons, ih, List.countP_cons]; simp; omega
    rw [h2]
    split
    · next hi =>
      subst hi
      have : (bs.countP fun b => decide (eofIndex = byteIndex b.toNat)) = 0 := by
        rw [List.countP_eq_zero]
        intro b _
        simpa using (byteIndex_ne_eof b.toNat).symm
      rw [this]
    · simp
  rw [h1]
  have key : ∀ j : Fin 257, ((List.finRange 257).map fun i => if i = j then 1 else 0).sum = 1 := by
    intro j
    rw [← List.sum_toFinset _ (List.nodup_finRange 257)]
    simp
  have hadd : ∀ f g : Fin 257 → Nat, ((List.finRange 257).map fun i => f i + g i).sum =
      ((List.finRange 257).map f).sum + ((List.finRange 257).map g).sum := fun f g => List.sum_map_add
  rw [hadd, key]
  have hb : ((List.finRange 257).map fun i => (bs.map fun b => if i = byteIndex b.toNat then 1 else 0).sum).sum =
      bs.length := by
    have hz : ∀ l : List (Fin 257), (l.map fun _ => 0).sum = 0 := by
      intro l
      induction l <;> simp_all
    clear h1
    induction bs with
    | nil => exact hz _
    | cons b bs ih => simp only [List.map_cons, List.sum_cons, hadd, key, List.length_cons] at ih ⊢; rw [ih]; omega
  rw [hb]; omega

/-- What a completed COUNT leaves meets FreqOk. -/
theorem freqOk_of_tally {s t : State} {bs : List Byte} (hl : bs.length ≤ 2 ^ s.wCnt - 2) (hw : s.WidthOk)
    (ht : t.total.toNat = bs.length) (hf : ∀ i, (t.freqAt i).toNat = tally bs i) (hwc : t.wCnt = s.wCnt) : t.FreqOk := by
  have hp := Nat.pow_le_pow_right (n := 2) (by omega) hw.1
  refine ⟨?_, ?_, ?_⟩
  · apply BitVec.eq_of_toNat_eq
    rw [hf]; simp [tally]
  · have : ((List.finRange 257).map fun i => (t.freqAt i).toNat) = (List.finRange 257).map (tally bs) :=
      List.map_congr_left fun i _ => hf i
    rw [this, sum_tally, ht]
  · rw [ht, hwc]; omega

/-! ### WRTREE, RDMAGIC, RDTREE -/

theorem wrtreePrim_spec {s : State} {t : HTree} (h : s.holds t s.root = true) (hh : t.height ≤ 256) :
    ∃ tr, wrtreePrim.body s = .next { s with outBits := s.outBits ++ t.header, portTrace := tr } :=
  writeTree_spec t h (by simp [Config.maxLen]; omega)

theorem rdmagicPrim_short {s : State} (h : s.unread.length < 32) :
    rdmagicPrim.body s = .next (raise .badMagicNumber 1 0 (s.seek s.inBits.length)) := by
  simp only [rdmagicPrim]
  rw [readBits_none h]

theorem rdmagicPrim_read {s : State} {v : Word} {rest : Bits} (h : s.unread = bin 32 v.toNat ++ rest) :
    rdmagicPrim.body s = .next (checkMagic v (s.seek (s.inPos + 32))) := by
  simp only [rdmagicPrim, Config.magicBits]
  have := readBits_some (n := 32) (s := s) (by rw [h]; simp) (by omega)
  rw [this]
  have e : (s.unread.take 32) = bin 32 v.toNat := by rw [h]; simp
  rw [e, val_bin_of_lt v.isLt]
  simp

/-- RDTREE on a header. -/
theorem rdtreePrim_header {s : State} {t : HTree} {rest : Bits} (hu : s.unread = t.header ++ rest)
    (hs : t.symbolsOk = true) (hz : t.size ≤ 513) :
    ∃ u, rdtreePrim.body s = .next u ∧ u.holds t u.root = true ∧ u.TreeOk ∧ u.ncount.toNat = t.size ∧
      u.marks = u.ncount ∧ u.unread = rest ∧
      (∀ x < u.ncount.toNat, (u.nodes[x]?.map Node.weight) = some 0) ∧
      u = { s with
        nodes := u.nodes
        ncount := u.ncount
        root := u.root
        treeValid := true
        treeSrc := true
        codesValid := false
        marks := u.marks
        rdStack := []
        inPos := s.inPos + t.header.length
        portTrace := u.portTrace } := by
  obtain ⟨s0, h0⟩ : ∃ s0 : State, s0 = { s with treeValid := false, codesValid := false, ncount := 0, marks := 0, rdStack := [] } := ⟨_, rfl⟩
  have hm : s0.marks.toNat = 0 := by rw [h0]; rfl
  have hn : s0.ncount.toNat = 0 := by rw [h0]; rfl
  have hst : s0.rdStack = [] := by rw [h0]
  obtain ⟨ix, s', e, R⟩ := readTree_header t (k := 514 - t.size) (s := s0) (rest := rest) (by rw [h0]; exact hu)
    (by omega) (by omega) hs
  rw [hst, show 514 - t.size + t.size = 514 by omega, subtreeDone] at e
  have m := R.marks
  have n := R.ncount
  have hf := (R.forest (roots := []) (Forest.empty (by rw [h0])))
  refine ⟨{ s' with root := ix, treeSrc := true, treeValid := true, rdStack := [] }, ?_, ?_, ?_, ?_, ?_, R.unread, ?_, ?_⟩
  · simp only [rdtreePrim, Config.nmax]
    rw [← h0]
    exact e
  · exact (holds_congr (by rfl) _ _).trans R.holds
  · exact Forest.treeOk (hf.congr rfl rfl)
  · show s'.ncount.toNat = _
    omega
  · exact BitVec.eq_of_toNat_eq (by show s'.marks.toNat = s'.ncount.toNat; omega)
  · intro x hx
    exact R.weight x (by omega) hx
  · rw [R.frame, h0]

/-- How RDTREE stands after the front of a header. -/
theorem rdtreePrim_front {s : State} {ts : List Token} {rest : Bits} (hu : s.unread = ts.flatMap Token.bits ++ rest)
    (hf : headerFront ts = true) (hl : ts.length ≤ 513) :
    ∃ u, (∃ k, rdtreePrim.body s = readTree (k + 1) u) ∧ u.unread = rest ∧ u.marks.toNat = ts.length ∧
      u = { s with
        treeValid := false
        codesValid := false
        nodes := u.nodes
        ncount := u.ncount
        marks := u.marks
        inPos := s.inPos + (ts.flatMap Token.bits).length
        portTrace := u.portTrace
        rdStack := u.rdStack } := by
  obtain ⟨n, hn⟩ := headerFront_iff.mp hf
  obtain ⟨u, e, h1, h2, h3, h4, h5⟩ := readTree_front ts (k := 514 - ts.length)
    (s := { s with treeValid := false, codesValid := false, ncount := 0, marks := 0, rdStack := [] }) hu (by simp)
    (by simpa using hl) hn
  refine ⟨u, ⟨513 - ts.length, ?_⟩, h1, by simpa using h2, h5⟩
  rw [show 514 - ts.length + ts.length = 514 by omega] at e
  rw [show 513 - ts.length + 1 = 514 - ts.length by omega]
  exact e

/-- RDTREE when an error is raised after the front of a header. -/
theorem rdtreePrim_raises {s : State} {ts : List Token} {rest : Bits} {sub : BitVec 8} {data : Word} {p : Nat}
    (hu : s.unread = ts.flatMap Token.bits ++ rest) (hf : headerFront ts = true) (hl : ts.length ≤ 513)
    (h : ∀ (k : Nat) (u : State), u.unread = rest → u.marks.toNat = ts.length → u.inBits = s.inBits →
      u.inPos = s.inPos + (ts.flatMap Token.bits).length → ∃ m tr,
        readTree (k + 1) u = .next (raise .malformedHeader sub data { u with inPos := p, marks := m, portTrace := tr })) :
    ∃ t, rdtreePrim.body s = .next t ∧ ErrorEntry 2 sub s.curOp data { s with
      busy := false
      nodes := t.nodes
      ncount := t.ncount
      inPos := p
      portTrace := t.portTrace } t := by
  obtain ⟨u, ⟨k, e⟩, h1, h2, h3⟩ := rdtreePrim_front hu hf hl
  obtain ⟨m, tr, e'⟩ := h k u h1 h2 (by rw [h3]) (by rw [h3])
  exact ⟨_, e.trans e', by rw [h3]; rfl⟩

theorem rdtreePrim_noMarker {s : State} {ts : List Token} (hu : s.unread = ts.flatMap Token.bits)
    (hf : headerFront ts = true) (hl : ts.length ≤ 513) :
    ∃ t, rdtreePrim.body s = .next t ∧ ErrorEntry 2 1 s.curOp 0 { s with
      busy := false
      nodes := t.nodes
      ncount := t.ncount
      inPos := s.inBits.length
      portTrace := t.portTrace } t :=
  rdtreePrim_raises (rest := []) (by simpa using hu) hf hl fun k u h1 _ h3 _ =>
    ⟨_, _, by rw [readTree_noMarker k h1, ← h3]; rfl⟩

theorem rdtreePrim_shortField {s : State} {ts : List Token} {rest : Bits}
    (hu : s.unread = ts.flatMap Token.bits ++ true :: rest) (hf : headerFront ts = true) (hl : ts.length < 513)
    (hr : rest.length < 9) :
    ∃ t, rdtreePrim.body s = .next t ∧ ErrorEntry 2 2 s.curOp 0 { s with
      busy := false
      nodes := t.nodes
      ncount := t.ncount
      inPos := s.inBits.length
      portTrace := t.portTrace } t :=
  rdtreePrim_raises hu hf (by omega) fun k u h1 h2 h3 _ =>
    ⟨_, _, by rw [readTree_shortField k h1 (by omega) hr, ← h3]; rfl⟩

theorem rdtreePrim_badSymbol {s : State} {ts : List Token} {v : Symbol} {rest : Bits}
    (hu : s.unread = ts.flatMap Token.bits ++ (true :: bin 9 v.toNat) ++ rest) (hf : headerFront ts = true)
    (hl : ts.length < 513) (hv : 256 < v.toNat) :
    ∃ t, rdtreePrim.body s = .next t ∧ ErrorEntry 2 3 s.curOp (v.setWidth 32) { s with
      busy := false
      nodes := t.nodes
      ncount := t.ncount
      inPos := s.inPos + (ts.flatMap Token.bits).length + 10
      portTrace := t.portTrace } t :=
  rdtreePrim_raises (hu.trans (List.append_assoc _ _ _)) hf (by omega) fun k u h1 h2 _ h4 =>
    ⟨_, _, by rw [readTree_badSymbol k h1 (by omega) hv, ← h4]; rfl⟩

theorem rdtreePrim_tooMany {s : State} {ts : List Token} {x : Bool} {rest : Bits}
    (hu : s.unread = ts.flatMap Token.bits ++ x :: rest) (hf : headerFront ts = true) (hl : ts.length = 513) :
    ∃ t, rdtreePrim.body s = .next t ∧ ErrorEntry 2 4 s.curOp 514 { s with
      busy := false
      nodes := t.nodes
      ncount := t.ncount
      inPos := s.inPos + (ts.flatMap Token.bits).length + 1
      portTrace := t.portTrace } t :=
  rdtreePrim_raises hu hf (by omega) fun k u h1 h2 _ h4 =>
    ⟨_, _, by rw [readTree_tooMany k h1 (by omega), ← h4]; rfl⟩

/-! ### ENCODE and DECODE -/

theorem encodePrim_spec {s : State} {bs : List Byte} {rest : Bits} (he : s.err = false)
    (hu : s.unread = bitsOf bs ++ rest) (hr : rest.length < 8) (hc : ∀ b ∈ bs, s.hasCode b = true)
    (hz : (s.codeAt eofIndex).len ≠ 0) :
    ∃ tr, encodePrim.body s = .next { s with
      outBits := s.outBits ++ bs.flatMap s.codeBits ++ s.eofBits
      inPos := s.inBits.length
      portTrace := tr } := by
  obtain ⟨tr, e⟩ := encodeLoop_spec bs (k := s.groupBound) hu hr (groupBound_gt hu) he hc
  obtain ⟨u, hdef⟩ : ∃ u : State, u = { s with
    outBits := s.outBits ++ bs.flatMap s.codeBits, inPos := s.inBits.length, portTrace := tr } := ⟨_, rfl⟩
  rw [← hdef] at e
  have hue : u.err = false := by rw [hdef]; exact he
  have huz : (u.codeAt eofIndex).len ≠ 0 := by rw [hdef]; exact hz
  refine ⟨(encodeSymbol eofIndex u).portTrace, ?_⟩
  show unlessRaised (encodeLoop s.groupBound s) _ = _
  rw [e, unlessRaised_next _ hue, encodeSymbol_present huz, hdef]
  rfl

theorem decodePrim_spec {s : State} {t : HTree} {ws : List (Byte × Bits)} {p rest : Bits}
    (h : s.holds t s.root = true) (hp : ∀ w ∈ ws, t.spells (byteSymbol w.1) w.2 = true) (hz : t.spells 256 p = true)
    (hu : s.unread = ws.flatMap Prod.snd ++ p ++ rest) :
    ∃ c tr, decodePrim.body s = .next { s with
      cur := c
      outBits := s.outBits ++ bitsOf (ws.map Prod.fst)
      inPos := s.inPos + (ws.flatMap Prod.snd).length + p.length
      portTrace := tr } := by
  have hlen := congrArg List.length hu
  rw [length_unread] at hlen
  simp only [List.length_append] at hlen
  have hsp : p ≠ [] := by
    rintro rfl
    cases t with
    | leaf x => simp [HTree.spells] at hz
    | node l r =>
      simp only [HTree.spells, decide_eq_true_eq] at hz
      exact HTree.paths_node_ne_nil hz rfl
  have hpl := List.length_pos_iff.mpr hsp
  obtain ⟨tr, e⟩ := decodeLoop_bytes ws (k := s.inBits.length - s.inPos + 1 - (ws.flatMap Prod.snd).length)
    (s := { s with cur := s.root }) (rest := p ++ rest) ((holds_congr (by rfl) _ _).trans h) rfl hp
    (by rw [← List.append_assoc]; exact hu)
  obtain ⟨c, tr', e'⟩ := decodeLoop_symbol (t := t) (p := p) (sym := 256) (rest := rest)
    (k := s.inBits.length - s.inPos + 1 - (ws.flatMap Prod.snd).length - p.length)
    (s := { s with
      cur := s.root, outBits := s.outBits ++ bitsOf (ws.map Prod.fst)
      inPos := s.inPos + (ws.flatMap Prod.snd).length, portTrace := tr })
    ((holds_congr (by rfl) _ _).trans h) rfl hz (by
      have : s.unread.drop (ws.flatMap Prod.snd).length = p ++ rest := by rw [hu, List.append_assoc]; simp
      rw [← this]
      simp [State.unread, List.drop_drop])
  refine ⟨c, tr', ?_⟩
  simp only [decodePrim]
  rw [show s.inBits.length - s.inPos + 1 = s.inBits.length - s.inPos + 1 - (ws.flatMap Prod.snd).length +
    (ws.flatMap Prod.snd).length by omega, e]
  rw [show s.inBits.length - s.inPos + 1 - (ws.flatMap Prod.snd).length =
    s.inBits.length - s.inPos + 1 - (ws.flatMap Prod.snd).length - p.length + p.length by omega]
  refine e'.trans ?_
  rw [atLeaf, if_pos rfl]

theorem decodePrim_short {s : State} {t : HTree} {ws : List (Byte × Bits)} {p : Bits}
    (h : s.holds t s.root = true) (hp : ∀ w ∈ ws, t.spells (byteSymbol w.1) w.2 = true) (hz : t.unfinished p = true)
    (hu : s.unread = ws.flatMap Prod.snd ++ p) :
    ∃ c tr, decodePrim.body s = .next (raise .truncatedPayload 1 0 { s with
      cur := c
      outBits := s.outBits ++ bitsOf (ws.map Prod.fst)
      inPos := s.inBits.length
      portTrace := tr }) := by
  have hlen := congrArg List.length hu
  rw [length_unread] at hlen
  simp only [List.length_append] at hlen
  obtain ⟨tr, e⟩ := decodeLoop_bytes ws (k := s.inBits.length - s.inPos + 1 - (ws.flatMap Prod.snd).length)
    (s := { s with cur := s.root }) (rest := p) ((holds_congr (by rfl) _ _).trans h) rfl hp hu
  obtain ⟨c, tr', e'⟩ := decodeLoop_short (t := t) (p := p)
    (k := s.inBits.length - s.inPos - (ws.flatMap Prod.snd).length - p.length)
    (s := { s with
      cur := s.root, outBits := s.outBits ++ bitsOf (ws.map Prod.fst)
      inPos := s.inPos + (ws.flatMap Prod.snd).length, portTrace := tr })
    ((holds_congr (by rfl) _ _).trans h) rfl hz (by
      have : s.unread.drop (ws.flatMap Prod.snd).length = p := by rw [hu]; simp
      rw [← this]
      simp [State.unread, List.drop_drop])
  refine ⟨c, tr', ?_⟩
  simp only [decodePrim]
  rw [show s.inBits.length - s.inPos + 1 = s.inBits.length - s.inPos + 1 - (ws.flatMap Prod.snd).length +
    (ws.flatMap Prod.snd).length by omega, e]
  rw [show s.inBits.length - s.inPos + 1 - (ws.flatMap Prod.snd).length =
    s.inBits.length - s.inPos - (ws.flatMap Prod.snd).length - p.length + p.length + 1 by omega]
  exact e'

end Sys2Proof.Machine
end

