-- ==== Sys2Proof/Laws/Exec.lean ====
section
/-! SUPPORT. What every instruction does to the ports and the parameters: nothing but reads and writes; and how a host
move comes to be the next step. -/

namespace Sys2Proof.Machine

/-- Two states with the same ports, parameters and host side. -/
structure SamePorts (s t : State) : Prop where
  magic : t.magic = s.magic
  wCnt : t.wCnt = s.wCnt
  inBits : t.inBits = s.inBits
  inPos : t.inPos = s.inPos
  outBits : t.outBits = s.outBits
  portTrace : t.portTrace = s.portTrace
  script : t.script = s.script
  hostLog : t.hostLog = s.hostLog

theorem newNode_samePorts : AcrossNewNode SamePorts := by
  intro n s i t h
  obtain ⟨_, _, rfl⟩ := newNode_eq_some h
  constructor <;> rfl

/-- Any relation that holds across reads and writes and between states with the same ports holds across every
instruction. -/
theorem exec_along {R : State → State → Prop} (hR : Along R) (hs : AcrossSeek R) (hw : AcrossWrite R)
    (ho : ∀ s t, SamePorts s t → R s t) {i : Instr} {s t : State} (h : exec i s = .next t) : R s t := by
  have hr : AcrossRaise R := fun op e sub data s => ho _ _ (by constructor <;> rfl)
  have hn : AcrossNewNode R := fun n s i t h => ho _ _ (newNode_samePorts n s i t h)
  have hcount : ∀ {s t}, countPrim.body s = .next t → R s t := fun h => countPrim_along hR hs hr
    (fun s => ho _ _ (by constructor <;> rfl)) (fun v s => ho _ _ (by constructor <;> rfl))
    (fun s => ho _ _ (by constructor <;> rfl)) h
  have hrewind : ∀ {s t}, rewindPrim.body s = .next t → R s t := fun h => rewindPrim_along hs h
  have hbuild : ∀ {s t}, buildPrim.body s = .next t → R s t := fun h => buildPrim_along hR hn
    (fun s l => ho _ _ (by constructor <;> rfl)) (fun s => ho _ _ (by constructor <;> rfl))
    (fun s r => ho _ _ (by constructor <;> rfl)) h
  have hgen : ∀ {s t}, gencodesPrim.body s = .next t → R s t := fun h => gencodesPrim_along hR
    (fun s => ho _ _ (by constructor <;> rfl)) (fun i p s => ho _ _ (by constructor <;> rfl))
    (fun s => ho _ _ (by constructor <;> rfl)) h
  have hwm : ∀ {s t}, wrmagicPrim.body s = .next t → R s t := fun h => wrmagicPrim_along hw h
  have hwt : ∀ {s t}, wrtreePrim.body s = .next t → R s t := fun h => wrtreePrim_along hR hw h
  have hrm : ∀ {s t}, rdmagicPrim.body s = .next t → R s t := fun h => rdmagicPrim_along hR hs hr h
  have hst : ∀ s l, R s { s with rdStack := l } := fun s l => ho _ _ (by constructor <;> rfl)
  have hroot : ∀ s i, R s { s with root := i, treeSrc := true, treeValid := true, rdStack := [] } :=
    fun s i => ho _ _ (by constructor <;> rfl)
  have hrt : ∀ {s t}, rdtreePrim.body s = .next t → R s t := fun h => rdtreePrim_along hR hs hr
    (fun s => ho _ _ (by constructor <;> rfl)) hn hst (fun s => ho _ _ (by constructor <;> rfl)) hroot h
  have henc : ∀ {s t}, encodePrim.body s = .next t → R s t := fun h => encodePrim_along hR hs hw hr h
  have hclose : ∀ {s t}, closePrim.body s = .next t → R s t := fun h => closePrim_along hR hw h
  have hdec : ∀ {s t}, decodePrim.body s = .next t → R s t := fun h => decodePrim_along hR hs hw hr
    (fun s c => ho _ _ (by constructor <;> rfl)) h
  have hbegin : ∀ s op, R s { s with busy := true, curOp := op } := fun s op => ho _ _ (by constructor <;> rfl)
  have hend : ∀ s, R s { s with busy := false } := fun s => ho _ _ (by constructor <;> rfl)
  have hstep : ∀ s k op, R s { s with cstep := k, curOp := op } := fun s k op => ho _ _ (by constructor <;> rfl)
  have hcmd : ∀ {p : Primitive} {s t}, (∀ {s t}, p.body s = .next t → R s t) → runCommand p s = .next t → R s t :=
    fun hb h => runCommand_along hR hr hbegin hend hb h
  have htok : ∀ {tok : Token} {s t}, oneToken tok s = .next t → R s t := by
    intro tok s t h
    rw [oneToken] at h
    split at h
    · have ht := fun x (hx : (takeToken tok s).state? = some x) => takeToken_along hR hr hn hst hroot hx
      split at h
      · next u e => cases h; exact ht _ (by rw [e]; rfl)
      · next u e => cases h; exact hR.trans (ht u (by rw [e]; rfl)) (hend u)
      · next u e => cases h; exact ht _ (by rw [e]; rfl)
      · cases h
    · cases h
  cases i with
  | nop => exact hcmd (fun h => by cases h; exact hR.refl _) h
  | count => exact hcmd hcount h
  | rewind => exact hcmd hrewind h
  | build => exact hcmd hbuild h
  | gencodes => exact hcmd hgen h
  | wrmagic => exact hcmd hwm h
  | wrtree => exact hcmd hwt h
  | encode => exact hcmd henc h
  | close => exact hcmd hclose h
  | rdmagic => exact hcmd hrm h
  | rdtree => exact hcmd hrt h
  | decode => exact hcmd hdec h
  | compress =>
    refine hcmd (fun h => runSteps_along hR hr hstep _ ?_ _ h) h
    simp only [compressSteps, List.mem_cons, List.not_mem_nil, or_false, forall_eq_or_imp, forall_eq]
    exact ⟨hcount, hrewind, hbuild, hgen, hwm, hwt, henc, hclose⟩
  | decompress =>
    refine hcmd (fun h => runSteps_along hR hr hstep _ ?_ _ h) h
    simp only [decompressSteps, List.mem_cons, List.not_mem_nil, or_false, forall_eq_or_imp, forall_eq]
    exact ⟨hrm, hrt, hdec, hclose⟩
  | clear =>
    simp only [exec, execClear] at h
    split at h
    · cases h
    · split at h
      · cases h; exact ho _ _ (by constructor <;> rfl)
      · exact hcmd (fun h => by cases h; exact ho _ _ (by constructor <;> rfl)) h
  | reserved w =>
    simp only [exec, execReserved] at h
    split at h
    · cases h
    · split at h
      · cases h; exact hR.refl _
      · cases h; rw [illegalWord]; split <;> exact hr _ _ _ _ _
  | hdrInternal => exact htok (tok := .internal) h
  | hdrLeaf v => exact htok (tok := .leaf v) h
  | magicField v =>
    simp only [exec, execMagicField] at h
    split at h
    · cases h; exact hR.trans (checkMagic_along hR hr v s) (hend _)
    · cases h

/-- What every instruction keeps, and how it moves the ports. -/
structure PortsMove (s t : State) : Prop where
  magic : t.magic = s.magic
  wCnt : t.wCnt = s.wCnt
  script : t.script = s.script
  hostLog : t.hostLog = s.hostLog
  inBits : t.inBits = s.inBits
  inPos : s.inPos ≤ s.inBits.length → t.inPos ≤ t.inBits.length
  outBits : s.outBits <+: t.outBits
  trace : ∃ l, t.portTrace = l ++ s.portTrace ∧ ∀ m ∈ l,
    (s.inPos ≤ s.inBits.length → m.inPos ≤ t.inBits.length) ∧ s.outBits.length ≤ m.outLen ∧ m.outLen ≤ t.outBits.length

theorem portsMove_along : Along PortsMove where
  refl s := ⟨rfl, rfl, rfl, rfl, rfl, id, List.prefix_refl _, [], rfl, by simp⟩
  trans := by
    intro a b c h g
    obtain ⟨l, e, hl⟩ := h.trace
    obtain ⟨k, e', hk⟩ := g.trace
    refine ⟨g.magic.trans h.magic, g.wCnt.trans h.wCnt, g.script.trans h.script, g.hostLog.trans h.hostLog,
      g.inBits.trans h.inBits, fun x => g.inPos (h.inPos x), h.outBits.trans g.outBits, k ++ l, by
        rw [e', e, List.append_assoc], ?_⟩
    intro m hm
    have h1 := h.outBits.length_le
    have h2 := g.outBits.length_le
    rcases List.mem_append.mp hm with hm | hm
    · obtain ⟨x, y, z⟩ := hk m hm
      exact ⟨fun w => x (h.inPos w), by omega, z⟩
    · obtain ⟨x, y, z⟩ := hl m hm
      exact ⟨fun w => by rw [g.inBits]; exact x w, y, by omega⟩

theorem exec_ports {i : Instr} {s t : State} (h : exec i s = .next t) : PortsMove s t := by
  refine exec_along portsMove_along ?_ ?_ ?_ h
  · intro s p hp
    exact ⟨rfl, rfl, rfl, rfl, rfl, fun _ => hp, List.prefix_refl _, [_], rfl, by
      intro m hm
      cases List.mem_singleton.mp hm
      exact ⟨fun _ => hp, le_rfl, le_rfl⟩⟩
  · intro b s
    exact ⟨rfl, rfl, rfl, rfl, rfl, id, List.prefix_append _ _, [_], rfl, by
      intro m hm
      cases List.mem_singleton.mp hm
      exact ⟨id, by simp [State.portMark], le_rfl⟩⟩
  · intro s t h
    exact ⟨h.magic, h.wCnt, h.script, h.hostLog, h.inBits, by rw [h.inPos, h.inBits]; exact id,
      h.outBits ▸ List.prefix_refl _, [], h.portTrace, by simp⟩

/-! ### Host moves -/

/-- While BUSY = 0 a step is the host's next move. -/
theorem step_move {s : State} {m : HostMove} {rest : List HostMove} (hb : s.busy = false) :
    step { s with script := m :: rest } = hostMove m { s with script := rest } := by
  show (if s.busy && !allowedWhileBusy m then engineStep _ else hostMove m { s with script := rest }) = _
  rw [hb]; rfl

theorem mem_pickMark (first : PortMark) (rest : List PortMark) (n : Nat) : pickMark first rest n ∈ first :: rest := by
  rw [pickMark]
  cases h : (first :: rest)[n % (rest.length + 1)]? with
  | none => simp
  | some x => exact List.mem_of_getElem? h

theorem source_decodeCommand (w : Word) : (decodeCommand w).source = .cmd := by
  rw [decodeCommand]
  split
  · rfl
  · have hl : ∀ b : Byte, ((opcodeMap.lookup b).map Instr.source).getD .cmd = .cmd := by decide
    have := hl (opField w)
    cases h : opcodeMap.lookup (opField w) <;> rw [h] at this <;> simp_all [Instr.source]

end Sys2Proof.Machine
end

