-- ==== Sys2Proof/Laws/Pipelines.lean ====
section
/-! SUPPORT. The two pipelines step by step (45_control.md R182 to R184). -/

namespace Sys2Proof.Machine

theorem tally_byte (bs : List Byte) (b : Byte) : tally bs (byteIndex b.toNat) = bs.count b := by
  rw [tally, if_neg (byteIndex_ne_eof _), countP_byteIndex]

/-- A byte of the input has a count. -/
theorem tally_pos {bs : List Byte} {b : Byte} (h : b ∈ bs) : tally bs (byteIndex b.toNat) ≠ 0 := by
  rw [tally_byte]
  exact Nat.pos_iff_ne_zero.mp (List.count_pos_iff.mpr h)

theorem ofNat_byteIndex (b : Byte) : BitVec.ofNat 9 (byteIndex b.toNat).val = byteSymbol b := by
  apply BitVec.eq_of_toNat_eq
  have := b.isLt
  simp [byteIndex, byteSymbol]
  omega

/-- With a built tree and its code table, every symbol with a count has the code of its leaf. -/
theorem code_of_count {s : State} (h : s.TreeOk) (hb : s.BuiltOk) {t : HTree} (ht : s.holds t s.root = true)
    (hc : ∀ i, s.codeAt i = codeFor t i) {i : Fin 257} (hi : s.freqAt i ≠ 0) :
    (s.codeAt i).len ≠ 0 ∧ (BitVec.ofNat 9 i.val, (s.codeAt i).bits) ∈ t.codeList ∧
      (s.codeAt i).len.toNat = (s.codeAt i).bits.length := by
  rcases codeFor_cases (TreeOk.height h ht) i with ⟨hn, _⟩ | ⟨b, hm, hbits, hlen, h1, _⟩
  · exact absurd ((mem_symbols h hb ht i).mpr hi) hn
  · rw [hc]
    refine ⟨fun e => ?_, by rw [hbits]; exact hm, by rw [hlen, hbits]⟩
    rw [e] at hlen
    simp at hlen
    omega

/-- COMPRESS after its sixth step, WRTREE: the tables are those of the bytes it counted, magic and header are written, and
IN is back at its start. -/
structure Prepared (counted : List Byte) (s t : State) (tree : HTree) : Prop where
  holds : t.holds tree t.root = true
  treeOk : t.TreeOk
  built : t.BuiltOk
  weights : t.WeightsOk
  codes : ∀ i, t.codeAt i = codeFor tree i
  freq : ∀ i, (t.freqAt i).toNat = tally counted i
  total : t.total.toNat = counted.length
  frame : t = { s with
    curOp := 0x06
    cstep := 5
    freq := t.freq
    total := t.total
    nodes := t.nodes
    ncount := t.ncount
    root := t.root
    codes := t.codes
    pq := []
    freqValid := true
    treeValid := true
    treeSrc := false
    codesValid := true
    outBits := s.outBits ++ bin 32 s.magic.toNat ++ tree.header
    inPos := 0
    portTrace := t.portTrace }

/-- After preparation exactly the symbols with a count have a code. -/
theorem Prepared.code {counted : List Byte} {s t : State} {tree : HTree} (h : Prepared counted s t tree) (i : Fin 257) :
    (t.codeAt i).len ≠ 0 ↔ tally counted i ≠ 0 := by
  have hz : t.freqAt i ≠ 0 ↔ tally counted i ≠ 0 := by
    rw [← h.freq]
    exact ⟨fun g e => g (BitVec.eq_of_toNat_eq e), fun g e => g (by rw [e]; rfl)⟩
  rw [← hz]
  refine ⟨fun hl hf => hl ?_, fun hf => (code_of_count h.treeOk h.built h.holds h.codes hf).1⟩
  rcases codeFor_cases (TreeOk.height h.treeOk h.holds) i with ⟨_, e⟩ | ⟨b, hm, _⟩
  · rw [h.codes, e]; rfl
  · refine absurd hf ((mem_symbols h.treeOk h.built h.holds i).mp ?_)
    rw [← HTree.map_fst_codeList]
    exact List.mem_map.mpr ⟨_, hm, rfl⟩

/-- After preparation a byte has a code exactly when it was counted. -/
theorem Prepared.hasCode {counted : List Byte} {s t : State} {tree : HTree} (h : Prepared counted s t tree) (b : Byte) :
    t.hasCode b = true ↔ b ∈ counted := by
  rw [State.hasCode, decide_eq_true_eq, h.code, tally_byte, ← Nat.pos_iff_ne_zero, List.count_pos_iff]

/-- The first six steps of COMPRESS, from any INPOS, within the capacity of COUNT. -/
theorem compress_front {s : State} {counted : List Byte} {rest : Bits} (he : s.err = false) (hw : s.WidthOk)
    (hu : s.unread = bitsOf counted ++ rest) (hr : rest.length < 8) (hl : counted.length ≤ 2 ^ s.wCnt - 2) :
    ∃ t tree, compressPrim.body s = runSteps 6 [encodePrim, closePrim] t ∧ Prepared counted s t tree := by
  have hp' := Nat.pow_le_pow_right (n := 2) (by omega) hw.2
  show ∃ t tree, runSteps 0 compressSteps s = _ ∧ _
  -- COUNT
  obtain ⟨a1, ha1⟩ : ∃ a1 : State, a1 = { s with cstep := 0, curOp := 0x01 } := ⟨_, rfl⟩
  obtain ⟨s1, e1, ht1, hf1, hfr1⟩ := countPrim_spec (s := a1) (bs := counted) (rest := rest) (by rw [ha1]; exact hw)
    (by rw [ha1]; exact he) (by rw [ha1]; exact hu) hr (by rw [ha1]; exact hl)
  have hFO : s1.FreqOk := freqOk_of_tally (s := s) hl hw ht1 hf1 (by rw [hfr1, ha1])
  rw [compressSteps, runSteps_step (t := s1) rfl (by rw [ha1] at e1; exact e1) (by rw [hfr1, ha1]; exact he)]
  -- REWIND
  obtain ⟨s2, hs2⟩ : ∃ s2 : State, s2 = rewindIn { s1 with cstep := 1, curOp := 0x02 } := ⟨_, rfl⟩
  rw [runSteps_step (t := s2) rfl (by rw [hs2]; rfl) (by rw [hs2, hfr1, ha1]; exact he)]
  -- BUILD
  obtain ⟨a3, ha3⟩ : ∃ a3 : State, a3 = { s2 with cstep := 2, curOp := 0x03 } := ⟨_, rfl⟩
  have hfa3 : ∀ i, a3.freqAt i = s1.freqAt i := fun i => by rw [ha3, hs2]; rfl
  obtain ⟨s3, e3, B⟩ := buildPrim_spec (s := a3) (by rw [hfa3, hFO.1]; decide) (by
    have : ((List.finRange 257).map fun i => (a3.freqAt i).toNat) = (List.finRange 257).map fun i => (s1.freqAt i).toNat :=
      List.map_congr_left fun i _ => by rw [hfa3]
    rw [this, hFO.2.1, ht1]; omega)
  have hv3 : a3.freqValid = true := by rw [ha3, hs2, hfr1]; rfl
  rw [runSteps_step (t := s3) (firstUnmet_none (by
      intro p hp
      cases List.mem_singleton.mp hp
      rw [hs2, hfr1]; rfl))
    (by rw [ha3] at e3; exact e3) (by rw [B.frame, ha3, hs2, hfr1, ha1]; exact he)]
  -- GENCODES
  obtain ⟨tree, ht, _, _⟩ := TreeOk.tree B.tree
  obtain ⟨a4, ha4⟩ : ∃ a4 : State, a4 = { s3 with cstep := 3, curOp := 0x04 } := ⟨_, rfl⟩
  have hT4 : a4.TreeOk := by rw [ha4]; exact B.tree
  have hB4 : a4.BuiltOk := by rw [ha4]; exact B.built
  have hh4 : a4.holds tree a4.root = true := by rw [ha4]; exact (holds_congr (by rfl) _ _).trans ht
  obtain ⟨s4, e4, hc4, hfr4⟩ := gencodesPrim_spec hT4 hB4 hh4
  rw [runSteps_step (t := s4)
    (firstUnmet_none (by
      intro p hp
      rw [B.frame]
      rcases List.mem_cons.mp hp with rfl | hp
      · rfl
      · cases List.mem_singleton.mp hp; rfl))
    (by rw [ha4] at e4; exact e4) (by rw [hfr4, ha4, B.frame, ha3, hs2, hfr1, ha1]; exact he)]
  -- WRMAGIC
  obtain ⟨s5, hs5⟩ : ∃ s5 : State, s5 = writeBits 32 s4.magic.toNat { s4 with cstep := 4, curOp := 0x05 } := ⟨_, rfl⟩
  rw [runSteps_step (t := s5) rfl (by rw [hs5]; rfl) (by rw [hs5, hfr4, ha4, B.frame, ha3, hs2, hfr1, ha1]; exact he)]
  -- WRTREE
  obtain ⟨a6, ha6⟩ : ∃ a6 : State, a6 = { s5 with cstep := 5, curOp := 0x06 } := ⟨_, rfl⟩
  have hh6 : a6.holds tree a6.root = true := by
    rw [ha6, hs5, hfr4]; exact (holds_congr (by rfl) _ _).trans hh4
  obtain ⟨tr6, e6⟩ := wrtreePrim_spec hh6 (TreeOk.height hT4 hh4)
  obtain ⟨s6, hs6⟩ : ∃ s6 : State, s6 = { a6 with outBits := a6.outBits ++ tree.header, portTrace := tr6 } := ⟨_, rfl⟩
  rw [← hs6] at e6
  rw [runSteps_step (t := s6)
    (firstUnmet_none (by
      intro p hp
      cases List.mem_singleton.mp hp
      rw [hs5, hfr4, ha4, B.frame]; rfl))
    (by rw [ha6] at e6; exact e6)
    (by rw [hs6, ha6, hs5, hfr4, ha4, B.frame, ha3, hs2, hfr1, ha1]; exact he)]
  have hn6 : s6.nodes = s4.nodes := by rw [hs6, ha6, hs5]; rfl
  have hc6 : s6.ncount = s4.ncount := by rw [hs6, ha6, hs5]; rfl
  have hr6 : s6.root = s4.root := by rw [hs6, ha6, hs5]; rfl
  have hk6 : s6.codes = s4.codes := by rw [hs6, ha6, hs5]; rfl
  have hq6 : s6.freq = s4.freq := by rw [hs6, ha6, hs5]; rfl
  have hfa4 : ∀ i, s4.freqAt i = s1.freqAt i := fun i => by
    rw [← hfa3, hfr4, ha4, B.frame]; rfl
  have hT4' : s4.TreeOk := by rw [hfr4]; exact hT4
  have hB4' : s4.BuiltOk := by rw [hfr4]; exact hB4
  have hW4' : s4.WeightsOk := WeightsOk.congr B.weights (by rw [hfr4, ha4]) (by rw [hfr4, ha4]) (by rw [hfr4, ha4])
  have hh4' : s4.holds tree s4.root = true := by rw [hfr4]; exact (holds_congr (by rfl) _ _).trans hh4
  refine ⟨s6, tree, rfl, ?_, TreeOk.congr hT4' hn6 hc6 hr6, BuiltOk.congr hB4' hn6 hc6 hq6,
    WeightsOk.congr hW4' hn6 hc6 hq6, ?_, ?_, ?_, ?_⟩
  · rw [hr6]; exact (holds_congr hn6 _ _).trans hh4'
  · intro i
    rw [← hc4]; simp only [State.codeAt, hk6]
  · intro i
    rw [← hf1, ← hfa4]; simp only [State.freqAt, hq6]
  · rw [← ht1, hs6, ha6, hs5, hfr4, ha4, B.frame, ha3, hs2]; rfl
  · rw [hs6, ha6, hs5, hfr4, ha4, B.frame, ha3, hs2, hfr1, ha1]; rfl

/-- What COMPRESS leaves when it completes: the tables of the bytes it counted, the codes of those it encoded. -/
structure Compressed (counted bs : List Byte) (s t : State) (tree : HTree) : Prop where
  holds : t.holds tree t.root = true
  treeOk : t.TreeOk
  built : t.BuiltOk
  weights : t.WeightsOk
  codes : ∀ i, t.codeAt i = codeFor tree i
  freq : ∀ i, (t.freqAt i).toNat = tally counted i
  total : t.total.toNat = counted.length
  out : ∃ pad, pad < 8 ∧ t.outBits = s.outBits ++ bin 32 s.magic.toNat ++ tree.header ++
    (bs.flatMap t.codeBits ++ t.eofBits) ++ List.replicate pad false
  aligned : t.outBits.length % 8 = 0
  frame : t = { s with
    curOp := 0x08
    cstep := 7
    freq := t.freq
    total := t.total
    nodes := t.nodes
    ncount := t.ncount
    root := t.root
    codes := t.codes
    pq := []
    freqValid := true
    treeValid := true
    treeSrc := false
    codesValid := true
    outBits := t.outBits
    inPos := s.inBits.length
    portTrace := t.portTrace }

/-- COMPRESS completes when every byte of IN from its start was counted. -/
theorem compress_spec {s : State} {counted bs : List Byte} {rest tail : Bits} (he : s.err = false) (hw : s.WidthOk)
    (hu : s.unread = bitsOf counted ++ rest) (hr : rest.length < 8) (hl : counted.length ≤ 2 ^ s.wCnt - 2)
    (hi : s.inBits = bitsOf bs ++ tail) (ht : tail.length < 8) (hb : ∀ b ∈ bs, b ∈ counted) :
    ∃ t tree, compressPrim.body s = .next t ∧ Compressed counted bs s t tree := by
  obtain ⟨s6, tree, e, P⟩ := compress_front he hw hu hr hl
  rw [e]
  have hf := P.frame
  have he6 : s6.err = false := by rw [hf]; exact he
  -- ENCODE
  obtain ⟨a7, ha7⟩ : ∃ a7 : State, a7 = { s6 with cstep := 6, curOp := 0x07 } := ⟨_, rfl⟩
  obtain ⟨tr7, e7⟩ := encodePrim_spec (s := a7) (bs := bs) (rest := tail) (by rw [ha7]; exact he6)
    (by rw [ha7, hf]; simp [State.unread, hi]) ht
    (fun b hb' => by rw [ha7]; exact (P.hasCode b).mpr (hb b hb'))
    (by rw [ha7]; exact (P.code eofIndex).mpr (by simp [tally]))
  obtain ⟨s7, hs7⟩ : ∃ s7 : State, s7 = { s6 with
      cstep := 6, curOp := 0x07, outBits := s6.outBits ++ bs.flatMap s6.codeBits ++ s6.eofBits
      inPos := s6.inBits.length, portTrace := tr7 } := ⟨_, rfl⟩
  have e7' : encodePrim.body a7 = .next s7 := by rw [e7, hs7, ha7]; rfl
  rw [runSteps_step (t := s7)
    (firstUnmet_none (by
      intro p hp
      cases List.mem_singleton.mp hp
      rw [hf]; rfl))
    (by rw [ha7] at e7'; exact e7') (by rw [hs7]; exact he6)]
  -- CLOSE
  obtain ⟨tr8, e8⟩ : ∃ tr8, closeOut { s7 with cstep := 7, curOp := 0x08 } = { s7 with
      cstep := 7, curOp := 0x08
      outBits := s7.outBits ++ List.replicate ((8 - s7.outBits.length % 8) % 8) false, portTrace := tr8 } :=
    ⟨_, closeOut_spec _⟩
  obtain ⟨s8, hs8⟩ : ∃ s8 : State, s8 = { s7 with
      cstep := 7, curOp := 0x08
      outBits := s7.outBits ++ List.replicate ((8 - s7.outBits.length % 8) % 8) false, portTrace := tr8 } := ⟨_, rfl⟩
  rw [← hs8] at e8
  rw [runSteps_step (t := s8) rfl (by rw [← e8]; rfl) (by rw [hs8, hs7]; exact he6), runSteps_nil]
  have hn8 : s8.nodes = s6.nodes := by rw [hs8, hs7]
  have hc8 : s8.ncount = s6.ncount := by rw [hs8, hs7]
  have hr8 : s8.root = s6.root := by rw [hs8, hs7]
  have hk8 : s8.codes = s6.codes := by rw [hs8, hs7]
  have hq8 : s8.freq = s6.freq := by rw [hs8, hs7]
  refine ⟨s8, tree, rfl, ?_, TreeOk.congr P.treeOk hn8 hc8 hr8, BuiltOk.congr P.built hn8 hc8 hq8,
    WeightsOk.congr P.weights hn8 hc8 hq8, ?_, ?_, ?_,
    ⟨(8 - s7.outBits.length % 8) % 8, by omega, ?_⟩, ?_, ?_⟩
  · rw [hr8]; exact (holds_congr hn8 _ _).trans P.holds
  · intro i
    rw [← P.codes]; simp only [State.codeAt, hk8]
  · intro i
    rw [← P.freq]; simp only [State.freqAt, hq8]
  · rw [← P.total, hs8, hs7]
  · have hcb : s6.codeBits = s8.codeBits := by
      funext b; simp only [State.codeBits, State.codeAt, hk8]
    have heb : s6.eofBits = s8.eofBits := by simp only [State.eofBits, State.codeAt, hk8]
    have ho6 : s6.outBits = s.outBits ++ bin 32 s.magic.toNat ++ tree.header := by rw [hf]
    have ho7 : s7.outBits = s.outBits ++ bin 32 s.magic.toNat ++ tree.header ++
        (bs.flatMap s8.codeBits ++ s8.eofBits) := by
      rw [← hcb, ← heb, ← ho6, hs7, List.append_assoc]
    have ho8 : s8.outBits = s7.outBits ++ List.replicate ((8 - s7.outBits.length % 8) % 8) false := by rw [hs8]
    rw [ho8, ← ho7]
  · rw [← e8]; exact closeOut_aligned _
  · rw [hs8, hs7, hf]

/-- COMPRESS beyond the capacity of COUNT ends in COUNT: nothing is written. -/
theorem compress_full {s : State} {counted : List Byte} {rest : Bits} (hw : s.WidthOk)
    (hu : s.unread = bitsOf counted ++ rest) (hl : 2 ^ s.wCnt - 2 < counted.length) :
    ∃ t, compressPrim.body s = .next t ∧ ErrorEntry 5 1 0x01 0 { s with
      curOp := 0x01
      freq := t.freq
      total := t.total
      inPos := s.inPos + 8 * (2 ^ s.wCnt - 1)
      portTrace := t.portTrace } t := by
  obtain ⟨t, e, hE⟩ := countPrim_full (s := { s with cstep := 0, curOp := 0x01 }) hw hu hl
  refine ⟨t, ?_, hE⟩
  show runSteps 0 compressSteps s = _
  rw [compressSteps, runSteps_raised rfl e hE.raised]

/-- COMPRESS meets a byte it did not count: magic, header and the codes before it stay written. -/
theorem compress_missing {s : State} {counted pre post : List Byte} {b : Byte} {rest tail : Bits} (he : s.err = false)
    (hw : s.WidthOk) (hu : s.unread = bitsOf counted ++ rest) (hr : rest.length < 8)
    (hl : counted.length ≤ 2 ^ s.wCnt - 2) (hi : s.inBits = bitsOf (pre ++ b :: post) ++ tail)
    (hp : ∀ x ∈ pre, x ∈ counted) (hb : b ∉ counted) :
    ∃ t tree, compressPrim.body s = .next t ∧ t.holds tree t.root = true ∧ t.TreeOk ∧ t.BuiltOk ∧ t.WeightsOk ∧
      (∀ i, t.codeAt i = codeFor tree i) ∧ (∀ i, (t.freqAt i).toNat = tally counted i) ∧
      t.total.toNat = counted.length ∧
      ErrorEntry 4 1 0x07 (b.setWidth 32) { s with
        curOp := 0x07
        freq := t.freq
        total := t.total
        nodes := t.nodes
        ncount := t.ncount
        root := t.root
        codes := t.codes
        outBits := s.outBits ++ bin 32 s.magic.toNat ++ tree.header ++ pre.flatMap t.codeBits
        inPos := 8 * (pre.length + 1)
        portTrace := t.portTrace } t := by
  obtain ⟨s6, tree, e, P⟩ := compress_front he hw hu hr hl
  rw [e]
  have hf := P.frame
  have he6 : s6.err = false := by rw [hf]; exact he
  have hu6 : s6.unread = bitsOf (pre ++ b :: post) ++ tail := by rw [hf]; simp [State.unread, hi]
  obtain ⟨a7, ha7⟩ : ∃ a7 : State, a7 = { s6 with cstep := 6, curOp := 0x07 } := ⟨_, rfl⟩
  have hu7 : a7.unread = bitsOf (pre ++ b :: post) ++ tail := by rw [ha7]; exact hu6
  obtain ⟨tr, e7⟩ := encodeLoop_missing pre (k := a7.groupBound) hu7
    (by have := groupBound_gt hu7; simp at this; omega) (by rw [ha7]; exact he6)
    (fun x hx => by rw [ha7]; exact (P.hasCode x).mpr (hp x hx))
    (by
      rw [ha7, ← Bool.not_eq_true]
      exact fun h => hb ((P.hasCode b).mp h))
  obtain ⟨u, hu'⟩ : ∃ u : State, u = { s6 with
      cstep := 6, curOp := 0x07, outBits := s6.outBits ++ pre.flatMap s6.codeBits
      inPos := s6.inPos + 8 * (pre.length + 1), portTrace := tr } := ⟨_, rfl⟩
  have e7' : encodePrim.body a7 = .next (raise .missingCode 1 (b.setWidth 32) u) := by
    show unlessRaised (encodeLoop a7.groupBound a7) _ = _
    rw [e7, unlessRaised_raised _ rfl, hu', ha7]; rfl
  rw [ha7] at e7'
  rw [runSteps_raised (firstUnmet_none (by
      intro p hp
      cases List.mem_singleton.mp hp
      rw [hf]; rfl)) e7' rfl]
  refine ⟨raise .missingCode 1 (b.setWidth 32) u, tree, rfl, ?_, ?_, ?_, ?_, ?_, ?_, ?_, ?_⟩
  · have : State.holds (raise .missingCode 1 (b.setWidth 32) u) tree s6.root = s6.holds tree s6.root :=
      holds_congr (by rw [hu']; rfl) _ _
    rw [← P.holds, ← this, hu']; rfl
  · exact TreeOk.congr P.treeOk (by rw [hu']; rfl) (by rw [hu']; rfl) (by rw [hu']; rfl)
  · exact BuiltOk.congr P.built (by rw [hu']; rfl) (by rw [hu']; rfl) (by rw [hu']; rfl)
  · exact WeightsOk.congr P.weights (by rw [hu']; rfl) (by rw [hu']; rfl) (by rw [hu']; rfl)
  · intro i; rw [← P.codes, hu']; rfl
  · intro i; rw [← P.freq, hu']; rfl
  · rw [← P.total, hu']; rfl
  · rw [hu', hf]
    simp only [Nat.zero_add]
    rfl

/-- The payload of an input is spelt by the tree: each byte's code leads to its leaf. -/
theorem Compressed.spells {counted bs : List Byte} {s t : State} {tree : HTree} (h : Compressed counted bs s t tree)
    (hb : ∀ b ∈ bs, b ∈ counted) : (∀ b ∈ bs, tree.spells (byteSymbol b) (t.codeBits b) = true) ∧ tree.spells 256 t.eofBits = true := by
  have key : ∀ i, tally counted i ≠ 0 → tree.spells (BitVec.ofNat 9 i.val) (t.codeAt i).bits = true := by
    intro i hi
    refine HTree.spells_codeList (code_of_count h.treeOk h.built h.holds h.codes (i := i) ?_).2.1
    intro e
    apply hi
    rw [← h.freq, e]; rfl
  refine ⟨fun b hx => ?_, ?_⟩
  · rw [← ofNat_byteIndex]; exact key _ (tally_pos (hb b hx))
  · exact key eofIndex (by simp [tally])

/-! ### DECOMPRESS -/

/-- DECOMPRESS on fewer bits than a magic number. -/
theorem decompress_short {s : State} (h : s.unread.length < 32) :
    ∃ t, decompressPrim.body s = .next t ∧ ErrorEntry 1 1 0x09 0 { s with
      curOp := 0x09
      busy := false
      inPos := s.inBits.length
      portTrace := t.portTrace } t :=
  ⟨_, runSteps_raised (s := s) rfl (rdmagicPrim_short (s := { s with cstep := 0, curOp := 0x09 }) h) rfl, rfl⟩

/-- DECOMPRESS on a stream that begins with another number. -/
theorem decompress_badMagic {s : State} {v : Word} {rest : Bits} (h : s.unread = bin 32 v.toNat ++ rest)
    (hv : v ≠ s.magic) :
    ∃ t, decompressPrim.body s = .next t ∧ ErrorEntry 1 2 0x09 v { s with
      curOp := 0x09
      busy := false
      inPos := s.inPos + 32
      portTrace := t.portTrace } t := by
  obtain ⟨a, ha⟩ : ∃ a : State, a = { s with cstep := 0, curOp := 0x09 } := ⟨_, rfl⟩
  have e := rdmagicPrim_read (s := a) (v := v) (rest := rest) (by rw [ha]; exact h)
  rw [checkMagic, if_neg (by rw [ha]; exact hv), ha] at e
  exact ⟨_, runSteps_raised rfl e rfl, rfl⟩

/-- The first step of DECOMPRESS on a stream that begins with the magic number. -/
theorem decompress_magic {s : State} {rest : Bits} (he : s.err = false) (hu : s.unread = bin 32 s.magic.toNat ++ rest) :
    ∃ t, decompressPrim.body s = runSteps 1 [rdtreePrim, decodePrim, closePrim] t ∧ t.unread = rest ∧
      t = { s with curOp := 0x09, cstep := 0, inPos := s.inPos + 32, portTrace := t.portTrace } := by
  obtain ⟨a, ha⟩ : ∃ a : State, a = { s with cstep := 0, curOp := 0x09 } := ⟨_, rfl⟩
  have e := rdmagicPrim_read (s := a) (v := s.magic) (rest := rest) (by rw [ha]; exact hu)
  rw [checkMagic, if_pos (by rw [ha]; rfl)] at e
  refine ⟨a.seek (a.inPos + 32), ?_, ?_, by rw [ha]; rfl⟩
  · exact runSteps_step (s := s) rfl (by rw [ha] at e ⊢; exact e) (by rw [ha]; exact he)
  · have : s.unread.drop 32 = rest := by rw [hu]; simp
    rw [← this, unread_seek_add, ha]; rfl

/-- DECOMPRESS when its second step, RDTREE, ends in an error. -/
theorem decompress_malformed {s : State} {rest : Bits} {sub : BitVec 8} {data : Word} {p : Nat} (he : s.err = false)
    (hu : s.unread = bin 32 s.magic.toNat ++ rest)
    (h : ∀ a : State, a.unread = rest → a.inPos = s.inPos + 32 → a.inBits = s.inBits →
      ∃ t, rdtreePrim.body a = .next t ∧ ErrorEntry 2 sub a.curOp data { a with
        busy := false, nodes := t.nodes, ncount := t.ncount, inPos := p, portTrace := t.portTrace } t) :
    ∃ t, decompressPrim.body s = .next t ∧ ErrorEntry 2 sub 0x0A data { s with
      curOp := 0x0A
      busy := false
      nodes := t.nodes
      ncount := t.ncount
      inPos := p
      portTrace := t.portTrace } t := by
  obtain ⟨s1, e1, hu1, hf⟩ := decompress_magic he hu
  obtain ⟨t, e, hE⟩ := h { s1 with cstep := 1, curOp := 0x0A } hu1 (by rw [hf]) (by rw [hf])
  refine ⟨t, by rw [e1, runSteps_raised rfl e hE.raised], ?_⟩
  rw [hf] at hE
  exact hE

/-- DECOMPRESS after its second step, RDTREE: the node store holds the tree of the header. -/
structure HeaderRead (tree : HTree) (s t : State) : Prop where
  holds : t.holds tree t.root = true
  treeOk : t.TreeOk
  frame : t = { s with
    curOp := 0x0A
    cstep := 1
    nodes := t.nodes
    ncount := t.ncount
    root := t.root
    treeValid := true
    treeSrc := true
    codesValid := false
    marks := t.marks
    rdStack := []
    inPos := s.inPos + 32 + tree.header.length
    portTrace := t.portTrace }

/-- The first two steps of DECOMPRESS on a stream that begins with the magic number and the header of a tree. -/
theorem decompress_front {s : State} {tree : HTree} {rest : Bits} (he : s.err = false)
    (hs : tree.symbolsOk = true) (hz : tree.size ≤ 513)
    (hu : s.unread = bin 32 s.magic.toNat ++ (tree.header ++ rest)) :
    ∃ t, decompressPrim.body s = runSteps 2 [decodePrim, closePrim] t ∧ t.unread = rest ∧ HeaderRead tree s t := by
  obtain ⟨s1, e1, hu1, hf1⟩ := decompress_magic he hu
  obtain ⟨a, ha⟩ : ∃ a : State, a = { s1 with cstep := 1, curOp := 0x0A } := ⟨_, rfl⟩
  obtain ⟨t, e, hh, hT, _, _, hut, _, hf⟩ := rdtreePrim_header (s := a) (by rw [ha]; exact hu1) hs hz
  refine ⟨t, ?_, hut, hh, hT, ?_⟩
  · rw [e1, runSteps_step (t := t) rfl (by rw [ha] at e; exact e) (by rw [hf, ha, hf1]; exact he)]
  · rw [hf, ha, hf1]

/-- DECOMPRESS when the payload ends before the end-of-stream code: the bytes written stay. -/
theorem decompress_truncated {s : State} {tree : HTree} {ws : List (Byte × Bits)} {p : Bits} (he : s.err = false)
    (hs : tree.symbolsOk = true) (hz : tree.size ≤ 513)
    (hp : ∀ w ∈ ws, tree.spells (byteSymbol w.1) w.2 = true) (hq : tree.unfinished p = true)
    (hu : s.unread = bin 32 s.magic.toNat ++ tree.header ++ ws.flatMap Prod.snd ++ p) :
    ∃ t, decompressPrim.body s = .next t ∧ t.holds tree t.root = true ∧ ErrorEntry 3 1 0x0B 0 { s with
      curOp := 0x0B
      busy := false
      nodes := t.nodes
      ncount := t.ncount
      root := t.root
      outBits := s.outBits ++ bitsOf (ws.map Prod.fst)
      inPos := s.inBits.length
      portTrace := t.portTrace } t := by
  obtain ⟨s2, e2, hu2, H⟩ := decompress_front (rest := ws.flatMap Prod.snd ++ p) he hs hz
    (by rw [hu]; simp only [List.append_assoc])
  have hf := H.frame
  obtain ⟨a, ha⟩ : ∃ a : State, a = { s2 with cstep := 2, curOp := 0x0B } := ⟨_, rfl⟩
  have hh : a.holds tree a.root = true := by rw [ha]; exact (holds_congr (by rfl) _ _).trans H.holds
  obtain ⟨c, tr, e⟩ := decodePrim_short (s := a) hh hp hq (by rw [ha]; exact hu2)
  rw [ha] at e
  refine ⟨_, e2.trans (runSteps_raised ?_ e rfl), ?_, ?_⟩
  · refine firstUnmet_none fun p hp => ?_
    cases List.mem_singleton.mp hp
    rw [hf]; rfl
  · exact (holds_congr (by rfl) _ _).trans H.holds
  · rw [hf]; rfl

/-- What DECOMPRESS leaves of a whole compressed stream. -/
structure Decompressed (tree : HTree) (bytes : List Byte) (consumed : Nat) (s t : State) : Prop where
  holds : t.holds tree t.root = true
  treeOk : t.TreeOk
  frame : t = { s with
    curOp := 0x08
    cstep := 3
    cur := t.cur
    marks := t.marks
    rdStack := []
    nodes := t.nodes
    ncount := t.ncount
    root := t.root
    treeValid := true
    treeSrc := true
    codesValid := false
    outBits := s.outBits ++ bitsOf bytes ++
      List.replicate ((8 - (s.outBits ++ bitsOf bytes).length % 8) % 8) false
    inPos := s.inPos + consumed
    portTrace := t.portTrace }

theorem decompress_spec {s : State} {tree : HTree} {ws : List (Byte × Bits)} {p rest : Bits} (he : s.err = false)
    (hs : tree.symbolsOk = true) (hz : tree.size ≤ 513)
    (hp : ∀ w ∈ ws, tree.spells (byteSymbol w.1) w.2 = true) (hq : tree.spells 256 p = true)
    (hu : s.unread = bin 32 s.magic.toNat ++ tree.header ++ ws.flatMap Prod.snd ++ p ++ rest) :
    ∃ t, decompressPrim.body s = .next t ∧
      Decompressed tree (ws.map Prod.fst) (32 + tree.header.length + (ws.flatMap Prod.snd).length + p.length) s t := by
  obtain ⟨s2, e2, hu2, H⟩ := decompress_front (rest := ws.flatMap Prod.snd ++ p ++ rest) he hs hz
    (by rw [hu]; simp only [List.append_assoc])
  have hf2 := H.frame
  rw [e2]
  -- DECODE
  obtain ⟨a3, ha3⟩ : ∃ a3 : State, a3 = { s2 with cstep := 2, curOp := 0x0B } := ⟨_, rfl⟩
  obtain ⟨c, tr, e3⟩ := decodePrim_spec (s := a3) (t := tree) (ws := ws) (p := p) (rest := rest)
    (by rw [ha3]; exact (holds_congr (by rfl) _ _).trans H.holds) hp hq (by rw [ha3]; exact hu2)
  obtain ⟨s3, hs3⟩ : ∃ s3 : State, s3 = { a3 with
    cur := c, outBits := a3.outBits ++ bitsOf (ws.map Prod.fst)
    inPos := a3.inPos + (ws.flatMap Prod.snd).length + p.length, portTrace := tr } := ⟨_, rfl⟩
  rw [← hs3] at e3
  rw [runSteps_step (t := s3)
    (firstUnmet_none (by
      intro p hp
      cases List.mem_singleton.mp hp
      rw [hf2]; rfl))
    (by rw [ha3] at e3; exact e3) (by rw [hs3, ha3, hf2]; exact he)]
  -- CLOSE
  obtain ⟨tr4, e4⟩ : ∃ tr4, closeOut { s3 with cstep := 3, curOp := 0x08 } = { s3 with
      cstep := 3, curOp := 0x08
      outBits := s3.outBits ++ List.replicate ((8 - s3.outBits.length % 8) % 8) false, portTrace := tr4 } :=
    ⟨_, closeOut_spec _⟩
  obtain ⟨s4, hs4⟩ : ∃ s4 : State, s4 = { s3 with
      cstep := 3, curOp := 0x08
      outBits := s3.outBits ++ List.replicate ((8 - s3.outBits.length % 8) % 8) false, portTrace := tr4 } := ⟨_, rfl⟩
  rw [← hs4] at e4
  rw [runSteps_step (t := s4) rfl (by rw [← e4]; rfl)
    (by rw [hs4, hs3, ha3, hf2]; exact he), runSteps_nil]
  have hn4 : s4.nodes = s2.nodes := by rw [hs4, hs3, ha3]
  have hr4 : s4.root = s2.root := by rw [hs4, hs3, ha3]
  have hc4 : s4.ncount = s2.ncount := by rw [hs4, hs3, ha3]
  have ho3 : s3.outBits = s.outBits ++ bitsOf (ws.map Prod.fst) := by rw [hs3, ha3, hf2]
  have hi3 : s3.inPos = s.inPos + (32 + tree.header.length + (ws.flatMap Prod.snd).length + p.length) := by
    rw [hs3, ha3, hf2]
    show s.inPos + 32 + tree.header.length + (ws.flatMap Prod.snd).length + p.length = _
    omega
  refine ⟨s4, rfl, ?_, TreeOk.congr H.treeOk hn4 hc4 hr4, ?_⟩
  · rw [hr4]; exact (holds_congr hn4 _ _).trans H.holds
  · have hfr : s4 = { s3 with
        cstep := 3, curOp := 0x08
        outBits := s.outBits ++ bitsOf (ws.map Prod.fst) ++
          List.replicate ((8 - (s.outBits ++ bitsOf (ws.map Prod.fst)).length % 8) % 8) false
        inPos := s.inPos + (32 + tree.header.length + (ws.flatMap Prod.snd).length + p.length)
        portTrace := s4.portTrace } := by
      rw [← ho3, ← hi3, hs4]
    rw [hfr, hs3, ha3, hf2]

end Sys2Proof.Machine
end

