-- ==== Sys2Proof/Laws/Invariant.lean ====
section
/-! SUPPORT. Each command's pseudocode ends, well or in an error, and keeps what the flags say of the tables. -/

namespace Sys2Proof

/-! ### Every bit string leads DECODE somewhere -/

namespace HTree

theorem paths_or_short (t : HTree) (b : Bits) :
    (∃ q ∈ t.paths, q.2 <+: b) ∨ ∃ q ∈ t.paths, b <+: q.2 ∧ b ≠ q.2 := by
  induction t generalizing b with
  | leaf s => exact .inl ⟨(s, []), by simp [paths], List.nil_prefix⟩
  | node l r ihl ihr =>
    cases b with
    | nil =>
      right
      obtain ⟨q, hq⟩ := List.exists_mem_of_ne_nil (node l r).paths (by
        intro h
        have := map_fst_paths (node l r)
        rw [h] at this
        exact symbols_ne_nil _ this.symm)
      obtain ⟨s, p⟩ := q
      exact ⟨(s, p), hq, List.nil_prefix, (paths_node_ne_nil hq).symm⟩
    | cons x b =>
      have key : ∀ (c : HTree), (∀ q ∈ c.paths, (q.1, x :: q.2) ∈ (node l r).paths) →
          ((∃ q ∈ c.paths, q.2 <+: b) ∨ ∃ q ∈ c.paths, b <+: q.2 ∧ b ≠ q.2) →
          (∃ q ∈ (node l r).paths, q.2 <+: x :: b) ∨ ∃ q ∈ (node l r).paths, x :: b <+: q.2 ∧ x :: b ≠ q.2 := by
        rintro c hc (⟨q, hq, hp⟩ | ⟨q, hq, hp, hne⟩)
        · exact .inl ⟨_, hc q hq, by simpa [List.cons_prefix_cons] using hp⟩
        · exact .inr ⟨_, hc q hq, by simpa [List.cons_prefix_cons] using hp, by simpa using hne⟩
      cases x with
      | false => exact key l (fun q hq => by simp only [paths, List.mem_append, List.mem_map]; exact .inl ⟨q, hq, rfl⟩) (ihl b)
      | true => exact key r (fun q hq => by simp only [paths, List.mem_append, List.mem_map]; exact .inr ⟨q, hq, rfl⟩) (ihr b)

/-- The front of a bit string is the bits of a symbol, or the whole of it leads to no leaf. -/
theorem spells_or_unfinished (t : HTree) (b : Bits) :
    (∃ s p rest, s ∈ t.symbols ∧ t.spells s p = true ∧ p ≠ [] ∧ b = p ++ rest) ∨ t.unfinished b = true := by
  cases t with
  | leaf s =>
    cases b with
    | nil => right; simp [unfinished]
    | cons x b => exact .inl ⟨s, [x], b, by simp [symbols], by simp [spells], by simp, rfl⟩
  | node l r =>
    rcases paths_or_short (node l r) b with ⟨⟨s, p⟩, hq, rest, hp⟩ | ⟨⟨s, p⟩, hq, hp, hne⟩
    · refine .inl ⟨s, p, rest, ?_, by simpa [spells] using hq, paths_node_ne_nil hq, hp.symm⟩
      rw [← map_fst_paths]
      exact List.mem_map.mpr ⟨(s, p), hq, rfl⟩
    · right
      rw [unfinished, List.any_eq_true]
      exact ⟨(s, p), hq, by simpa [List.isPrefixOf_iff_prefix] using ⟨hp, hne⟩⟩

/-- A bit string is the bits of some bytes, and then the end-of-stream code and more, or bits that lead to no leaf. -/
theorem decoding (t : HTree) (hs : t.symbolsOk = true) (b : Bits) :
    ∃ ws : List (Byte × Bits), (∀ w ∈ ws, t.spells (byteSymbol w.1) w.2 = true ∧ byteSymbol w.1 ∈ t.symbols) ∧
      ((∃ p rest, t.spells 256 p = true ∧ (256 : Symbol) ∈ t.symbols ∧ b = ws.flatMap Prod.snd ++ p ++ rest) ∨
        ∃ p, t.unfinished p = true ∧ b = ws.flatMap Prod.snd ++ p) := by
  induction hn : b.length using Nat.strongRecOn generalizing b with
  | _ n ih =>
    rcases spells_or_unfinished t b with ⟨s, p, rest, hm, hp, hne, rfl⟩ | hu
    · have hs' : s.toNat ≤ 256 := by
        rw [symbolsOk, List.all_eq_true] at hs
        simpa using hs s hm
      by_cases h256 : s = 256
      · subst h256
        exact ⟨[], by simp, .inl ⟨p, rest, hp, hm, by simp⟩⟩
      · have hlt : s.toNat < 256 := by
          have : s.toNat ≠ 256 := fun e => h256 (BitVec.eq_of_toNat_eq e)
          omega
        have hb : byteSymbol (s.setWidth 8) = s := by
          apply BitVec.eq_of_toNat_eq
          simp [byteSymbol]
          omega
        have hpl := List.length_pos_iff.mpr hne
        obtain ⟨ws, hws, h⟩ := ih rest.length (by simp at hn; omega) rest rfl
        refine ⟨(s.setWidth 8, p) :: ws, ?_, ?_⟩
        · intro w hw
          rcases List.mem_cons.mp hw with rfl | hw
          · simp only [hb]; exact ⟨hp, hm⟩
          · exact hws w hw
        · rcases h with ⟨p', rest', h1, h2, rfl⟩ | ⟨p', h1, rfl⟩
          · exact .inl ⟨p', rest', h1, h2, by simp⟩
          · exact .inr ⟨p', h1, by simp⟩
    · exact ⟨[], by simp, .inr ⟨b, hu, by simp⟩⟩

end HTree

namespace Machine

/-! ### The invariant while a command runs -/

/-- The invariant but for BUSY. -/
def Settled (s : State) : Prop := State.Inv { s with busy := false }

theorem Settled.inv {s : State} (h : Settled s) (hb : s.busy = false) : s.Inv := by
  have : s = { s with busy := false } := by rw [← hb]
  rw [this]; exact h

theorem State.Inv.settled {s : State} (h : s.Inv) : Settled s := by
  have : s = { s with busy := false } := by rw [← h.flags.idle]
  rw [Settled, ← this]; exact h

/-- An error leaves the invariant. -/
theorem ErrorEntry.inv {code : BitVec 4} {sub op : BitVec 8} {data : Word} {s t : State}
    (h : ErrorEntry code sub op data s t) (hc : 1 ≤ code.toNat ∧ code.toNat ≤ 7) (hw : s.WidthOk)
    (hi : s.inPos ≤ s.inBits.length) : t.Inv := by
  rw [ErrorEntry] at h
  refine ⟨⟨?_, ?_, ?_, ?_, ?_, ?_⟩, ?_, ?_, ?_, ?_, ?_, ?_, ?_⟩
  · rw [h]
  · rw [h]; simp
  · rw [h]; simp
  · rw [h]; simp
  · rw [h]; simp
  · rw [h]; simpa using hc
  · rw [h]; exact hw
  · rw [h]; exact hi
  · rw [h]; simp
  · rw [h]; simp
  · rw [h]; simp
  · rw [h]; simp
  · rw [h]; simp

theorem raiseAs_entry (op : Byte) (e : ErrorKind) (sub : BitVec 8) (data : Word) (s : State) :
    ErrorEntry e.code sub op data s (raiseAs op e sub data s) := rfl

theorem code_range (e : ErrorKind) : 1 ≤ e.code.toNat ∧ e.code.toNat ≤ 7 := by cases e <;> decide

theorem raiseAs_inv {op : Byte} {e : ErrorKind} {sub : BitVec 8} {data : Word} {s : State} (hw : s.WidthOk)
    (hi : s.inPos ≤ s.inBits.length) : (raiseAs op e sub data s).Inv :=
  (raiseAs_entry op e sub data s).inv (code_range e) hw hi

theorem raise_settled {e : ErrorKind} {sub : BitVec 8} {data : Word} {s : State} (hw : s.WidthOk)
    (hi : s.inPos ≤ s.inBits.length) : Settled (raise e sub data s) := (raiseAs_inv hw hi).settled

/-- What the fields that flags, tables and IN depend on say is kept when they are. -/
theorem Settled.congr {s t : State} (h : Settled s) (hw : t.wCnt = s.wCnt) (he : t.err = s.err)
    (hv : (t.freqValid, t.treeValid, t.treeSrc, t.codesValid) = (s.freqValid, s.treeValid, s.treeSrc, s.codesValid))
    (hx : (t.errCode, t.subcause, t.failOp, t.errData) = (s.errCode, s.subcause, s.failOp, s.errData))
    (hf : t.freq = s.freq) (ht : t.total = s.total) (hn : t.nodes = s.nodes) (hc : t.ncount = s.ncount)
    (hr : t.root = s.root) (hk : t.codes = s.codes) (hq : t.pq = s.pq) (hst : t.rdStack = s.rdStack)
    (hi : t.inPos ≤ t.inBits.length) : Settled t := by
  simp only [Prod.mk.injEq] at hv hx
  obtain ⟨v1, v2, v3, v4⟩ := hv
  obtain ⟨x1, x2, x3, x4⟩ := hx
  obtain ⟨F, W, _, H, Q, T, B, C⟩ := h
  refine ⟨⟨rfl, ?_, ?_, ?_, ?_, ?_⟩, ?_, hi, ?_, ?_, ?_, ?_, ?_⟩
  · simpa [v1, v2, v3, v4] using F.srcValid
  · simpa [v1, v2, v3, v4] using F.builtCounted
  · simpa [v1, v2, v3, v4] using F.codesBuilt
  · simpa [he, x1, x2, x3, x4] using F.noError
  · simpa [he, x1, v1, v2, v3, v4] using F.error
  · simp only [State.WidthOk, hw]; exact W
  · simp only [hq, hst]; exact H
  · intro h
    have := Q (by simpa [v1] using h)
    simp only [State.FreqOk, State.freqAt, hf, ht, hw] at this ⊢
    exact this
  · intro h
    exact TreeOk.congr (T (by simpa [v2] using h)) hn hc hr
  · intro h1 h2
    exact BuiltOk.congr (B (by simpa [v2] using h1) (by simpa [v3] using h2)) hn hc hf
  · intro h
    obtain ⟨tree, h1, h2⟩ := C (by simpa [v4] using h)
    refine ⟨tree, ?_, ?_⟩
    · rw [← h1]
      have := holds_congr (s := { s with busy := false }) (t := { t with busy := false }) hn tree t.root
      exact this.trans (congrArg (State.holds { s with busy := false } tree) hr)
    · intro i
      rw [← h2 i]
      show t.codes[i.val] = s.codes[i.val]
      simp only [hk]

/-- The pseudocode of a primitive ends in a settled state. -/
def Ends (p : Primitive) : Prop :=
  ∀ s : State, Settled s → s.err = false → firstUnmet p.needs s = none → ∃ t, p.body s = .next t ∧ Settled t

theorem needs_met {ps : List Precondition} {s : State} (h : firstUnmet ps s = none) {p : Precondition} (hp : p ∈ ps) :
    p.holds s = true := by
  rw [firstUnmet, List.find?_eq_none] at h
  simpa using h p hp

theorem nopPrim_ends : Ends nopPrim := fun s h _ _ => ⟨s, rfl, h⟩

theorem clearPrim_ends : Ends clearPrim := by
  intro s h _ _
  refine ⟨_, rfl, ⟨rfl, ?_, ?_, ?_, ?_, ?_⟩, h.width, h.inPos, h.hidden, ?_, ?_, ?_, ?_⟩ <;>
    simp [clearAll, State.clearError, State.clearValid]

theorem rewindPrim_ends : Ends rewindPrim := by
  intro s h _ _
  exact ⟨_, rfl, h.congr rfl rfl rfl rfl rfl rfl rfl rfl rfl rfl rfl rfl (Nat.zero_le _)⟩

theorem wrmagicPrim_ends : Ends wrmagicPrim := by
  intro s h _ _
  exact ⟨_, rfl, h.congr rfl rfl rfl rfl rfl rfl rfl rfl rfl rfl rfl rfl h.inPos⟩

theorem closePrim_ends : Ends closePrim := by
  intro s h _ _
  refine ⟨closeOut s, rfl, ?_⟩
  rw [closeOut_spec]
  exact h.congr rfl rfl rfl rfl rfl rfl rfl rfl rfl rfl rfl rfl h.inPos

theorem countPrim_ends : Ends countPrim := by
  intro s h he _
  have hw : s.WidthOk := h.width
  obtain ⟨tail, hl, hu⟩ := bitsOf_wholeBytes s.unread
  by_cases hb : (wholeBytes s.unread).length ≤ 2 ^ s.wCnt - 2
  · obtain ⟨t, e, ht, hf, hfr⟩ := countPrim_spec hw he hu hl hb
    refine ⟨t, e, ?_⟩
    have hQ : t.FreqOk := freqOk_of_tally (s := s) hb hw ht hf (by rw [hfr])
    have hx := h.flags.noError he
    refine ⟨⟨rfl, ?_, ?_, ?_, ?_, ?_⟩, ?_, ?_, ?_, ?_, ?_, ?_, ?_⟩
    · rw [hfr]; simp
    · rw [hfr]; simp
    · rw [hfr]; simp
    · rw [hfr]; exact fun _ => hx
    · rw [hfr]; intro h'; rw [show s.err = true from h'] at he; cases he
    · rw [hfr]; exact h.width
    · rw [hfr]
    · rw [hfr]; exact h.hidden
    · exact fun _ => hQ
    · rw [hfr]; simp
    · rw [hfr]; simp
    · rw [hfr]; simp
  · obtain ⟨t, e, hE⟩ := countPrim_full hw hu (by omega)
    refine ⟨t, e, ?_⟩
    have hlen := congrArg List.length hu
    rw [length_unread, List.length_append] at hlen
    have hbl : (bitsOf (wholeBytes s.unread)).length = 8 * (wholeBytes s.unread).length := by
      simp [bitsOf, List.length_flatMap, Nat.mul_comm]
    have hp := Nat.pow_le_pow_right (n := 2) (by omega) hw.1
    have hi : s.inPos ≤ s.inBits.length := h.inPos
    exact (hE.inv (by decide) hw (by simp only; omega)).settled

theorem buildPrim_ends : Ends buildPrim := by
  intro s h he hm
  have hv : s.freqValid = true := needs_met hm (p := .freqValid) (by simp [buildPrim])
  have hQ := h.freq hv
  have hQ1 : s.freqAt eofIndex = 1 := hQ.1
  have hQ2 : ((List.finRange 257).map fun i => (s.freqAt i).toNat).sum = s.total.toNat + 1 := hQ.2.1
  have hQ3 : s.total.toNat + 2 ≤ 2 ^ s.wCnt := hQ.2.2
  have hp' := Nat.pow_le_pow_right (n := 2) (by omega) h.width.2
  have hp'' : 2 ^ s.wCnt ≤ 2 ^ 32 := hp'
  obtain ⟨t, e, B⟩ := buildPrim_spec (s := s) (by rw [hQ1]; decide) (by rw [hQ2]; omega)
  refine ⟨t, e, ?_⟩
  have hfr := B.frame
  have hx := h.flags.noError he
  refine ⟨⟨rfl, ?_, ?_, ?_, ?_, ?_⟩, ?_, ?_, ?_, ?_, ?_, ?_, ?_⟩
  · rw [hfr]; simp
  · rw [hfr]; simpa using hv
  · rw [hfr]; simp
  · rw [hfr]; exact fun _ => hx
  · rw [hfr]; intro h'; rw [show s.err = true from h'] at he; cases he
  · rw [hfr]; exact h.width
  · rw [hfr]; exact h.inPos
  · rw [hfr]; exact ⟨rfl, h.hidden.2⟩
  · rw [hfr]; exact fun _ => hQ
  · exact fun _ => TreeOk.congr B.tree rfl rfl rfl
  · exact fun _ _ => BuiltOk.congr B.built rfl rfl rfl
  · rw [hfr]; simp

theorem gencodesPrim_ends : Ends gencodesPrim := by
  intro s h he hm
  have hv : s.treeValid = true := needs_met hm (p := .treeValid) (by simp [gencodesPrim])
  have hsrc : s.treeSrc = false := by
    have := needs_met hm (p := .treeBuilt) (by simp [gencodesPrim])
    simpa [Precondition.holds] using this
  have hT : s.TreeOk := TreeOk.congr (h.tree hv) rfl rfl rfl
  have hB : s.BuiltOk := BuiltOk.congr (h.built hv hsrc) rfl rfl rfl
  obtain ⟨tree, ht, _, _⟩ := TreeOk.tree hT
  obtain ⟨t, e, hc, hfr⟩ := gencodesPrim_spec hT hB ht
  refine ⟨t, e, ?_⟩
  have hF := h.flags
  refine ⟨⟨rfl, ?_, ?_, ?_, ?_, ?_⟩, ?_, ?_, ?_, ?_, ?_, ?_, ?_⟩
  · rw [hfr]; exact hF.srcValid
  · rw [hfr]; exact hF.builtCounted
  · rw [hfr]; exact fun _ => ⟨hv, hsrc⟩
  · rw [hfr]; exact hF.noError
  · rw [hfr]; intro h'; rw [show s.err = true from h'] at he; cases he
  · rw [hfr]; exact h.width
  · rw [hfr]; exact h.inPos
  · rw [hfr]; exact h.hidden
  · rw [hfr]; exact h.freq
  · rw [hfr]; exact fun _ => TreeOk.congr hT rfl rfl rfl
  · rw [hfr]; exact fun _ _ => BuiltOk.congr hB rfl rfl rfl
  · intro _
    refine ⟨tree, ?_, hc⟩
    rw [hfr]; exact (holds_congr (by rfl) _ _).trans ht

theorem wrtreePrim_ends : Ends wrtreePrim := by
  intro s h _ hm
  have hv : s.treeValid = true := needs_met hm (p := .treeValid) (by simp [wrtreePrim])
  have hT : s.TreeOk := TreeOk.congr (h.tree hv) rfl rfl rfl
  obtain ⟨tree, ht, _, _⟩ := TreeOk.tree hT
  obtain ⟨tr, e⟩ := wrtreePrim_spec ht (TreeOk.height hT ht)
  exact ⟨_, e, h.congr rfl rfl rfl rfl rfl rfl rfl rfl rfl rfl rfl rfl h.inPos⟩

theorem rdmagicPrim_ends : Ends rdmagicPrim := by
  intro s h _ _
  by_cases hl : s.unread.length < 32
  · exact ⟨_, rdmagicPrim_short hl, raise_settled h.width le_rfl⟩
  · have e : s.unread = bin 32 (BitVec.ofNat 32 (val (s.unread.take 32))).toNat ++ s.unread.drop 32 := by
      rw [BitVec.toNat_ofNat, bin_mod, bin_val_take (by omega), List.take_append_drop]
    refine ⟨_, rdmagicPrim_read e, ?_⟩
    have hi : (s.seek (s.inPos + 32)).inPos ≤ (s.seek (s.inPos + 32)).inBits.length := by
      rw [length_unread] at hl
      simp only [seek_inPos, seek_inBits]
      omega
    rw [checkMagic]
    split
    · exact h.congr rfl rfl rfl rfl rfl rfl rfl rfl rfl rfl rfl rfl hi
    · exact raise_settled h.width hi

/-- What follows the tokens lies inside IN. -/
theorem seek_le {s : State} {a b : Bits} (hu : s.unread = a ++ b) (hi : s.inPos ≤ s.inBits.length) :
    s.inPos + a.length ≤ s.inBits.length := by
  have := congrArg List.length hu
  rw [length_unread, List.length_append] at this
  omega

theorem rdtreePrim_ends : Ends rdtreePrim := by
  intro s h he _
  have front : ∀ (ts : List Token) (n : Nat) (rest : Bits), s.unread = ts.flatMap Token.bits ++ rest →
      missingAfter 1 ts = some (n + 1) → ts.length ≤ 513 →
      ∃ u k, rdtreePrim.body s = readTree (k + 1) u ∧ u.unread = rest ∧ u.marks.toNat = ts.length ∧ u.WidthOk ∧
        u.inPos ≤ u.inBits.length := by
    intro ts n rest hu hm hl
    obtain ⟨u, ⟨k, e⟩, h1, h2, h3⟩ := rdtreePrim_front hu (headerFront_iff.mpr ⟨n, hm⟩) hl
    refine ⟨u, k, e, h1, h2, by rw [h3]; exact h.width, ?_⟩
    rw [h3]
    exact seek_le hu h.inPos
  rcases reading 513 1 s.unread with ⟨ts, rest, e, hm, hl⟩ | ⟨ts, n, e, hm, hl⟩ | ⟨ts, n, rest, e, hr, hm, hl⟩ |
    ⟨ts, n, v, hv, rest, e, hm, hl⟩ | ⟨ts, n, x, rest, e, hm, hl⟩
  · obtain ⟨tree, rfl, hs⟩ := tree_of_missing hm
    rw [HTree.length_tokens] at hl
    rw [HTree.flatMap_tokens] at e
    obtain ⟨t, et, hh, hT, _, _, _, _, hfr⟩ := rdtreePrim_header e hs hl
    refine ⟨t, et, ?_⟩
    have hx := h.flags.noError he
    refine ⟨⟨rfl, ?_, ?_, ?_, ?_, ?_⟩, ?_, ?_, ?_, ?_, ?_, ?_, ?_⟩
    · rw [hfr]; simp
    · rw [hfr]; simp
    · rw [hfr]; simp
    · rw [hfr]; exact fun _ => hx
    · rw [hfr]; intro h'; rw [show s.err = true from h'] at he; cases he
    · rw [hfr]; exact h.width
    · rw [hfr]; exact seek_le e h.inPos
    · rw [hfr]; exact ⟨h.hidden.1, rfl⟩
    · rw [hfr]; exact h.freq
    · exact fun _ => TreeOk.congr hT rfl rfl rfl
    · rw [hfr]; simp
    · rw [hfr]; simp
  · obtain ⟨u, k, eu, h1, h2, h3, h4⟩ := front ts n [] (by simpa using e) hm hl
    rw [eu, readTree_noMarker k h1]
    exact ⟨_, rfl, raise_settled h3 le_rfl⟩
  · obtain ⟨u, k, eu, h1, h2, h3, h4⟩ := front ts n _ e hm (by omega)
    rw [eu, readTree_shortField k h1 (by omega) hr]
    exact ⟨_, rfl, raise_settled h3 le_rfl⟩
  · obtain ⟨u, k, eu, h1, h2, h3, h4⟩ := front ts n ((true :: bin 9 v.toNat) ++ rest) (by rw [e]; simp) hm (by omega)
    rw [eu, readTree_badSymbol k h1 (by omega) hv]
    refine ⟨_, rfl, raise_settled h3 ?_⟩
    have := seek_le h1 h4
    simp at this ⊢
    omega
  · obtain ⟨u, k, eu, h1, h2, h3, h4⟩ := front ts n _ e hm (by omega)
    rw [eu, readTree_tooMany k h1 (by omega)]
    refine ⟨_, rfl, raise_settled h3 ?_⟩
    have := seek_le (a := [x]) (b := rest) (by simpa using h1) h4
    simpa using this

theorem encodePrim_ends : Ends encodePrim := by
  intro s h he hm
  obtain ⟨tail, hl, hu⟩ := bitsOf_wholeBytes s.unread
  have hi := h.inPos
  by_cases hall : ∀ b ∈ wholeBytes s.unread, s.hasCode b = true
  · obtain ⟨tr, e⟩ := encodeLoop_spec _ (k := s.groupBound) hu hl (groupBound_gt hu) he hall
    obtain ⟨u, hdef⟩ : ∃ u : State, u = { s with
      outBits := s.outBits ++ (wholeBytes s.unread).flatMap s.codeBits
      inPos := s.inBits.length
      portTrace := tr } := ⟨_, rfl⟩
    have hs : Settled u := by
      rw [hdef]; exact h.congr rfl rfl rfl rfl rfl rfl rfl rfl rfl rfl rfl rfl le_rfl
    have hb : encodePrim.body s = .next (encodeSymbol eofIndex u) := by
      show unlessRaised (encodeLoop s.groupBound s) _ = _
      rw [e, ← hdef, unlessRaised_next _ (by rw [hdef]; exact he)]
    refine ⟨_, hb, ?_⟩
    rw [encodeSymbol]
    split
    · exact raise_settled hs.width hs.inPos
    · exact hs.congr rfl rfl rfl rfl rfl rfl rfl rfl rfl rfl rfl rfl hs.inPos
  · obtain ⟨pre, b, post, hsplit, hpre, hb⟩ : ∃ pre b post, wholeBytes s.unread = pre ++ b :: post ∧
        (∀ x ∈ pre, s.hasCode x = true) ∧ s.hasCode b = false := by
      generalize wholeBytes s.unread = bs at hall
      induction bs with
      | nil => simp at hall
      | cons a bs ih =>
        by_cases ha : s.hasCode a = true
        · obtain ⟨pre, b, post, h1, h2, h3⟩ := ih (by simpa [ha] using hall)
          exact ⟨a :: pre, b, post, by simp [h1], by simpa [ha] using h2, h3⟩
        · exact ⟨[], a, bs, rfl, by simp, by simpa using ha⟩
    rw [hsplit] at hu
    obtain ⟨tr, e⟩ := encodeLoop_missing pre (k := s.groupBound) hu
      (by have := groupBound_gt hu; simp at this; omega) he hpre hb
    have hb' : encodePrim.body s = encodeLoop s.groupBound s := by
      show unlessRaised (encodeLoop s.groupBound s) _ = _
      rw [e, unlessRaised_raised _ rfl]
    refine ⟨_, hb'.trans e, ?_⟩
    · refine raise_settled h.width ?_
      have := seek_le (a := bitsOf (pre ++ [b])) (b := bitsOf post ++ tail)
        (show s.unread = _ by rw [hu]; simp [bitsOf, List.append_assoc]) hi
      simp [bitsOf, List.length_flatMap] at this
      simp only
      omega

theorem decodePrim_ends : Ends decodePrim := by
  intro s h _ hm
  have hv : s.treeValid = true := needs_met hm (p := .treeValid) (by simp [decodePrim])
  have hT : s.TreeOk := TreeOk.congr (h.tree hv) rfl rfl rfl
  obtain ⟨tree, ht, hs, _⟩ := TreeOk.tree hT
  obtain ⟨ws, hws, ⟨p, rest, hp, _, hu⟩ | ⟨p, hp, hu⟩⟩ := tree.decoding hs s.unread
  · obtain ⟨c, tr, e⟩ := decodePrim_spec ht (fun w hw => (hws w hw).1) hp hu
    refine ⟨_, e, h.congr rfl rfl rfl rfl rfl rfl rfl rfl rfl rfl rfl rfl ?_⟩
    have := seek_le hu h.inPos
    rw [List.length_append, ← Nat.add_assoc] at this
    exact this
  · obtain ⟨c, tr, e⟩ := decodePrim_short ht (fun w hw => (hws w hw).1) hp hu
    exact ⟨_, e, raise_settled h.width le_rfl⟩

/-! ### With the preconditions, and in sequence -/

theorem run_ends {p : Primitive} (hp : Ends p) {s : State} (h : Settled s) (he : s.err = false) :
    ∃ t, p.run s = .next t ∧ Settled t := by
  cases hu : firstUnmet p.needs s with
  | none => rw [run_met hu]; exact hp s h he hu
  | some q => rw [run_unmet hu]; exact ⟨_, rfl, raise_settled h.width h.inPos⟩

theorem runSteps_ends (ps : List Primitive) (hp : ∀ p ∈ ps, Ends p) (k : Nat) {s : State} (h : Settled s)
    (he : s.err = false) : ∃ t, runSteps k ps s = .next t ∧ Settled t := by
  induction ps generalizing k s with
  | nil => exact ⟨s, rfl, h⟩
  | cons p ps ih =>
    have h' : Settled { s with cstep := BitVec.ofNat 3 k, curOp := p.op } :=
      h.congr rfl rfl rfl rfl rfl rfl rfl rfl rfl rfl rfl rfl h.inPos
    obtain ⟨t, e, ht⟩ := run_ends (hp p (by simp)) h' he
    rw [runSteps_cons, e]
    cases hte : t.err
    · rw [unlessRaised_next _ hte]
      exact ih (fun q hq => hp q (by simp [hq])) _ ht hte
    · rw [unlessRaised_raised _ hte]
      exact ⟨t, rfl, ht⟩

theorem compressPrim_ends : Ends compressPrim := by
  intro s h he _
  refine runSteps_ends compressSteps ?_ 0 h he
  simp only [compressSteps, List.mem_cons, List.not_mem_nil, or_false, forall_eq_or_imp, forall_eq]
  exact ⟨countPrim_ends, rewindPrim_ends, buildPrim_ends, gencodesPrim_ends, wrmagicPrim_ends, wrtreePrim_ends,
    encodePrim_ends, closePrim_ends⟩

theorem decompressPrim_ends : Ends decompressPrim := by
  intro s h he _
  refine runSteps_ends decompressSteps ?_ 0 h he
  simp only [decompressSteps, List.mem_cons, List.not_mem_nil, or_false, forall_eq_or_imp, forall_eq]
  exact ⟨rdmagicPrim_ends, rdtreePrim_ends, decodePrim_ends, closePrim_ends⟩

/-- A command ends, with BUSY = 0, and keeps the invariant. -/
theorem runCommand_ends {p : Primitive} (hp : Ends p) {s : State} (h : s.Inv) :
    ∃ t, runCommand p s = .next t ∧ t.busy = false ∧ t.Inv := by
  have hb := h.flags.idle
  cases he : s.err
  · have h' : Settled { s with busy := true, curOp := p.op } :=
      h.settled.congr rfl rfl rfl rfl rfl rfl rfl rfl rfl rfl rfl rfl h.inPos
    obtain ⟨t, e, ht⟩ := run_ends hp h' he
    rw [runCommand_ready ⟨hb, he⟩, e]
    exact ⟨_, rfl, rfl, ht⟩
  · exact ⟨s, runCommand_ignored hb he, hb, h⟩

/-! ### Around commands -/

/-- The invariant says nothing of what stands in the ports, but that INPOS is a position of IN. -/
theorem State.Inv.congr {s t : State} (h : s.Inv)
    (e : { t with
      inBits := s.inBits, inPos := s.inPos, outBits := s.outBits, portTrace := s.portTrace, draws := s.draws
      script := s.script, hostLog := s.hostLog } = s) (hp : t.inPos ≤ t.inBits.length) : t.Inv := by
  obtain ⟨a, b, c, d, f, g, k, rfl⟩ : ∃ a b c d f g k, t = { s with
      inBits := a, inPos := b, outBits := c, portTrace := d, draws := f, script := g, hostLog := k } :=
    ⟨t.inBits, t.inPos, t.outBits, t.portTrace, t.draws, t.script, t.hostLog, by rw [← e]⟩
  refine ⟨⟨h.flags.1, h.flags.2, h.flags.3, h.flags.4, h.flags.5, h.flags.6⟩, h.width, hp, h.hidden, h.freq, h.tree,
    h.built, ?_⟩
  intro hc
  obtain ⟨tree, h1, h2⟩ := h.codes hc
  refine ⟨tree, ?_, h2⟩
  rw [← h1]
  exact holds_congr (s := s) (t := { s with
    inBits := a, inPos := b, outBits := c, portTrace := d, draws := f, script := g, hostLog := k }) rfl tree s.root

theorem resetBlock_inv (t : State) (hw : t.WidthOk) (hp : t.inPos ≤ t.inBits.length) : (resetBlock t).Inv := by
  refine ⟨⟨rfl, ?_, ?_, ?_, ?_, ?_⟩, hw, hp, ⟨rfl, rfl⟩, ?_, ?_, ?_, ?_⟩ <;> simp [resetBlock, State.reset]

end Machine

end Sys2Proof
end

