-- ==== Sys2Proof/Laws/PerInstr.lean ====
section
/-! SUPPORT. Statements about every instruction, one lemma a constructor. -/

namespace Sys2Proof.Laws.EncodedWidth

/-- The bits of an instruction by its row of spec/opcode_table.json: 32 for a command word and for the magic field, 1
and 10 for the tokens of the tree header. -/
def width : Instr → Nat
  | .hdrInternal => 1
  | .hdrLeaf _ => 10
  | .nop | .count | .rewind | .build | .gencodes | .wrmagic | .wrtree | .encode | .close | .rdmagic | .rdtree
  | .decode | .compress | .decompress | .clear | .reserved _ | .magicField _ => 32

/-- The encoder writes as many bits as the instruction's row has (30_encoding.md R80, R87, R89). -/
def Statement (i : Instr) : Prop := (encode i).length = width i

theorem length_bin (n v : Nat) : (bin n v).length = n := by
  induction n with
  | zero => rfl
  | succ n ih => rw [bin, List.length_cons, ih]

theorem nop : Statement .nop := length_bin 32 _
theorem count : Statement .count := length_bin 32 _
theorem rewind : Statement .rewind := length_bin 32 _
theorem build : Statement .build := length_bin 32 _
theorem gencodes : Statement .gencodes := length_bin 32 _
theorem wrmagic : Statement .wrmagic := length_bin 32 _
theorem wrtree : Statement .wrtree := length_bin 32 _
theorem encode : Statement .encode := length_bin 32 _
theorem close : Statement .close := length_bin 32 _
theorem rdmagic : Statement .rdmagic := length_bin 32 _
theorem rdtree : Statement .rdtree := length_bin 32 _
theorem decode : Statement .decode := length_bin 32 _
theorem compress : Statement .compress := length_bin 32 _
theorem decompress : Statement .decompress := length_bin 32 _
theorem clear : Statement .clear := length_bin 32 _
theorem reserved (w : Word) : Statement (.reserved w) := length_bin 32 _
theorem hdrInternal : Statement .hdrInternal := rfl
theorem hdrLeaf (s : Symbol) : Statement (.hdrLeaf s) := congrArg (· + 1) (length_bin 9 s.toNat)
theorem magicField (v : Word) : Statement (.magicField v) := length_bin 32 _

end Sys2Proof.Laws.EncodedWidth
end

