-- ==== Sys2Proof/Tests/Slice0.lean ====
section
/-! SUPPORT. Smoke tests of WellFormed, words written out from the spec's encodings, single steps with the results of
95_test_vectors.md, and for every obligation with hypotheses a witness that meets them. -/

namespace Sys2Proof.Tests

open Sys2Proof.Machine

set_option Elab.async false

/-! ### WellFormed refuses -/

theorem test_wellFormed_definedWord : WellFormed (.reserved 0x00000003) = false := by decide
theorem test_wellFormed_clearWord : WellFormed (.reserved 0x0000000F) = false := by decide
theorem test_wellFormed_symbol257 : WellFormed (.hdrLeaf 257) = false := by decide
theorem test_wellFormed_reserved : WellFormed (.reserved 0x0000000E) = true ∧ WellFormed (.hdrLeaf 256) = true := by decide

/-! ### Words written out bit by bit (30_encoding.md R80, R81, R83, R87, R89) -/

/-- A string of 0s and 1s. -/
def bits (l : List Nat) : Bits := l.map fun n => decide (n = 1)

/-- RSVD, bits 31:8, all 0. -/
def rsvd0 : Bits := List.replicate 24 false

theorem test_decode_nop : decode .cmd (rsvd0 ++ bits [0,0,0,0,0,0,0,0]) = .ok (.nop, []) := by decide +kernel
theorem test_decode_count : decode .cmd (rsvd0 ++ bits [0,0,0,0,0,0,0,1]) = .ok (.count, []) := by decide +kernel
theorem test_decode_rewind : decode .cmd (rsvd0 ++ bits [0,0,0,0,0,0,1,0]) = .ok (.rewind, []) := by decide +kernel
theorem test_decode_build : decode .cmd (rsvd0 ++ bits [0,0,0,0,0,0,1,1]) = .ok (.build, []) := by decide +kernel
theorem test_decode_gencodes : decode .cmd (rsvd0 ++ bits [0,0,0,0,0,1,0,0]) = .ok (.gencodes, []) := by decide +kernel
theorem test_decode_wrmagic : decode .cmd (rsvd0 ++ bits [0,0,0,0,0,1,0,1]) = .ok (.wrmagic, []) := by decide +kernel
theorem test_decode_wrtree : decode .cmd (rsvd0 ++ bits [0,0,0,0,0,1,1,0]) = .ok (.wrtree, []) := by decide +kernel
theorem test_decode_encode : decode .cmd (rsvd0 ++ bits [0,0,0,0,0,1,1,1]) = .ok (.encode, []) := by decide +kernel
theorem test_decode_close : decode .cmd (rsvd0 ++ bits [0,0,0,0,1,0,0,0]) = .ok (.close, []) := by decide +kernel
theorem test_decode_rdmagic : decode .cmd (rsvd0 ++ bits [0,0,0,0,1,0,0,1]) = .ok (.rdmagic, []) := by decide +kernel
theorem test_decode_rdtree : decode .cmd (rsvd0 ++ bits [0,0,0,0,1,0,1,0]) = .ok (.rdtree, []) := by decide +kernel
theorem test_decode_decode : decode .cmd (rsvd0 ++ bits [0,0,0,0,1,0,1,1]) = .ok (.decode, []) := by decide +kernel
theorem test_decode_compress : decode .cmd (rsvd0 ++ bits [0,0,0,0,1,1,0,0]) = .ok (.compress, []) := by decide +kernel
theorem test_decode_decompress : decode .cmd (rsvd0 ++ bits [0,0,0,0,1,1,0,1]) = .ok (.decompress, []) := by
  decide +kernel
theorem test_decode_clear : decode .cmd (rsvd0 ++ bits [0,0,0,0,1,1,1,1]) = .ok (.clear, []) := by decide +kernel
theorem test_decode_reserved_op : decode .cmd (rsvd0 ++ bits [0,0,0,0,1,1,1,0]) = .ok (.reserved 0x0E, []) := by
  decide +kernel
theorem test_decode_reserved_bits :
    decode .cmd (List.replicate 23 false ++ bits [1, 0,0,0,0,1,1,1,1]) = .ok (.reserved 0x0000010F, []) := by
  decide +kernel
theorem test_decode_hdrInternal : decode .header (bits [0, 1]) = .ok (.hdrInternal, bits [1]) := by decide +kernel
/-- V1.9: bin_9(0x61) = 001100001. -/
theorem test_decode_hdrLeaf : decode .header (bits [1, 0,0,1,1,0,0,0,0,1]) = .ok (.hdrLeaf 0x61, []) := by
  decide +kernel
theorem test_decode_hdrLeaf_256 : decode .header (bits [1, 1,0,0,0,0,0,0,0,0]) = .ok (.hdrLeaf 256, []) := by
  decide +kernel
/-- V2.5: the 32 bits of 0xFACE8201. -/
theorem test_decode_magicField :
    decode .magic (bits [1,1,1,1,1,0,1,0, 1,1,0,0,1,1,1,0, 1,0,0,0,0,0,1,0, 0,0,0,0,0,0,0,1]) =
      .ok (.magicField 0xFACE8201, []) := by decide +kernel
theorem test_decode_short : decode .header [] = .error .noMarker ∧ decode .header (bits [1,0,0]) = .error .shortLeaf ∧
    decode .magic (bits [1]) = .error .shortMagic ∧ decode .cmd (bits [1]) = .error .shortCommand := by decide +kernel
theorem test_tableWord : decodeTableWord 32 0x0C = some .compress ∧ decodeTableWord 8 0 = some .hdrInternal ∧
    decodeTableWord 16 0x261 = some (.hdrLeaf 0x61) ∧ decodeTableWord 8 1 = none := by decide +kernel

/-! ### Small states -/

/-- A value of the next state, when there is one. -/
def result {α : Type} (o : Outcome) (f : State → α) : Option α :=
  match o with
  | .next t => some (f t)
  | .fault _ | .refused _ => none

theorem next_of_result {α : Type} {o : Outcome} {f : State → α} {a : α} (h : result o f = some a) :
    ∃ t, o = .next t ∧ f t = a := by
  cases o with
  | next t => exact ⟨t, rfl, Option.some.inj h⟩
  | fault e => cases h
  | refused r => cases h

/-- Reset, with bytes attached. -/
def attached (bytes : List Byte) : State := { State.reset with inBits := bitsOf bytes }

/-- Reset, with bits attached. -/
def attachedBits (b : Bits) : State := { State.reset with inBits := b }

/-- The bytes of V1.1. -/
def aaabBytes : List Byte := [0x61, 0x61, 0x61, 0x62]

/-- The tree of V1.1. -/
def aaabTree : HTree := .node (.node (.leaf 0x62) (.leaf 256)) (.leaf 0x61)

/-- The tables of V1.1 after GENCODES, with its bytes in IN. -/
def aaab : State :=
  { attached aaabBytes with
    freqValid := true
    treeValid := true
    codesValid := true
    freq := (((Vector.replicate 257 0).set 0x61 3).set 0x62 1).set 256 1
    total := 4
    nodes := (((((Vector.replicate 513 Node.unwritten).set 0 (leafNode 0x61 3)).set 1 (leafNode 0x62 1)).set 2
      (leafNode 256 1)).set 3 (parentNode 2 1 2)).set 4 (parentNode 5 3 0)
    ncount := 5
    root := 4
    codes := (((Vector.replicate 257 Code.absent).set 0x61 { len := 1, bits := bits [1] }).set 0x62
      { len := 2, bits := bits [0,0] }).set 256 { len := 2, bits := bits [0,1] } }

/-- The first five entries of the node store. -/
def firstNodes (s : State) : List (Option Node) := [s.nodes[0]?, s.nodes[1]?, s.nodes[2]?, s.nodes[3]?, s.nodes[4]?]

/-- The header of V2.7, row 1. -/
def aaabHeader : Bits := bits [0, 0, 1,0,0,1,1,0,0,0,1,0, 1,1,0,0,0,0,0,0,0,0, 1,0,0,1,1,0,0,0,0,1]

/-- The tree of V2.7 row 1, as RDTREE leaves it. -/
def headerRead (inBits : Bits) : State :=
  { attachedBits inBits with
    treeValid := true
    treeSrc := true
    nodes := (((((Vector.replicate 513 Node.unwritten).set 0 (leafNode 0x62 0)).set 1 (leafNode 256 0)).set 2
      (parentNode 0 0 1)).set 3 (leafNode 0x61 0)).set 4 (parentNode 0 2 3)
    ncount := 5
    root := 4 }

/-- A tree that is one leaf. -/
def rootLeaf (sym : Symbol) (inBits : Bits) : State :=
  { attachedBits inBits with
    treeValid := true
    treeSrc := true
    nodes := (Vector.replicate 513 Node.unwritten).set 0 (leafNode sym 0)
    ncount := 1
    root := 0 }

/-- After COUNT of the empty input (V2.1). -/
def emptyCounted : State :=
  { State.reset with freqValid := true, freq := (Vector.replicate 257 0).set 256 1 }

/-- After an illegal command (V2.10). -/
def errored : State :=
  { State.reset with err := true, errCode := 6, subcause := 1, failOp := 0x0E, errData := 0x0E }

/-- Inside RDTREE, with n markers read. -/
def inHeader (n : BitVec 10) (inBits : Bits) : State :=
  { attachedBits inBits with busy := true, curOp := 0x0A, marks := n }

/-- Inside RDMAGIC. -/
def inMagic (inBits : Bits) : State := { attachedBits inBits with busy := true, curOp := 0x09 }

/-- Counters of three bits (V2.1), with n bytes 0x78 in IN. -/
def narrow (n : Nat) : State := { attached (List.replicate n 0x78) with wCnt := 3 }

/-! ### Single steps (95_test_vectors.md) -/

theorem test_nop : result (exec .nop State.reset) State.status = some 0 := by decide +kernel

/-- V2.1. -/
theorem test_count : result (exec .count (attached aaabBytes)) (fun t => (t.freqAt 0x61, t.freqAt 0x62, t.freqAt 256,
    t.total, t.inPos)) = some (3, 1, 1, 4, 32) := by decide +kernel
/-- V2.1, W_CNT = 3. -/
theorem test_count_full : result (exec .count (narrow 6)) (·.total) = some 6 ∧
    result (exec .count (narrow 7)) (fun t => (t.status, t.errInfo, t.errData)) = some (0x502, 0x101, 0) := by
  decide +kernel
/-- V2.2. -/
theorem test_rewind : result (exec .rewind { aaab with inPos := 32 }) (·.inPos) = some 0 := by decide +kernel
/-- V1.1. -/
theorem test_build : result (exec .build { aaab with
    treeValid := false, codesValid := false, nodes := Vector.replicate 513 Node.unwritten }) (fun t => (firstNodes t, t.ncount, t.root)) =
    some (firstNodes aaab, 5, 4) := by
  decide +kernel
/-- V2.3. -/
theorem test_build_unmet : result (exec .build State.reset) (fun t => (t.status, t.errInfo, t.errData)) =
    some (0x702, 0x301, 3) := by decide +kernel
/-- V2.4. -/
theorem test_gencodes : result (exec .gencodes { aaab with
    codesValid := false, codes := Vector.replicate 257 Code.absent }) (fun t => (t.codeAt 0x61, t.codeAt 0x62,
    t.codeAt 256, t.codeAt 0)) = some (aaab.codeAt 0x61, aaab.codeAt 0x62, aaab.codeAt 256, Code.absent) := by decide +kernel
/-- V2.4. -/
theorem test_gencodes_read : result (exec .gencodes (headerRead [])) State.errInfo = some 0x403 := by decide +kernel
/-- V2.5. -/
theorem test_wrmagic : result (exec .wrmagic State.reset) (fun t => wholeBytes t.outBits) =
    some [0xFA, 0xCE, 0x82, 0x01] := by decide +kernel
/-- V2.5. -/
theorem test_wrtree : result (exec .wrtree aaab) (·.outBits) = some aaabHeader := by decide +kernel
/-- V2.6. -/
theorem test_rdmagic : result (exec .rdmagic (attached [0xFA, 0xCE, 0x82, 0x00])) (fun t => (t.status, t.errInfo,
    t.errData, t.inPos)) = some (0x102, 0x902, 0xFACE8200, 32) := by decide +kernel
/-- V2.7. -/
theorem test_rdtree : result (exec .rdtree (attachedBits aaabHeader)) (fun t => (firstNodes t, t.ncount, t.root,
    t.inPos)) = some (firstNodes (headerRead []), 5, 4, 32) := by decide +kernel
/-- V2.7: the 514th marker. -/
theorem test_rdtree_marks : result (step (inHeader 513 (bits [0]))) (fun t => (t.errInfo, t.errData, t.inPos)) =
    some (0x0A04, 514, 1) := by decide +kernel
/-- V2.8. -/
theorem test_encode : result (exec .encode aaab) (·.outBits) = some (bits [1,1,1,0,0,0,1]) := by decide +kernel
/-- V2.8. -/
theorem test_encode_missing : result (exec .encode { aaab with inBits := bitsOf [0x61, 0x61, 0x61, 0x63] })
    (fun t => (t.outBits, t.errInfo, t.errData)) = some (bits [1,1,1], 0x701, 0x63) := by decide +kernel
/-- V2.8: OUT of 71 bits. -/
theorem test_close : result (exec .close { State.reset with outBits := List.replicate 71 true }) (fun t =>
    (t.outBits.length, t.outBits.getLast?)) = some (72, some false) := by decide +kernel
/-- V2.9. -/
theorem test_decode : result (exec .decode (headerRead (bits [1,1,1,0,0,0,1,0]))) (fun t => (wholeBytes t.outBits,
    t.inPos)) = some (aaabBytes, 7) := by decide +kernel
/-- V2.9: a root leaf 0x41. -/
theorem test_decode_rootLeaf : result (exec .decode (rootLeaf 0x41 (bits [0,0,0]))) (fun t => (wholeBytes t.outBits,
    t.errInfo)) = some ([0x41, 0x41, 0x41], 0xB01) := by decide +kernel
/-- V1.1. -/
theorem test_compress : result (exec .compress (attached aaabBytes)) (fun t => (wholeBytes t.outBits, t.status)) =
    some ([0xFA, 0xCE, 0x82, 0x01, 0x26, 0x2C, 0x02, 0x61, 0xE2], 0x2C) := by decide +kernel
/-- P3. -/
theorem test_compress_empty : result (exec .compress State.reset) (fun t => wholeBytes t.outBits) =
    some [0xFA, 0xCE, 0x82, 0x01, 0xC0, 0x00] := by decide +kernel
/-- P2. -/
theorem test_decompress : result (exec .decompress (attached [0xFA, 0xCE, 0x82, 0x01, 0x26, 0x2C, 0x02, 0x61, 0xE2]))
    (fun t => (wholeBytes t.outBits, t.status, t.inPos)) = some (aaabBytes, 0x18, 71) := by decide +kernel
/-- V1.6: a wrong magic number, a header cut short, a payload cut short. -/
theorem test_decompress_errors : result (exec .decompress (attached [0xFA, 0xCE, 0x82, 0x00, 0x26, 0x2C, 0x02, 0x61,
    0xE2])) (fun t => (t.status, t.errInfo, t.errData, t.outBits)) = some (0x102, 0x902, 0xFACE8200, []) ∧
    result (exec .decompress (attached [0xFA, 0xCE, 0x82, 0x01, 0x26, 0x2C])) (fun t => (t.status, t.errInfo, t.outBits)) =
      some (0x202, 0xA02, []) ∧
    result (exec .decompress (attached [0xFA, 0xCE, 0x82, 0x01, 0x26, 0x2C, 0x02, 0x61])) (fun t => (t.status,
      t.errInfo, t.outBits)) = some (0x302, 0xB01, []) := by
  decide +kernel
/-- V2.10. -/
theorem test_clear : result (exec .clear errored) State.status = some 0 ∧
    result (exec .clear aaab) State.status = some 0 := by decide +kernel
/-- V2.10. -/
theorem test_reserved : result (exec (.reserved 0x101) State.reset) (fun t => (t.errInfo, t.errData)) =
    some (0x102, 0x101) ∧ result (exec (.reserved 0x10F) errored) (fun t => (t.status, t.errInfo, t.errData)) =
    some (0x602, 0xE01, 0xE) := by decide +kernel
/-- 42_header_codec.md R148. -/
theorem test_hdrInternal : result (exec .hdrInternal (inHeader 1 [])) (·.rdStack) = some [.waitLeft] := by
  decide +kernel
/-- V2.7: a field of 300. -/
theorem test_hdrLeaf : result (exec (.hdrLeaf 300) (inHeader 1 [])) (fun t => (t.errInfo, t.errData)) =
    some (0xA03, 0x12C) := by decide +kernel
/-- V2.7: one leaf 0x41. -/
theorem test_hdrLeaf_root : result (exec (.hdrLeaf 0x41) (inHeader 1 [])) (fun t => (t.nodes[0]?, t.ncount, t.root,
    t.status)) = some (some (leafNode 0x41 0), 1, 0, 0x18) := by decide +kernel
/-- V2.6. -/
theorem test_magicField : result (exec (.magicField 0xFACE8201) (inMagic [])) State.status = some 0 ∧
    result (exec (.magicField 0xFACE8200) (inMagic [])) State.errInfo = some 0x902 := by decide +kernel
/-- The readout of V2.4. -/
theorem test_windows : aaab.register 0x1184 = some 1 ∧ aaab.register 0x2C20 = some 0x80000000 ∧
    aaab.register 0x1188 = some 2 ∧ aaab.register 0x2C40 = some 0 ∧ aaab.register 0x1400 = some 2 ∧
    aaab.register 0x4000 = some 0x40000000 := by decide +kernel
/-- The readout of P1. -/
theorem test_nodeWindow : aaab.register 0x8020 = some 3 ∧ aaab.register 0x8018 = some 0x00020001 ∧
    aaab.register 0x8000 = some 0x80000061 ∧ aaab.register 0x0584 = some 3 := by decide +kernel

/-! ### Witnesses: states of the invariant -/

theorem aaab_inv : aaab.Inv where
  flags := by constructor <;> decide
  width := by decide
  inPos := by decide +kernel
  hidden := ⟨rfl, rfl⟩
  freq _ := by decide +kernel
  tree _ := by decide +kernel
  built _ _ := by decide +kernel
  codes _ := ⟨aaabTree, by decide +kernel, by decide +kernel⟩

theorem headerRead_inv : (headerRead aaabHeader).Inv where
  flags := by constructor <;> decide
  width := by decide
  inPos := by decide +kernel
  hidden := ⟨rfl, rfl⟩
  freq h := by cases h
  tree _ := by decide +kernel
  built _ h := by cases h
  codes h := by cases h

theorem emptyCounted_inv : emptyCounted.Inv where
  flags := by constructor <;> decide
  width := by decide
  inPos := by decide
  hidden := ⟨rfl, rfl⟩
  freq _ := by decide +kernel
  tree h := by cases h
  built h := by cases h
  codes h := by cases h

theorem narrow_inv (n : Nat) : (narrow n).Inv where
  flags := by constructor <;> simp [narrow, attached, State.reset]
  width := by show 2 ≤ 3 ∧ 3 ≤ 32; decide
  inPos := Nat.zero_le _
  hidden := ⟨rfl, rfl⟩
  freq h := by cases h
  tree h := by cases h
  built h := by cases h
  codes h := by cases h

theorem attached_inv (bytes : List Byte) (k : Nat) (h : k ≤ (bitsOf bytes).length) :
    ({ attached bytes with inPos := k } : State).Inv where
  flags := by constructor <;> simp [attached, State.reset]
  width := by show 2 ≤ 32 ∧ 32 ≤ 32; decide
  inPos := h
  hidden := ⟨rfl, rfl⟩
  freq h := by cases h
  tree h := by cases h
  built h := by cases h
  codes h := by cases h

theorem errored_inv : errored.Inv where
  flags := by constructor <;> decide
  width := by decide
  inPos := by decide
  hidden := ⟨rfl, rfl⟩
  freq h := by cases h
  tree h := by cases h
  built h := by cases h
  codes h := by cases h

/-! ### Witnesses: the ports -/

theorem witness_writeBits : (1 ≤ 1 ∧ 1 ≤ 256) ∧ (1 ≤ 256 ∧ 256 ≤ 256) ∧
    (writeBits 1 1 State.reset).outBits = [true] ∧ (writeBits 256 0 State.reset).outBits.length = 256 := by
  decide +kernel

/-- One bit too few, and just enough, for the longest and the shortest read. -/
theorem witness_readBits : 32 ∈ [1, 8, 9, 32] ∧ (attachedBits (bin 31 0)).inBits.length < 0 + 32 ∧
    0 + 32 ≤ (attachedBits (bin 32 0)).inBits.length ∧ 1 ∈ [1, 8, 9, 32] ∧ (attachedBits []).inBits.length < 0 + 1 ∧
    0 + 1 ≤ (attachedBits [true]).inBits.length := by decide +kernel

theorem witness_packing : 7 < 8 ∧ 0 < (bitsOf aaabBytes).length / 8 ∧
    (attached aaabBytes).inBits = bitsOf aaabBytes ++ [] ∧ (attached aaabBytes).inPos = 8 * 0 ∧
    aaabBytes[0]? = some 0x61 ∧ State.reset.outBits.length % 8 = 0 := by decide +kernel

theorem witness_takeOut : State.reset.busy = false ∧ State.reset.Ready := by decide

/-! ### Witnesses: encodings -/

theorem witness_wellFormed : WellFormed (.hdrLeaf 256) = true ∧ WellFormed (.reserved 0x0E) = true ∧
    WellFormed (.reserved 0x100) = true ∧ WellFormed .clear = true := by decide

theorem witness_decoded : decode .cmd (bin 32 14 ++ [true]) = .ok (.reserved 14, [true]) ∧
    decode .header (bits [1, 1,1,1,1,1,1,1,1,1]) = .ok (.hdrLeaf 511, []) ∧
    decode .magic (bin 32 0) = .ok (.magicField 0, []) := by decide +kernel

theorem witness_reservedWord : State.reset.busy = false ∧ State.reset.err = false ∧
    (14 = 14 ∨ (16 ≤ 14 ∧ 14 < 256)) ∧ ((0x10 : Word).toNat = 14 ∨ (16 ≤ (0x10 : Word).toNat ∧ (0x10 : Word).toNat < 256)) ∧
    ((0xFF : Word).toNat = 14 ∨ (16 ≤ (0xFF : Word).toNat ∧ (0xFF : Word).toNat < 256)) ∧
    256 ≤ (0x100 : Word).toNat ∧ errored.busy = false ∧ errored.err = true ∧ (0x10F : Word) ≠ 0x0000000F := by decide

/-! ### Witnesses: steps -/

theorem witness_commandStep : State.reset.busy = false ∧
    decode .cmd (bin 32 (0x0000000D : Word).toNat) = .ok (.decompress, []) ∧
    decode .cmd (bin 32 (0xFFFFFFFF : Word).toNat) = .ok (.reserved 0xFFFFFFFF, []) := by decide +kernel

theorem witness_tokenStep : (inHeader 512 (bits [0])).busy = true ∧ (inHeader 512 (bits [0])).script = [] ∧
    (inHeader 512 (bits [0])).curOp = 0x0A ∧ (inHeader 512 (bits [0])).marks.toNat < 513 ∧
    decode .header (inHeader 512 (bits [0])).unread = .ok (.hdrInternal, []) ∧
    decode .header (inHeader 512 (bits [1, 1,0,0,0,0,0,0,0,0])).unread = .ok (.hdrLeaf 256, []) ∧
    decode .header (inHeader 0 []).unread = .error .noMarker ∧
    decode .header (inHeader 512 (bits [1, 0,0,0,0,0,0,0,0])).unread = .error .shortLeaf ∧
    (inHeader 513 (bits [0])).marks.toNat = 513 ∧ (inHeader 513 (bits [0])).unread ≠ [] ∧
    (inMagic (bin 32 7)).curOp = 0x09 ∧ decode .magic (inMagic (bin 32 7)).unread = .ok (.magicField 7, []) ∧
    decode .magic (inMagic (bin 31 7)).unread = .error .shortMagic := by decide +kernel

theorem witness_hostMove : State.reset.busy = false ∧ State.reset.script = [] ∧ (4 : Offset) ≠ 0 ∧
    (4 : Offset).toNat % 4 = 0 ∧ State.reset.register (0x010 : Offset).toNat = some State.reset.magic ∧
    State.reset.register (0x014 : Offset).toNat = none := by decide +kernel

theorem witness_busy : (inHeader 0 []).busy = true ∧ Instr.count.source = .cmd ∧
    allowedWhileBusy (.write 0 0x0F) = false ∧ allowedWhileBusy (.read 8) = false ∧ allowedWhileBusy .takeOut = false := by
  decide

/-! ### Witnesses: registers and reset -/

theorem witness_status : State.reset.FlagsOk ∧ State.reset.err = false ∧ State.reset.busy = false :=
  ⟨by constructor <;> decide, rfl, rfl⟩

theorem witness_controlRegisters : (0x020 ≤ 0x020 ∧ 0x020 < 0x400) ∧ (0x020 ≤ 0x3FF ∧ 0x3FF < 0x400) := by decide

theorem witness_windows : aaab.freqValid = true ∧ aaab.codesValid = true ∧ State.reset.codesValid = false ∧ 7 < 8 ∧
    31 < 32 ∧ 512 < 513 ∧ (aaab.treeValid = true ∧ 4 < aaab.ncount.toNat) ∧
    ¬ (aaab.treeValid = true ∧ 5 < aaab.ncount.toNat) ∧
    ((aaab.nodes[0]?.map Node.leaf) = some true ∧ (aaab.nodes[4]?.map Node.leaf) = some false) := by decide +kernel

theorem witness_magic : (∃ t, step State.reset = .next t) ∧ ∃ t, exec .wrmagic State.reset = .next t :=
  ⟨⟨State.reset, rfl⟩, by
    obtain ⟨t, h, _⟩ := next_of_result test_wrmagic
    exact ⟨t, h⟩⟩

theorem witness_reset : 0x014 ≤ 0x014 ∧ 0x014 ≤ 0x8000 + 8 * 512 + 4 := by decide

theorem witness_resetDuring : State.reset.busy = false ∧ State.reset.inPos ≤ State.reset.inBits.length ∧
    ∃ t, exec (decodeCommand 5) { State.reset with script := [], portTrace := [] } = .next t := by
  refine ⟨rfl, by decide, ?_⟩
  obtain ⟨t, h, _⟩ := next_of_result test_wrmagic
  exact ⟨t, h⟩

/-! ### Witnesses: errors -/

theorem witness_ignored : Instr.count.source = .cmd ∧ errored.busy = false ∧ errored.err = true ∧
    Instr.count ≠ .clear := by decide

theorem witness_unmet : State.reset.Ready ∧ State.reset.freqValid = false ∧ State.reset.treeValid = false ∧
    State.reset.codesValid = false ∧ (headerRead []).Ready ∧ (headerRead []).treeValid = true ∧
    (headerRead []).treeSrc = true := by decide

/-- One instance for each kind of error. -/
theorem witness_errors : State.reset.err = false ∧
    result (exec .rdmagic State.reset) (fun t => (t.err, t.errCode)) = some (true, 1) ∧
    result (exec .rdtree State.reset) (fun t => (t.err, t.errCode)) = some (true, 2) ∧
    result (exec .decode (headerRead [])) (fun t => (t.err, t.errCode)) = some (true, 3) ∧
    result (exec .encode { aaab with inBits := bitsOf [0x63] }) (fun t => (t.err, t.errCode)) = some (true, 4) ∧
    result (exec .compress (narrow 7)) (fun t => (t.err, t.errCode)) = some (true, 5) ∧
    result (exec (.reserved 14) State.reset) (fun t => (t.err, t.errCode)) = some (true, 6) ∧
    result (exec .wrtree State.reset) (fun t => (t.err, t.errCode)) = some (true, 7) := by decide +kernel

/-! ### Witnesses: commands -/

/-- For NOP, CLEAR, REWIND, CLOSE, WRMAGIC. -/
theorem witness_ready : State.reset.Ready ∧ errored.busy = false ∧ errored.err = true := by decide

/-- As many bytes as the counters hold, and one more (V2.1). -/
theorem witness_count : (narrow 6).Ready ∧ (narrow 6).WidthOk ∧
    (narrow 6).unread = bitsOf (List.replicate 6 0x78) ++ [] ∧ (List.replicate 6 (0x78 : Byte)).length ≤ 2 ^ 3 - 2 ∧
    (narrow 7).unread = bitsOf (List.replicate 7 0x78) ++ [] ∧
    2 ^ 3 - 2 < (List.replicate 7 (0x78 : Byte)).length ∧
    (attachedBits (bin 7 0)).unread = bitsOf [] ++ bin 7 0 ∧ (bin 7 0).length < 8 := by decide +kernel

/-- For the statements about BUILD: node 3 of V1.1 is internal. -/
theorem witness_build : aaab.Ready ∧ aaab.Inv ∧ aaab.freqValid = true ∧ aaab.present[0]? = some 0x61 ∧
    aaab.total ≠ 0 ∧ (∃ t, exec .build aaab = .next t ∧ (t.ncount, t.nodes[3]?, t.waited 3 0, t.waited 3 2) =
      (5, some (parentNode 2 1 2), true, true)) ∧
    emptyCounted.Ready ∧ emptyCounted.Inv ∧ emptyCounted.freqValid = true ∧ emptyCounted.total = 0 ∧
    ∃ t, exec .build emptyCounted = .next t ∧ (t.ncount, t.nodes[0]?) = (1, some (leafNode 256 1)) :=
  ⟨by decide, aaab_inv, rfl, by decide +kernel, by decide, next_of_result (by decide +kernel), by decide,
    emptyCounted_inv, rfl, rfl, next_of_result (by decide +kernel)⟩

theorem witness_weights : (attached aaabBytes).Ready ∧ (attached aaabBytes).WidthOk ∧
    (∃ t, exec .count (attached aaabBytes) = .next t ∧ t.err = false) ∧
    (∃ t, exec .count (narrow 6) = .next t ∧ t.err = false) ∧ (0x61 : Fin 257) ≠ eofIndex :=
  ⟨by decide, by decide, next_of_result (by decide +kernel), next_of_result (by decide +kernel), by decide⟩

theorem witness_sameFreq : aaab.Ready ∧ ({ aaab with nodes := (headerRead []).nodes, ncount := 0 } : State).Ready ∧
    aaab.freqValid = true ∧ aaab.freq = ({ aaab with nodes := (headerRead []).nodes, ncount := 0 } : State).freq ∧
    ∃ t, exec .build aaab = .next t ∧ t.ncount = 5 :=
  ⟨by decide, by decide, rfl, rfl, next_of_result (by decide +kernel)⟩

theorem witness_gencodes : aaab.Ready ∧ aaab.Inv ∧ aaab.treeValid = true ∧ aaab.treeSrc = false ∧
    ((BitVec.ofNat 9 (0x61 : Fin 257).val, bits [1]) ∈ aaabTree.codeList) ∧
    BitVec.ofNat 9 (0 : Fin 257).val ∉ aaabTree.symbols ∧ 2 ≤ aaab.present.length ∧
    ∃ t, exec .gencodes aaab = .next t ∧ (t.codeAt 0x61).len = 1 :=
  ⟨by decide, aaab_inv, rfl, rfl, by decide +kernel, by decide +kernel, by decide +kernel,
    next_of_result (by decide +kernel)⟩

/-- A built tree, and one RDTREE read. -/
theorem witness_wrtree : aaab.Ready ∧ aaab.Inv ∧ aaab.treeValid = true ∧ (headerRead aaabHeader).Ready ∧
    (headerRead aaabHeader).Inv ∧ (headerRead aaabHeader).treeValid = true :=
  ⟨by decide, aaab_inv, rfl, by decide, headerRead_inv, rfl⟩

theorem witness_rdmagic : State.reset.Ready ∧ (attachedBits (bin 31 0)).unread.length < 32 ∧
    (attached [0xFA, 0xCE, 0x82, 0x00]).unread = bin 32 (0xFACE8200 : Word).toNat ++ [] ∧
    (0xFACE8200 : Word) ≠ (attached []).magic ∧
    (attached [0xFA, 0xCE, 0x82, 0x01]).unread = bin 32 (attached []).magic.toNat ++ [] := by decide +kernel

/-- A tree of 513 nodes: 256 internal nodes down the left, 257 leaves. -/
def deepTree : Nat → HTree
  | 0 => .leaf 256
  | n + 1 => .node (deepTree n) (.leaf (BitVec.ofNat 9 n))

theorem witness_rdtree : (attachedBits (aaabTree.header ++ [true])).Ready ∧
    (attachedBits (aaabTree.header ++ [true])).unread = aaabTree.header ++ [true] ∧ aaabTree.symbolsOk = true ∧
    aaabTree.size ≤ 513 ∧ aaabTree.header = aaabHeader ∧ (deepTree 256).size = 513 ∧
    (deepTree 256).symbolsOk = true ∧ (deepTree 256).height = 256 := by decide +kernel

/-- The four ways of V2.7, the last with 513 tokens at the front. -/
theorem witness_malformedHeader : State.reset.Ready ∧ headerFront [] = true ∧
    headerFront [.internal, .leaf 0x61] = true ∧ headerFront [.leaf 0x61] = false ∧
    headerFront (List.replicate 513 .internal) = true ∧ (List.replicate 513 Token.internal).length ≤ 513 ∧
    (attachedBits (bits [0, 1,0,0,1,1,0,0,0,0,1])).unread = [Token.internal, .leaf 0x61].flatMap Token.bits ∧
    (attachedBits (bits [1, 0,0,1,1,0])).unread = [].flatMap Token.bits ++ true :: bits [0,0,1,1,0] ∧
    (bits [0,0,1,1,0]).length < 9 ∧ 256 < (257 : Symbol).toNat ∧
    (attachedBits (bits [1, 1,0,0,0,0,0,0,0,1])).unread =
      [].flatMap Token.bits ++ (true :: bin 9 (257 : Symbol).toNat) ++ [] ∧
    (attachedBits (List.replicate 514 false)).unread =
      (List.replicate 513 Token.internal).flatMap Token.bits ++ false :: [] := by decide +kernel

theorem witness_headerRoundTrip : aaab.Ready ∧ aaab.Inv ∧ aaab.treeValid = true ∧ (attachedBits aaabHeader).Ready ∧
    (∃ t, exec .wrtree aaab = .next t ∧ t.outBits = aaab.outBits ++ aaabHeader) ∧
    (attachedBits aaabHeader).unread = aaabHeader ++ [] :=
  ⟨by decide, aaab_inv, rfl, by decide, next_of_result test_wrtree, by decide +kernel⟩

/-- Three entries before the end of the store, a leaf about to end two calls. -/
def lastEntries : State := { inHeader 5 [] with ncount := 510, rdStack := [.waitRight 3, .waitRight 5, .waitLeft] }

/-- A leaf that completes the tree, one that ends two calls and goes on to a right subtree, in the last free entries of
the store, and the first field that is no symbol. -/
theorem witness_tokens : (inHeader 1 []).busy = true ∧ (inHeader 1 []).curOp = 0x0A ∧ 256 < (257 : Symbol).toNat ∧
    (256 : Symbol).toNat ≤ 256 ∧ (inHeader 1 []).ncount.toNat + (closing (inHeader 1 []).rdStack).length < 513 ∧
    afterClosing (inHeader 1 []).rdStack = [] ∧
    lastEntries.busy = true ∧ lastEntries.curOp = 0x0A ∧
    lastEntries.ncount.toNat + (closing lastEntries.rdStack).length < 513 ∧
    (closing lastEntries.rdStack)[1]? = some 5 ∧ afterClosing lastEntries.rdStack = .waitLeft :: [] ∧
    (∃ t, exec (.hdrLeaf 256) lastEntries = .next t ∧ (t.ncount, t.nodes[512]?, t.rdStack) =
      (513, some (parentNode 0 5 511), [.waitRight 512])) ∧ (inMagic []).busy = true ∧
    (inMagic []).curOp = 0x09 ∧ (0 : Word) ≠ (inMagic []).magic ∧ (inMagic []).err = false :=
  ⟨by decide, by decide, by decide, by decide, by decide, by decide, by decide, by decide, by decide, by decide, by decide,
    next_of_result (by decide +kernel), by decide, by decide, by decide, by decide⟩

/-- A code table without any code, IN at its end. -/
def noCodes : State := { aaab with inBits := [], codes := Vector.replicate 257 Code.absent }

/-- Every byte coded, no byte, one without a code (V2.8), and no end code. -/
theorem witness_encode : aaab.Ready ∧ aaab.codesValid = true ∧ aaab.unread = bitsOf aaabBytes ++ [] ∧
    (∀ b ∈ aaabBytes, aaab.hasCode b = true) ∧ (aaab.codeAt eofIndex).len ≠ 0 ∧
    ({ aaab with inBits := bin 7 0 } : State).unread = bitsOf [] ++ bin 7 0 ∧ (bin 7 0).length < 8 ∧
    ({ aaab with inBits := bitsOf [0x61, 0x61, 0x61, 0x63] } : State).unread =
      bitsOf ([0x61, 0x61, 0x61] ++ 0x63 :: []) ++ [] ∧ aaab.hasCode 0x63 = false ∧
    noCodes.Ready ∧ noCodes.codesValid = true ∧ noCodes.unread = bitsOf [] ++ [] ∧
    (noCodes.codeAt eofIndex).len = 0 := by decide +kernel

/-- As many bytes as the counters hold. -/
theorem witness_pipeline : (narrow 6).Ready ∧ (narrow 6).Inv ∧ (narrow 6).inPos = 0 ∧
    (narrow 6).inBits = bitsOf (List.replicate 6 0x78) ++ [] ∧
    (List.replicate 6 (0x78 : Byte)).length ≤ 2 ^ (narrow 6).wCnt - 2 ∧ (narrow 6).outBits = [] :=
  ⟨by decide, narrow_inv 6, rfl, by decide +kernel, by decide, rfl⟩

/-- COMPRESS from INPOS = 8 over 61 61, which completes, and over 61 62, which lacks the code of its first byte. -/
theorem witness_compress_inPos : ({ attached [0x61, 0x61] with inPos := 8 } : State).Ready ∧
    ({ attached [0x61, 0x61] with inPos := 8 } : State).Inv ∧
    ({ attached [0x61, 0x61] with inPos := 8 } : State).unread = bitsOf [0x61] ++ [] ∧
    (attached [0x61, 0x61]).inBits = bitsOf [0x61, 0x61] ++ [] ∧
    (∀ b ∈ [(0x61 : Byte), 0x61], b ∈ [(0x61 : Byte)]) ∧
    ({ attached [0x61, 0x62] with inPos := 8 } : State).Ready ∧
    ({ attached [0x61, 0x62] with inPos := 8 } : State).Inv ∧
    ({ attached [0x61, 0x62] with inPos := 8 } : State).unread = bitsOf [0x62] ++ [] ∧
    (attached [0x61, 0x62]).inBits = bitsOf ([] ++ 0x61 :: [0x62]) ++ [] ∧ (0x61 : Byte) ∉ [(0x62 : Byte)] ∧
    [(0x62 : Byte)].length ≤ 2 ^ (attached []).wCnt - 2 :=
  ⟨by decide, attached_inv _ _ (by decide), by decide +kernel, by decide +kernel, by decide, by decide,
    attached_inv _ _ (by decide), by decide +kernel, by decide +kernel, by decide, by decide +kernel⟩

/-- COMPRESS on one byte more than the counters hold. -/
theorem witness_compress_full : (narrow 7).Ready ∧ (narrow 7).Inv ∧
    (narrow 7).unread = bitsOf (List.replicate 7 0x78) ++ [] ∧
    2 ^ (narrow 7).wCnt - 2 < (List.replicate 7 (0x78 : Byte)).length :=
  ⟨by decide, narrow_inv 7, by decide +kernel, by decide⟩

/-- V2.9, rows 1 to 6. -/
theorem witness_decode : (headerRead (bits [1, 0,0, 0,1, 0])).Ready ∧
    (headerRead (bits [1, 0,0, 0,1, 0])).treeValid = true ∧ (headerRead (bits [1, 0])).treeValid = true ∧
    (headerRead (bits [1, 0])).holds aaabTree 4 = true ∧
    (headerRead (bits [1, 0,0, 0,1, 0])).holds aaabTree 4 = true ∧
    (∀ w ∈ [((0x61 : Byte), bits [1]), (0x62, bits [0,0])], aaabTree.spells (byteSymbol w.1) w.2 = true) ∧
    aaabTree.spells 256 (bits [0,1]) = true ∧
    (headerRead (bits [1, 0,0, 0,1, 0])).unread =
      [((0x61 : Byte), bits [1]), (0x62, bits [0,0])].flatMap Prod.snd ++ bits [0,1] ++ [false] ∧
    aaabTree.unfinished [] = true ∧ aaabTree.unfinished (bits [0]) = true ∧
    (headerRead (bits [1, 0])).unread = [((0x61 : Byte), bits [1])].flatMap Prod.snd ++ bits [0] ∧
    (rootLeaf 256 (bits [1,0])).holds (.leaf 256) 0 = true ∧ (HTree.leaf 256).spells 256 [true] = true ∧
    (rootLeaf 256 (bits [1,0])).Ready ∧ (rootLeaf 256 (bits [1,0])).treeValid = true ∧
    (rootLeaf 256 (bits [1,0])).nodeAt (rootLeaf 256 []).root = some (leafNode 256 0) ∧
    (leafNode 256 0).sym.toNat ≤ 256 ∧ (rootLeaf 256 []).unread = [] ∧
    (rootLeaf 0x41 (bits [0])).Ready ∧ (rootLeaf 0x41 (bits [0])).treeValid = true ∧
    (rootLeaf 0x41 (bits [0])).nodeAt (rootLeaf 0x41 []).root = some (leafNode 0x41 0) ∧
    (leafNode 0x41 0).leaf = true ∧ (leafNode 0x41 0).sym.toNat ≤ 256 ∧ (leafNode 0x41 0).sym ≠ 256 ∧
    (rootLeaf 256 (bits [1,0])).unread = true :: [false] := by decide +kernel

/-- P2 with an end code of two bits and one bit of padding. -/
theorem witness_decompress : (attached [0xFA, 0xCE, 0x82, 0x01, 0x26, 0x2C, 0x02, 0x61, 0xE2]).Ready ∧
    (attached []).outBits.length % 8 = 0 ∧ aaabTree.symbolsOk = true ∧ aaabTree.size ≤ 513 ∧
    (∀ w ∈ [((0x61 : Byte), bits [1]), (0x62, bits [0,0])], aaabTree.spells (byteSymbol w.1) w.2 = true) ∧
    aaabTree.spells 256 (bits [0,1]) = true ∧
    (attached [0xFA, 0xCE, 0x82, 0x01, 0x26, 0x2C, 0x02, 0x61, 0xE2]).unread =
      bin 32 (attached []).magic.toNat ++ aaabTree.header ++
        [((0x61 : Byte), bits [1]), (0x61, bits [1]), (0x61, bits [1]), (0x62, bits [0,0])].flatMap Prod.snd ++
        bits [0,1] ++ [false] := by decide +kernel

/-- A magic number and n internal tokens, and the bits after them. -/
def magicThen (n : Nat) (rest : Bits) : State :=
  attachedBits (bin 32 State.reset.magic.toNat ++ (List.replicate n Token.internal).flatMap Token.bits ++ rest)

/-- 31 bits, a wrong magic number, each malformed header, and P2's stream cut inside its payload. -/
theorem witness_decompress_errors : (attachedBits (bin 31 0)).Ready ∧ (attachedBits (bin 31 0)).unread.length < 32 ∧
    (attached [0xFA, 0xCE, 0x82, 0x00]).unread = bin 32 (0xFACE8200 : Word).toNat ++ [] ∧
    (0xFACE8200 : Word) ≠ (attached []).magic ∧ (magicThen 1 []).Ready ∧
    (magicThen 1 []).unread = bin 32 (magicThen 1 []).magic.toNat ++
      (List.replicate 1 Token.internal).flatMap Token.bits ++ [] ∧
    headerFront (List.replicate 1 .internal) = true ∧ headerFront (List.replicate 513 .internal) = true ∧
    (List.replicate 513 Token.internal).length = 513 ∧
    (magicThen 513 [true]).unread = bin 32 (magicThen 513 [true]).magic.toNat ++
      (List.replicate 513 Token.internal).flatMap Token.bits ++ [true] ∧
    (magicThen 1 (true :: bin 8 0)).unread = bin 32 (magicThen 1 []).magic.toNat ++
      (List.replicate 1 Token.internal).flatMap Token.bits ++ (true :: bin 8 0) ∧ (bin 8 0).length < 9 ∧
    (magicThen 1 ((true :: bin 9 (257 : Symbol).toNat) ++ [])).unread = bin 32 (magicThen 1 []).magic.toNat ++
      (List.replicate 1 Token.internal).flatMap Token.bits ++ ((true :: bin 9 (257 : Symbol).toNat) ++ []) ∧
    256 < (257 : Symbol).toNat ∧ aaabTree.symbolsOk = true ∧ aaabTree.size ≤ 513 ∧
    (∀ w ∈ [((0x61 : Byte), bits [1])], aaabTree.spells (byteSymbol w.1) w.2 = true) ∧
    aaabTree.unfinished (bits [0]) = true ∧
    (attachedBits (bin 32 State.reset.magic.toNat ++ aaabHeader ++ bits [1, 0])).unread =
      bin 32 State.reset.magic.toNat ++ aaabTree.header ++ [((0x61 : Byte), bits [1])].flatMap Prod.snd ++ bits [0] := by
  decide +kernel

/-! ### Witnesses: the whole machine -/

theorem witness_step : aaab.Inv ∧ (∃ t, step aaab = .next t) ∧ errored.Inv ∧
    ∃ t, step { attached aaabBytes with script := [.write 0 1] } = .next t ∧ t.total = 4 :=
  ⟨aaab_inv, ⟨aaab, rfl⟩, errored_inv, next_of_result (by decide +kernel)⟩

theorem witness_ends : aaab.Inv ∧ Instr.count.source = .cmd := ⟨aaab_inv, rfl⟩

theorem witness_frames : (∃ t, exec .count aaab = .next t ∧ t.err = false) ∧
    aaab.inPos ≤ aaab.inBits.length ∧ (∃ t, exec .build State.reset = .next t ∧ t.err = true) ∧
    State.reset.err = false ∧ (∃ t, exec .rdtree (attachedBits aaabHeader) = .next t ∧ t.err = false) ∧
    (∃ t, exec .nop aaab = .next t ∧ (t.freqValid, t.treeValid, t.codesValid) = (true, true, true)) ∧
    ∃ t, exec .rewind (headerRead []) = .next t ∧ t.treeSrc = true :=
  ⟨next_of_result (by decide +kernel), by decide +kernel, next_of_result (by decide +kernel), rfl,
    next_of_result (by decide +kernel), next_of_result (by decide +kernel), next_of_result (by decide +kernel)⟩

end Sys2Proof.Tests
end

section
/-! PROOFS. MAGIC is a constant, and what the registers and readout windows show (10_state.md R41, R42, R47). -/

namespace Sys2Proof.Machine

/-! ### MAGIC is a constant (10_state.md R47) -/

/-- The two states have the same MAGIC: a relation that can be followed along a run (`Along`). -/
def SameMagic (s t : State) : Prop := t.magic = s.magic

theorem sameMagic_along : Along SameMagic where
  refl _ := rfl
  trans h g := Eq.trans g h

theorem exec_magic {i : Instr} {s t : State} (h : exec i s = .next t) : t.magic = s.magic := (exec_ports h).magic

theorem writeCmd_magic {w : Word} {s t : State} (h : writeCmd w s = .next t) : t.magic = s.magic :=
  exec_magic (s := { s with portTrace := [] }) h

theorem readRegister_magic (offset : Offset) (s : State) : (readRegister offset s).magic = s.magic := by
  rw [readRegister]
  split <;> rfl

theorem resetInside_magic (s t : State) : (resetInside s t).magic = t.magic := rfl

theorem hostMove_magic {m : HostMove} {s t : State} (h : hostMove m s = .next t) : t.magic = s.magic := by
  cases m with
  | write offset w =>
    rw [hostMove] at h
    split at h
    · cases h
    · split at h
      · exact writeCmd_magic h
      · cases h; rfl
  | read offset =>
    rw [hostMove] at h
    split at h
    · cases h; exact readRegister_magic offset s
    · cases h
  | attachIn b => cases h; rfl
  | takeOut => cases h; rfl
  | reset => cases h; rfl
  | writeThenReset w =>
    obtain ⟨m, hm, e⟩ := andThen_eq_next h
    cases e
    exact (resetInside_magic s m).trans (writeCmd_magic hm)

/-- Inside RDTREE and RDMAGIC the engine reads, and then raises or runs one instruction (log 4). -/
theorem engineStep_magic {s t : State} (h : engineStep s = .next t) : t.magic = s.magic := by
  have hs : AcrossSeek SameMagic := fun _ _ _ => rfl
  rw [engineStep] at h
  split at h
  · have hf {u : State} (e : fetchToken s = .raised u ∨ ∃ tok, fetchToken s = .token tok u) : u.magic = s.magic :=
      fetchToken_along sameMagic_along hs (fun _ _ _ _ _ => rfl) (fun _ => rfl) e
    split at h
    · next u e => cases h; exact hf (.inl e)
    · next tok u e => exact (exec_magic h).trans (hf (.inr ⟨tok, e⟩))
  · split at h
    · have hr {o : Option Nat} {u : State} (e : readBits Config.magicBits s = (o, u)) : u.magic = s.magic :=
        readBits_along (R := SameMagic) hs (by decide) e
      split at h
      · next u e => cases h; exact (raiseAs_magic _ _ _ _ u).trans (hr e)
      · next v u e => exact (exec_magic h).trans (hr e)
    · cases h

theorem step_magic {s t : State} (h : step s = .next t) : t.magic = s.magic := by
  rw [step, nextEvent] at h
  split at h
  · split at h
    · exact engineStep_magic h
    · cases h; rfl
  · next m rest _ =>
    split at h
    · exact engineStep_magic h
    · exact hostMove_magic (s := { s with script := rest }) h

theorem register_magic (s : State) : s.register 0x010 = some s.magic := rfl

/-- Settles O16: a step is a host move or the engine going on, and both change the state through operations that leave
MAGIC alone. -/
theorem magicIsAConstantOfTheImplementation : Obligations.MagicIsAConstantOfTheImplementation := by
  refine ⟨fun s t h => ?_, fun i s t h => exec_magic h⟩
  have hm : t.magic = s.magic := step_magic h
  exact ⟨hm, by rw [register_magic, hm]⟩

/-! ### Two fields packed into a word: one from bit 0 up, one from bit k up -/

theorem extract_low_field {m n k : Nat} (a : BitVec m) (b : BitVec n) (hm : m ≤ k) (hk : k ≤ 32) :
    (a.setWidth 32 ||| (b.setWidth 32 <<< k)).extractLsb' 0 m = a := by
  ext i hi
  have h : i < k ∧ i < 32 := by omega
  simp [hi, h]

theorem extract_high_field {m n k : Nat} (a : BitVec m) (b : BitVec n) (hm : m ≤ k) (hk : k + n ≤ 32) :
    (a.setWidth 32 ||| (b.setWidth 32 <<< k)).extractLsb' k n = b := by
  ext i hi
  have h : k + i < 32 ∧ i < 32 := by omega
  have ha : a.getLsbD (k + i) = false := BitVec.getLsbD_of_ge _ _ (by omega)
  simp [hi, h, ha]

theorem extract_unused_bits {m n k start len : Nat} (a : BitVec m) (b : BitVec n) (hm : m ≤ start)
    (hk : start + len ≤ k ∨ k + n ≤ start) :
    (a.setWidth 32 ||| (b.setWidth 32 <<< k)).extractLsb' start len = 0 := by
  ext i hi
  have ha : a.getLsbD (start + i) = false := BitVec.getLsbD_of_ge _ _ (by omega)
  have hb : k ≤ start + i → b.getLsbD (start + i - k) = false := fun _ => BitVec.getLsbD_of_ge _ _ (by omega)
  simpa [ha] using fun _ h _ => hb h

/-! ### ERRINFO and the node words -/

theorem errInfo_fields (s : State) :
    s.errInfo.extractLsb' 0 8 = s.subcause ∧ s.errInfo.extractLsb' 8 8 = s.failOp ∧
      s.errInfo.extractLsb' 16 16 = 0 :=
  ⟨extract_low_field _ _ (by omega) (by omega), extract_high_field _ _ (by omega) (by omega),
    extract_unused_bits _ _ (by omega) (by omega)⟩

/-- The error registers are 0 while ERR = 0 (10_state.md R37, R38). -/
theorem errInfo_errData_eq_zero {s : State} (hf : s.FlagsOk) (he : s.err = false) :
    s.errInfo = 0 ∧ s.errData = 0 := by
  obtain ⟨-, hsub, hop, hdata⟩ := hf.noError he
  exact ⟨by simp [State.errInfo, hsub, hop], hdata⟩

/-- Word 0 of a leaf is its symbol below a single bit 31. -/
theorem word0_leaf {n : Node} (h : n.leaf = true) :
    n.word0 = n.sym.setWidth 32 ||| ((1#1).setWidth 32 <<< 31) := by
  rw [Node.word0, if_pos h, BitVec.or_comm]
  rfl

theorem word0_parent {n : Node} (h : n.leaf = false) :
    n.word0 = n.left.setWidth 32 ||| (n.right.setWidth 32 <<< 16) := by
  rw [Node.word0, h]
  rfl

theorem word0_leaf_fields {n : Node} (h : n.leaf = true) :
    n.word0.getLsbD 31 = true ∧ n.word0.extractLsb' 9 22 = 0 ∧ n.word0.extractLsb' 0 9 = n.sym := by
  rw [word0_leaf h]
  exact ⟨by simp, extract_unused_bits _ _ (by omega) (by omega), extract_low_field _ _ (by omega) (by omega)⟩

theorem word0_parent_fields {n : Node} (h : n.leaf = false) :
    n.word0.extractLsb' 0 10 = n.left ∧ n.word0.extractLsb' 10 6 = 0 ∧ n.word0.extractLsb' 16 10 = n.right ∧
      n.word0.extractLsb' 26 6 = 0 := by
  rw [word0_parent h]
  exact ⟨extract_low_field _ _ (by omega) (by omega), extract_unused_bits _ _ (by omega) (by omega),
    extract_high_field _ _ (by omega) (by omega), extract_unused_bits _ _ (by omega) (by omega)⟩

/-! ### The bits of a code, 32 to a word -/

/-- The bit of weight 2 ^ (|b| - 1 - i) of val(b) is the i-th bit of b. -/
theorem testBit_val {b : Bits} {i : Nat} (h : i < b.length) : (val b).testBit (b.length - 1 - i) = b.getD i false := by
  have hb := getElem?_bin b.length (val b) i h
  rw [bin_val] at hb
  simp [hb]

theorem getD_append_replicate_false (b : Bits) (n i : Nat) :
    (b ++ List.replicate n false).getD i false = b.getD i false := by
  rcases Nat.lt_or_ge i b.length with h | h
  · exact List.getD_append _ _ _ _ h
  · rw [List.getD_append_right _ _ _ _ h, List.getD_eq_default _ _ h, List.getD_eq_getElem?_getD,
      List.getElem?_getD_replicate_default_eq]

/-- A CODE bits word shows its string from bit 31 down and 0 after its end (10_state.md R42). -/
theorem getLsbD_leftWord (b : Bits) {j : Nat} (hj : j < 32) : (leftWord b).getLsbD (31 - j) = b.getD j false := by
  have hl : (b.take 32 ++ List.replicate (32 - b.length) false).length = 32 := by simp; omega
  have hv := testBit_val (b := b.take 32 ++ List.replicate (32 - b.length) false) (i := j) (by omega)
  rw [hl, getD_append_replicate_false] at hv
  rw [leftWord, BitVec.getLsbD_ofNat, hv, decide_eq_true (by omega), Bool.true_and]
  simp [hj]

theorem getD_drop_take (b : Bits) (l m j : Nat) :
    ((b.take l).drop m).getD j false = (decide (m + j < l) && b.getD (m + j) false) := by
  by_cases h : m + j < l <;> simp [h]

/-! ### The registers at their offsets -/

theorem register_freqWindow (s : State) (i : Fin 257) :
    s.register (0x0400 + 4 * i.val) = onlyWhile s.freqValid (some (s.freqAt i)) := by
  have he : (0x0400 + 4 * i.val - 0x0400) / 4 = i.val := by omega
  simp (disch := omega) only [State.register, if_neg, if_pos, he]
  simp [State.freqAt]

theorem register_lenWindow (s : State) (i : Fin 257) :
    s.register (0x1000 + 4 * i.val) = onlyWhile s.codesValid (some ((s.codeAt i).len.setWidth 32)) := by
  have he : (0x1000 + 4 * i.val - 0x1000) / 4 = i.val := by omega
  simp (disch := omega) only [State.register, if_neg, if_pos, he]
  simp [State.codeAt]

theorem register_bitsWindow (s : State) (i : Fin 257) {k : Nat} (hk : k < 8) :
    s.register (0x2000 + 32 * i.val + 4 * k) = onlyWhile s.codesValid
      (some (leftWord (((s.codeAt i).bits.take (s.codeAt i).len.toNat).drop (32 * k)))) := by
  have he : (0x2000 + 32 * i.val + 4 * k - 0x2000) / 32 = i.val := by omega
  have hw : (0x2000 + 32 * i.val + 4 * k - 0x2000) % 32 / 4 = k := by omega
  simp (disch := omega) only [State.register, if_neg, if_pos, he, hw]
  simp [State.codeAt]

/-- Byte b of entry n shows word 0 or word 1 of the node, as b is below 4 or not. -/
theorem register_nodeWindow (s : State) {n b : Nat} (hn : n < 513) (hb : b < 8) :
    s.register (0x8000 + b + 8 * n) = onlyWhile (s.treeValid && decide (n < s.ncount.toNat))
      (some (if b < 4 then s.nodes[n].word0 else s.nodes[n].weight)) := by
  have he : (0x8000 + b + 8 * n - 0x8000) / 8 = n := by omega
  have hw : (0x8000 + b + 8 * n - 0x8000) % 8 = b := by omega
  simp (disch := omega) only [State.register, if_neg, if_pos, he, hw]
  simp [hn]

theorem register_nodeWindow_word0 (s : State) {n : Nat} (hn : n < 513) : s.register (0x8000 + 8 * n) =
    if s.treeValid = true ∧ n < s.ncount.toNat then some s.nodes[n].word0 else none := by
  simpa [onlyWhile] using register_nodeWindow s hn (b := 0) (by omega)

theorem register_nodeWindow_weight (s : State) {n : Nat} (hn : n < 513) : s.register (0x8004 + 8 * n) =
    if s.treeValid = true ∧ n < s.ncount.toNat then some s.nodes[n].weight else none := by
  simpa [onlyWhile] using register_nodeWindow s hn (b := 4) (by omega)

theorem register_unlisted (s : State) {k : Nat} (hlo : 0x020 ≤ k) (hhi : k < 0x400) : s.register k = none := by
  simp (disch := omega) only [State.register, if_neg]

/-- Settles O14: each listed offset is a branch of the register map, and ERRINFO packs its two fields. -/
theorem controlRegistersAreMappedAsListed : Obligations.ControlRegistersAreMappedAsListed := by
  refine ⟨fun s => ?_, rfl, rfl, rfl⟩
  obtain ⟨hsub, hop, hrest⟩ := errInfo_fields s
  exact ⟨rfl, rfl, ⟨s.errInfo, rfl, hsub, hop, hrest, fun hf he => (errInfo_errData_eq_zero hf he).1⟩, rfl,
    fun hf he => (errInfo_errData_eq_zero hf he).2, register_magic s, rfl, rfl, rfl, fun _ => register_unlisted s⟩

/-- Settles O15: the offset of an entry determines the entry and the word in it, and the words of CODE and NODE are read
field by field. -/
theorem readoutWindowsShowTheTables : Obligations.ReadoutWindowsShowTheTables := by
  intro s
  refine ⟨register_freqWindow s, register_lenWindow s, fun i k hk => ?_, fun n hn => ?_⟩
  · rw [register_bitsWindow s i hk]
    refine ⟨fun hv => by rw [hv]; rfl, fun hv => ⟨_, by rw [hv]; rfl, fun j hj => ?_⟩⟩
    exact (getLsbD_leftWord _ hj).trans (getD_drop_take _ _ _ _)
  · rw [register_nodeWindow_word0 s hn, register_nodeWindow_weight s hn]
    refine ⟨fun h => ⟨s.nodes[n], s.nodes[n].word0, Vector.getElem?_eq_getElem hn, if_pos h, if_pos h,
        word0_leaf_fields, word0_parent_fields⟩,
      fun h => ⟨if_neg h, if_neg h⟩⟩

end Sys2Proof.Machine
end

section
/-! PROOFS. The stream ports: reads and writes, bytes on both ports, REWIND and CLOSE (20_memory.md R62 to R67,
40_count_and_build.md R111, 43_encoder.md R161). -/

namespace Sys2Proof.Machine

/-! ### Reads and writes (20_memory.md R62, R63) -/

/-- Settles O1: a write appends bin_n of the number, which depends on the n low-order bits alone. -/
theorem writeBitsAppendsLowBitsHighestFirst : Obligations.WriteBitsAppendsLowBitsHighestFirst := by
  intro n v b s _ _
  rw [bin_mod]
  exact ⟨rfl, length_bin n v, getElem?_bin n v, rfl, takeOut_outBits s⟩

/-- Settles O2: the unread bits are too few, or the next n of them are the bits of a number below 2^n. -/
theorem readBitsGivesNextBitsOrEndOfStream : Obligations.ReadBitsGivesNextBitsOrEndOfStream := by
  intro n s hn
  have hpos : 0 < n := by
    simp only [List.mem_cons, List.not_mem_nil, or_false] at hn
    omega
  have hlen := length_unread s
  refine ⟨fun h => ?_, fun h => ⟨val (s.unread.take n), val_take_lt n _, bin_val_take (by omega), ?_⟩⟩
  · rw [readBits_none (by omega)]
    rfl
  · rw [readBits_some (by omega) hpos]
    rfl

/-! ### Bytes on both ports (20_memory.md R66) -/

/-- Stream bit 8k + j of a byte sequence is bit 7 - j of byte k. -/
theorem getElem?_bitsOf (bs : List Byte) (k : Nat) {j : Nat} (hj : j < 8) :
    (bitsOf bs)[8 * k + j]? = (bs[k]?).map fun b => b.getLsbD (7 - j) := by
  induction bs generalizing k with
  | nil => simp
  | cons b bs ih =>
    rw [bitsOf_cons]
    cases k with
    | zero =>
      rw [List.getElem?_append_left (by simp; omega), Nat.mul_zero, Nat.zero_add, getElem?_bin _ _ _ hj]
      rfl
    | succ k =>
      have hi : 8 * (k + 1) + j - 8 = 8 * k + j := by omega
      rw [List.getElem?_append_right (by simp; omega), length_bin, hi, ih, List.getElem?_cons_succ]

/-- The bits of a string that fall into its whole bytes are the bits of those bytes. -/
theorem getElem?_bitsOf_wholeBytes {b : Bits} {i : Nat} (h : i < 8 * (b.length / 8)) :
    (bitsOf (wholeBytes b))[i]? = b[i]? := by
  obtain ⟨rest, -, e⟩ := bitsOf_wholeBytes b
  rw [← length_wholeBytes, ← length_bitsOf] at h
  rw [← List.getElem?_append_left (l₂ := rest) h, ← e]

/-- At byte k of a byte sequence on IN, that byte comes next. -/
theorem unread_at_byte {bs : List Byte} {rest : Bits} {k : Nat} {b : Byte} {s : State}
    (hin : s.inBits = bitsOf bs ++ rest) (hpos : s.inPos = 8 * k) (hb : bs[k]? = some b) :
    s.unread = bin 8 b.toNat ++ (bitsOf (bs.drop (k + 1)) ++ rest) := by
  obtain ⟨hk, rfl⟩ := List.getElem?_eq_some_iff.mp hb
  have hsplit : bitsOf bs = bitsOf (bs.take k) ++ (bin 8 bs[k].toNat ++ bitsOf (bs.drop (k + 1))) := by
    rw [← bitsOf_cons, ← bitsOf_append, List.getElem_cons_drop, List.take_append_drop]
  have hlen : (bitsOf (bs.take k)).length = 8 * k := by
    rw [length_bitsOf, List.length_take_of_le hk.le]
  rw [State.unread, hin, hpos, hsplit, List.append_assoc, List.append_assoc, List.drop_left' hlen]

/-- A byte written to an aligned output is its last whole byte. -/
theorem wholeBytes_append_byte {out : Bits} (h : out.length % 8 = 0) (b : Byte) :
    wholeBytes (out ++ bin 8 b.toNat) = wholeBytes out ++ [b] := by
  have e : out ++ bin 8 b.toNat = bitsOf (wholeBytes out ++ [b]) := by
    simp [bitsOf_wholeBytes_aligned h]
  rw [e, wholeBytes_bitsOf]

/-- Settles O3: on IN and on OUT alike byte k is bin_8 of its value, at bits 8k to 8k + 7. -/
theorem bytesPackHighestBitFirstOnBothPorts : Obligations.BytesPackHighestBitFirstOnBothPorts := by
  refine ⟨fun bs k j hj => getElem?_bitsOf bs k hj, fun b k j hk hj => ?_, fun bs rest k b s hin hpos hb => ?_,
    fun b s h => wholeBytes_append_byte h b⟩
  · rw [← getElem?_bitsOf _ _ hj, getElem?_bitsOf_wholeBytes (by omega)]
  · rw [(readBits_bin (unread_at_byte hin hpos hb) (by omega) b.isLt).1]

/-! ### REWIND and CLOSE (20_memory.md R64, R65) -/

theorem exec_rewind_ready {s : State} (h : s.Ready) : exec .rewind s = .next { s with
    curOp := 0x02, inPos := 0, portTrace := { inPos := 0, outLen := s.outBits.length } :: s.portTrace } := by
  refine (runCommand_met (p := rewindPrim) h rfl).trans ?_
  rw [h.1]
  rfl

/-- CLOSE appends the padding of closeOut and changes nothing else but CUROP and the trace. -/
theorem exec_close_ready {s : State} (h : s.Ready) : ∃ trace, exec .close s = .next { s with
    curOp := 0x08
    outBits := s.outBits ++ List.replicate ((8 - s.outBits.length % 8) % 8) false
    portTrace := trace } := by
  refine ⟨(closeOut { s with busy := true, curOp := 0x08 }).portTrace,
    (runCommand_met (p := closePrim) h rfl).trans ?_⟩
  rw [closePrim, finish_next, closeOut_spec, h.1]

theorem length_padded_mod (b : Bits) :
    (b ++ List.replicate ((8 - b.length % 8) % 8) false).length % 8 = 0 := by
  simp only [List.length_append, List.length_replicate]
  omega

theorem padded_of_aligned {b : Bits} (h : b.length % 8 = 0) :
    b ++ List.replicate ((8 - b.length % 8) % 8) false = b := by
  simp [h]

/-- Settles O25: REWIND needs no flag, and its pseudocode is one seek. -/
theorem rewindReturnsToTheStartOfIn : Obligations.RewindReturnsToTheStartOfIn :=
  ⟨rfl, fun _ h => exec_rewind_ready h⟩

/-- Settles O26: the padding is the distance to the next multiple of 8. -/
theorem closePadsOutToWholeBytes : Obligations.ClosePadsOutToWholeBytes := by
  refine ⟨rfl, fun s h => ?_⟩
  obtain ⟨trace, e⟩ := exec_close_ready h
  exact ⟨_, e, length_padded_mod s.outBits, by omega, padded_of_aligned, rfl⟩

/-- Settles O4: OUT is its whole bytes and a tail of fewer than 8 bits, and CLOSE leaves no tail. -/
theorem hostSeesWholeBytesAndAllAfterClose : Obligations.HostSeesWholeBytesAndAllAfterClose := by
  refine fun s => ⟨length_wholeBytes s.outBits, bitsOf_wholeBytes s.outBits, fun rest hb => step_move hb, fun h => ?_⟩
  obtain ⟨trace, e⟩ := exec_close_ready h
  exact ⟨_, e, List.prefix_append _ _, bitsOf_wholeBytes_aligned (length_padded_mod s.outBits)⟩

end Sys2Proof.Machine
end

section
/-! PROOFS. The encoding: reserved command words, the size of the tree header, and the stream COMPRESS writes
(30_encoding.md R83, R87, R90, R93). -/

namespace Sys2Proof

/-! ### The fields of a command word (30_encoding.md R80) -/

theorem toNat_opField (w : Word) : (opField w).toNat = w.toNat % 256 := BitVec.toNat_setWidth 8 w

theorem rsvdField_eq_zero_iff (w : Word) : rsvdField w = 0 ↔ w.toNat < 256 := by
  have := w.isLt
  rw [← BitVec.toNat_inj, rsvdField, BitVec.extractLsb'_toNat, Nat.shiftRight_eq_div_pow]
  simp
  omega

theorem opcodeMap_lookup_reserved : ∀ b : Byte, b.toNat = 14 ∨ 16 ≤ b.toNat → opcodeMap.lookup b = none := by decide

theorem opcodeMap_lookup_clear : ∀ b : Byte, opcodeMap.lookup b = some .clear → b = 0x0F := by decide

/-! ### Reserved words (30_encoding.md R83) -/

theorem decodeCommand_wide {w : Word} (h : 256 ≤ w.toNat) : decodeCommand w = .reserved w := by
  have hr : rsvdField w ≠ 0 := fun e => absurd ((rsvdField_eq_zero_iff w).mp e) (by omega)
  rw [decodeCommand, if_pos hr]

theorem decodeCommand_narrow {w : Word} (h : w.toNat < 256) :
    decodeCommand w = (opcodeMap.lookup (opField w)).getD (.reserved w) := by
  rw [decodeCommand, if_neg (not_not_intro ((rsvdField_eq_zero_iff w).mpr h))]

theorem decodeCommand_reservedOpcode {w : Word} (h : w.toNat = 14 ∨ 16 ≤ w.toNat ∧ w.toNat < 256) :
    decodeCommand w = .reserved w := by
  have hop := toNat_opField w
  rw [decodeCommand_narrow (by omega), opcodeMap_lookup_reserved _ (by omega), Option.getD_none]

/-- CLEAR has one word: the reserved field must be 0 and the opcode 0x0F. -/
theorem eq_clearWord_of_decodeCommand {w : Word} (h : decodeCommand w = .clear) : w = 0x0000000F := by
  rcases Nat.lt_or_ge w.toNat 256 with hw | hw
  · rw [decodeCommand_narrow hw] at h
    cases hl : opcodeMap.lookup (opField w) with
    | none => rw [hl] at h; cases h
    | some i =>
      rw [hl, Option.getD_some] at h
      have hop := toNat_opField w
      rw [opcodeMap_lookup_clear _ (hl.trans (congrArg some h)), Nat.mod_eq_of_lt hw] at hop
      exact BitVec.eq_of_toNat_eq hop.symm
  · rw [decodeCommand_wide hw] at h
    cases h

namespace Machine

theorem exec_reserved_ready {w : Word} {s : State} (h : s.Ready) : exec (.reserved w) s = .next (illegalWord w s) := by
  obtain ⟨hb, he⟩ := h
  simp [exec, execReserved, hb, he]

theorem illegalWord_entry (w : Word) (s : State) :
    ErrorEntry 6 (if w.toNat < 256 then 1 else 2) (w.setWidth 8) w s (illegalWord w s) := by
  by_cases h : w.toNat < 256
  · rw [illegalWord, if_neg (not_not_intro ((rsvdField_eq_zero_iff w).mpr h)), if_pos h]
    exact raiseAs_entry (opField w) .illegalCommand 1 w s
  · rw [illegalWord, if_pos (mt (rsvdField_eq_zero_iff w).mp h), if_neg h]
    exact raiseAs_entry (opField w) .illegalCommand 2 w s

/-- While ERR = 1 every command but CLEAR is ignored (30_encoding.md R82, 60_exceptions.md R209). -/
theorem exec_ignored {i : Instr} {s : State} (hi : i.source = .cmd) (hc : i ≠ .clear) (hb : s.busy = false)
    (he : s.err = true) : exec i s = .next s := by
  cases i with
  | clear => exact absurd rfl hc
  | reserved w => simp [exec, execReserved, hb, he]
  | hdrInternal | hdrLeaf _ | magicField _ => cases hi
  | nop | count | rewind | build | gencodes | wrmagic | wrtree | encode | close | rdmagic | rdtree | decode
  | compress | decompress => exact runCommand_ignored hb he

theorem exec_decodeCommand_ignored {w : Word} {s : State} (hw : w ≠ 0x0000000F) (hb : s.busy = false)
    (he : s.err = true) : exec (decodeCommand w) s = .next s :=
  exec_ignored (source_decodeCommand w) (fun h => hw (eq_clearWord_of_decodeCommand h)) hb he

/-- Settles O8: the reserved field tells the two subcauses apart, and CLEAR alone acts while ERR = 1. -/
theorem reservedWordsRaiseIllegalCommand : Obligations.ReservedWordsRaiseIllegalCommand := by
  intro w s hb
  refine ⟨fun hw => ⟨decodeCommand_reservedOpcode hw, fun he => ⟨_, exec_reserved_ready ⟨hb, he⟩, ?_⟩⟩,
    fun hw => ⟨decodeCommand_wide hw, fun he => ⟨_, exec_reserved_ready ⟨hb, he⟩, ?_⟩⟩,
    fun he hw => exec_decodeCommand_ignored hw hb he⟩
  · have hn : w.toNat < 256 := by omega
    simpa [hn] using illegalWord_entry w s
  · have hn : ¬ w.toNat < 256 := by omega
    simpa [hn] using illegalWord_entry w s

/-! ### The tree header (30_encoding.md R90) -/

/-- A store of 513 nodes has room for a tree of 257 leaves. -/
theorem TreeOk.length_symbols_le {s : State} (h : s.TreeOk) {t : HTree} (ht : s.holds t s.root = true) :
    t.symbols.length ≤ 257 := by
  have hsize := TreeOk.size h ht
  have hcap := ncount_le h
  have hleaves := t.size_add_one
  omega

theorem exec_wrtree_ready {s : State} {tree : HTree} (h : s.Ready) (hv : s.treeValid = true)
    (ht : s.holds tree s.root = true) (hh : tree.height ≤ 256) : ∃ trace, exec .wrtree s = .next { s with
      curOp := 0x06, outBits := s.outBits ++ tree.header, portTrace := trace } := by
  have hm : firstUnmet wrtreePrim.needs s = none :=
    firstUnmet_none fun p hp => by rw [List.mem_singleton.mp hp]; exact hv
  obtain ⟨trace, e⟩ := wrtreePrim_spec (s := { s with busy := true, curOp := 0x06 })
    ((holds_congr (by rfl) tree s.root).trans ht) hh
  refine ⟨trace, (runCommand_met h hm).trans ?_⟩
  rw [wrtreePrim] at e ⊢
  rw [e, finish_next, h.1]

/-- Settles O36: R26 bounds the leaves by 257, and the header of L leaves has 11L - 1 bits. -/
theorem wrtreeWritesTheTreeHeader : Obligations.WrtreeWritesTheTreeHeader := by
  intro s h hinv hv
  have hok := hinv.tree hv
  obtain ⟨tree, ht, -, -⟩ := TreeOk.tree hok
  obtain ⟨trace, e⟩ := exec_wrtree_ready h hv ht (TreeOk.height hok ht)
  have hlen := tree.length_header
  have hpos := tree.length_symbols_pos
  have hmax := TreeOk.length_symbols_le hok ht
  exact ⟨_, tree, e, ht, by omega, hmax, by omega, rfl⟩

/-! ### The compressed stream (30_encoding.md R87, R93) -/

/-- What COMPRESS leaves while it runs is, once BUSY is 0 again, what it leaves of the state it was started in. -/
theorem Compressed.finished {counted bs : List Byte} {s t : State} {tree : HTree} (hb : s.busy = false)
    (h : Compressed counted bs { s with busy := true, curOp := 0x0C } t tree) :
    Compressed counted bs s { t with busy := false } tree where
  holds := (holds_congr (by rfl) tree t.root).trans h.holds
  treeOk := TreeOk.congr h.treeOk rfl rfl rfl
  built := BuiltOk.congr h.built rfl rfl rfl
  weights := WeightsOk.congr h.weights rfl rfl rfl
  codes := h.codes
  freq := h.freq
  total := h.total
  out := h.out
  aligned := h.aligned
  frame := by
    rw [hb]
    exact congrArg (fun u : State => { u with busy := false }) h.frame

/-- COMPRESS as a command completes when every byte of IN from its start was counted. -/
theorem exec_compress_ready {s : State} {counted bs : List Byte} {rest tail : Bits} (h : s.Ready) (hw : s.WidthOk)
    (hu : s.unread = bitsOf counted ++ rest) (hr : rest.length < 8) (hl : counted.length ≤ 2 ^ s.wCnt - 2)
    (hi : s.inBits = bitsOf bs ++ tail) (ht : tail.length < 8) (hb : ∀ b ∈ bs, b ∈ counted) :
    ∃ t tree, exec .compress s = .next t ∧ Compressed counted bs s t tree := by
  obtain ⟨t, tree, e, C⟩ := compress_spec (s := { s with busy := true, curOp := 0x0C }) h.2 hw hu hr hl hi ht hb
  refine ⟨_, tree, (runCommand_met (p := compressPrim) h rfl).trans ?_, C.finished h.1⟩
  exact congrArg finish e

/-- Padding to whole bytes rounds the number of bytes up (30_encoding.md R93). -/
theorem length_wholeBytes_padded {b pad : Bits} (hp : pad.length < 8) (h : (b ++ pad).length % 8 = 0) :
    (wholeBytes (b ++ pad)).length = (b.length + 7) / 8 := by
  rw [length_wholeBytes]
  rw [List.length_append] at h ⊢
  omega

/-- Settles O51: from INPOS = 0 the bytes counted are the bytes encoded, so COMPRESS completes; the size adds up the
parts. -/
theorem compressWritesMagicHeaderPayloadPadding : Obligations.CompressWritesMagicHeaderPayloadPadding := by
  intro s bs rest h hinv hpos hin hrest hlen hout
  have hu : s.unread = bitsOf bs ++ rest := by rw [State.unread, hpos, hin, List.drop_zero]
  obtain ⟨t, tree, e, C⟩ := exec_compress_ready h hinv.width hu hrest hlen hin hrest fun _ hb => hb
  obtain ⟨n, hn, hstream⟩ := C.out
  rw [hout, List.nil_append] at hstream
  have hpad : (List.replicate n false).length < 8 := by rwa [List.length_replicate]
  refine ⟨t, tree, List.replicate n false, e, C.holds, hstream, by omega, fun _ => List.eq_of_mem_replicate,
    C.aligned, ?_⟩
  have halign := C.aligned
  have hheader : tree.header.length = 11 * tree.symbols.length - 1 := by rw [← tree.length_header, Nat.add_sub_cancel]
  rw [hstream] at halign ⊢
  rw [length_wholeBytes_padded hpad halign, List.length_append, List.length_append, length_bin, hheader]

end Machine

end Sys2Proof
end

section
/-! PROOFS. COUNT and BUILD: the tally and its overflow, the leaves, the merges and the single-leaf tree
(40_count_and_build.md R110, R114, R115, R116). -/

namespace Sys2Proof.Machine

/-! ### COUNT (40_count_and_build.md R110) -/

theorem tally_byteIndex (bs : List Byte) (b : Byte) : tally bs (byteIndex b.toNat) = bs.count b := by
  rw [tally, if_neg (byteIndex_ne_eof b.toNat), countP_byteIndex]

theorem tally_eof (bs : List Byte) : tally bs eofIndex = 1 := if_pos rfl

/-- COUNT as a command, within its capacity. -/
theorem exec_count_ready {s : State} {bs : List Byte} {rest : Bits} (h : s.Ready) (hw : s.WidthOk)
    (hu : s.unread = bitsOf bs ++ rest) (hr : rest.length < 8) (hl : bs.length ≤ 2 ^ s.wCnt - 2) :
    ∃ t, exec .count s = .next t ∧ t.total.toNat = bs.length ∧ (∀ i, (t.freqAt i).toNat = tally bs i) ∧
      t = { s with
        curOp := 0x01, freq := t.freq, total := t.total, freqValid := true, treeValid := false, treeSrc := false
        codesValid := false, inPos := s.inBits.length, portTrace := t.portTrace } := by
  obtain ⟨t, e, htotal, hfreq, hframe⟩ :=
    countPrim_spec (s := { s with busy := true, curOp := 0x01 }) hw h.2 hu hr hl
  refine ⟨{ t with busy := false }, (runCommand_met (p := countPrim) h rfl).trans (congrArg finish e), htotal, hfreq,
    ?_⟩
  rw [h.1]
  exact congrArg (fun u : State => { u with busy := false }) hframe

/-- An error has already ended its command. -/
theorem ErrorEntry.finish_eq {code : BitVec 4} {sub op : BitVec 8} {data : Word} {s t : State}
    (h : ErrorEntry code sub op data s t) : finish (.next t) = .next t := by
  have e : t = _ := h
  exact congrArg Host.Outcome.next ((congrArg (fun u : State => { u with busy := false }) e).trans e.symm)

/-- COUNT as a command, beyond its capacity. -/
theorem exec_count_full {s : State} {bs : List Byte} {rest : Bits} (h : s.Ready) (hw : s.WidthOk)
    (hu : s.unread = bitsOf bs ++ rest) (hl : 2 ^ s.wCnt - 2 < bs.length) :
    ∃ t, exec .count s = .next t ∧ ErrorEntry 5 1 0x01 0 { s with
      curOp := 0x01, freq := t.freq, total := t.total
      inPos := s.inPos + 8 * (2 ^ s.wCnt - 1), portTrace := t.portTrace } t := by
  obtain ⟨t, e, herror⟩ := countPrim_full (s := { s with busy := true, curOp := 0x01 }) hw hu hl
  refine ⟨t, (runCommand_met (p := countPrim) h rfl).trans ?_, herror⟩
  exact (congrArg finish e).trans (ErrorEntry.finish_eq herror)

/-- Settles O28: within the capacity the counters hold the tally of the bytes, beyond it the loop raises the error. -/
theorem countTalliesEveryByteOrOverflows : Obligations.CountTalliesEveryByteOrOverflows := by
  refine ⟨rfl, fun s bs rest h hw hu hr => ⟨fun hl => ?_, exec_count_full h hw hu⟩⟩
  obtain ⟨t, e, htotal, hfreq, hframe⟩ := exec_count_ready h hw hu hr hl
  refine ⟨t, e, fun b => ?_, ?_, htotal, hframe⟩
  · rw [hfreq, tally_byteIndex]
  · exact BitVec.eq_of_toNat_eq ((hfreq eofIndex).trans (tally_eof bs))

/-! ### BUILD as a command (40_count_and_build.md R113) -/

/-- The counts of a completed COUNT sum to less than 2^32 (40_count_and_build.md R112). -/
theorem FreqOk.sum_lt {s : State} (h : s.FreqOk) (hw : s.WidthOk) :
    ((List.finRange 257).map fun i => (s.freqAt i).toNat).sum < 2 ^ 32 := by
  obtain ⟨-, hsum, hcap⟩ := h
  have hpow := Nat.pow_le_pow_right (n := 2) (by omega) hw.2
  omega

/-- What BUILD's pseudocode makes of a count is, once BUSY is 0 again, what it makes of the state it was started in. -/
theorem Built.finished {s t : State} (hb : s.busy = false) (h : Built { s with busy := true, curOp := 0x03 } t) :
    Built { s with curOp := 0x03 } { t with busy := false } where
  tree := TreeOk.congr h.tree rfl rfl rfl
  built := BuiltOk.congr h.built rfl rfl rfl
  weights := WeightsOk.congr h.weights rfl rfl rfl
  root := h.root
  total := h.total
  frame := by
    rw [hb]
    exact congrArg (fun u : State => { u with busy := false }) h.frame

/-- Every entry of the node store in use before is in use after, unchanged. -/
def KeepsNodes (s t : State) : Prop :=
  s.ncount.toNat ≤ t.ncount.toNat ∧ ∀ x < s.ncount.toNat, t.nodes[x]? = s.nodes[x]?

theorem KeepsNodes.along : Along KeepsNodes where
  refl _ := ⟨le_rfl, fun _ _ => rfl⟩
  trans hab hbc := ⟨hab.1.trans hbc.1, fun x hx => (hbc.2 x (hx.trans_le hab.1)).trans (hab.2 x hx)⟩

theorem KeepsNodes.across_newNode : AcrossNewNode KeepsNodes := fun n s i t h => by
  refine ⟨by rw [newNode_ncount h]; omega, fun x hx => ?_⟩
  rw [newNode_nodes h, if_neg (by omega)]

theorem mergeLoop_keepsNodes {k : Nat} {s t : State} (h : mergeLoop k s = .next t) : KeepsNodes s t :=
  mergeLoop_along KeepsNodes.along KeepsNodes.across_newNode (fun s _ => KeepsNodes.along.refl s)
    (fun s _ => KeepsNodes.along.refl s) k h

/-- The leaves are made first, in symbol order, and the merges keep them. -/
theorem buildPrim_leaf {s t : State} (h : buildPrim.body s = .next t) {x : Nat} {i : Fin 257}
    (hx : s.present[x]? = some i) : t.nodes[x]? = some (leafNode (BitVec.ofNat 9 i.val) (s.freqAt i)) := by
  obtain ⟨u, hleaves, hmerges⟩ := andThen_eq_next h
  have hlen : (counted s.freq.toList.zipIdx).length = s.present.length := by rw [counted_freq, List.length_map]
  have hmax := length_present_le s
  have hsym : ∀ p ∈ s.freq.toList.zipIdx, p.2 ≤ 256 := by
    rw [zipIdx_freq]
    intro p hp
    obtain ⟨j, -, rfl⟩ := List.mem_map.mp hp
    exact Nat.le_of_lt_succ j.isLt
  obtain ⟨u', hleaves', L⟩ := buildLeaves_spec s.freq.toList.zipIdx
    (s := { s with treeValid := false, codesValid := false, ncount := 0, pq := [] }) hsym (Forest.empty rfl)
    (show 0 + _ ≤ 513 by omega)
  obtain rfl : u = u' := Host.Outcome.next.inj (hleaves.symm.trans hleaves')
  have hmade : u.nodes[0 + x]? = some (leafNode (BitVec.ofNat 9 i.val) (s.freqAt i)) :=
    L.made x (s.freqAt i, i.val) (by rw [counted_freq, List.getElem?_map, hx]; rfl)
  have hcount : u.ncount.toNat = 0 + (counted s.freq.toList.zipIdx).length := L.ncount
  obtain ⟨hlt, -⟩ := List.getElem?_eq_some_iff.mp hx
  rw [(mergeLoop_keepsNodes hmerges).2 x (by omega), ← hmade, Nat.zero_add]

theorem exec_build_eq {s : State} (h : s.Ready) (hv : s.freqValid = true) :
    exec .build s = finish (buildPrim.body { s with busy := true, curOp := 0x03 }) :=
  runCommand_met h (firstUnmet_none fun p hp => by rw [List.mem_singleton.mp hp]; exact hv)

/-- BUILD as a command: it completes, and makes of the counts what its pseudocode makes of them. -/
theorem exec_build_ready {s : State} (h : s.Ready) (hinv : s.Inv) (hv : s.freqValid = true) :
    ∃ t, exec .build s = .next t ∧ Built { s with curOp := 0x03 } t := by
  have hfreq := hinv.freq hv
  have heof : s.freqAt eofIndex ≠ 0 := by rw [hfreq.1]; decide
  obtain ⟨t, e, B⟩ := buildPrim_spec (s := { s with busy := true, curOp := 0x03 }) heof
    (FreqOk.sum_lt hfreq hinv.width)
  exact ⟨{ t with busy := false }, (exec_build_eq h hv).trans (congrArg finish e), B.finished h.1⟩

theorem built_of_exec {s t : State} (h : s.Ready) (hinv : s.Inv) (hv : s.freqValid = true)
    (e : exec .build s = .next t) : Built { s with curOp := 0x03 } t := by
  obtain ⟨t', e', B⟩ := exec_build_ready h hinv hv
  obtain rfl : t = t' := Host.Outcome.next.inj (e.symm.trans e')
  exact B

/-- The leaves BUILD makes as a command. -/
theorem exec_build_leaf {s t : State} (h : s.Ready) (hv : s.freqValid = true) (e : exec .build s = .next t) {x : Nat}
    {i : Fin 257} (hx : s.present[x]? = some i) :
    t.nodes[x]? = some (leafNode (BitVec.ofNat 9 i.val) (s.freqAt i)) := by
  obtain ⟨m, hm, rfl⟩ := finish_eq_next ((exec_build_eq h hv).symm.trans e)
  exact buildPrim_leaf hm hx

/-- NCOUNT = 2L - 1 (40_count_and_build.md R114). -/
theorem Built.ncount {s t : State} (B : Built s t) : t.ncount.toNat + 1 = 2 * s.present.length := by
  rw [← present_congr (s := s) (t := t) (by rw [B.frame])]
  exact B.built.1

/-- An entry in use is internal exactly when it comes after the leaves. -/
theorem Built.leaf_eq_false_iff {s t : State} (B : Built s t) {x : Nat} {d : Node} (hx : x < t.ncount.toNat)
    (hd : t.nodes[x]? = some d) : d.leaf = false ↔ s.present.length ≤ x := by
  have hleaf := B.built.2 x hx
  rw [present_congr (s := s) (t := t) (by rw [B.frame]), hd] at hleaf
  rw [← List.getElem?_eq_none_iff]
  cases hl : d.leaf <;> cases hp : s.present[x]? <;> simp [hl, hp] at hleaf ⊢

/-- The children of an internal entry of a store that meets R26 lie below it. -/
theorem TreeOk.children_lt {s : State} (h : s.TreeOk) {x : Nat} {d : Node} (hx : x < s.ncount.toNat)
    (hd : s.nodes[x]? = some d) (hl : d.leaf = false) : d.left.toNat < x ∧ d.right.toNat < x := by
  have hok := h.2.1 x hx
  rw [State.nodeOk, hd] at hok
  simp [hl] at hok
  exact ⟨hok.1.2, hok.2⟩

theorem eofIndex_mem_present {s : State} (h : s.FreqOk) : eofIndex ∈ s.present := by
  rw [State.present, List.mem_filter, h.1]
  exact ⟨List.mem_finRange _, rfl⟩

/-- Settles O29: BUILD completes with the leaves first, the internal nodes after them, and the root last. -/
theorem buildMakesOneLeafPerCountedSymbol : Obligations.BuildMakesOneLeafPerCountedSymbol := by
  intro s h hinv hv
  obtain ⟨t, e, B⟩ := exec_build_ready h hinv hv
  have hcount : t.ncount.toNat + 1 = 2 * s.present.length := B.ncount
  have hroot := B.root
  have hpos := List.length_pos_of_mem (eofIndex_mem_present (hinv.freq hv))
  refine ⟨t, e, hpos, length_present_le s, by omega, by omega, fun _ _ => exec_build_leaf h hv e,
    fun x hL hx => ?_, B.tree, ?_⟩
  · have hx513 : x < 513 := hx.trans_le (ncount_le B.tree)
    have hd := Vector.getElem?_eq_getElem (xs := t.nodes) hx513
    have hl := (B.leaf_eq_false_iff hx hd).mpr hL
    exact ⟨_, hd, hl, TreeOk.children_lt B.tree hx hd hl⟩
  · rw [hinv.hidden.1]
    exact B.frame

/-! ### The order of the merges (40_count_and_build.md R115) -/

theorem before_ne {s : State} {a b : NodeIx} (h : s.before a b = true) : a ≠ b := by
  rintro rfl
  rw [before_iff] at h
  omega

theorem before_trans {s : State} {a b c : NodeIx} (hab : s.before a b = true) (hbc : s.before b c = true) :
    s.before a c = true := by
  rw [before_iff] at hab hbc ⊢
  omega

/-- Settles O30: the built weights say that each internal node merges the two first of the nodes that waited. -/
theorem buildMergesTheTwoFirstNodesEachTime : Obligations.BuildMergesTheTwoFirstNodesEachTime := by
  intro s t h hinv hv e x d hx hd hl
  have B := built_of_exec h hinv hv e
  obtain ⟨hleft, hright, hlr, hafter, hsum⟩ := (B.weights x d hx hd).2 hl
  refine ⟨hleft, hright, before_ne hlr, fun j hj hjl => ?_, fun j hj hjl hjr => ?_, hsum⟩
  · rw [← before_iff]
    rcases hafter j hj with rfl | rfl | hrj
    · exact absurd rfl hjl
    · exact hlr
    · exact before_trans hlr hrj
  · rw [← before_iff]
    exact ((hafter j hj).resolve_left hjl).resolve_left hjr

/-! ### The single leaf (40_count_and_build.md R116) -/

/-- Symbols without a count add nothing to a sum of counts. -/
theorem sum_freqAt_filter (s : State) (l : List (Fin 257)) :
    ((l.filter fun i => decide (s.freqAt i ≠ 0)).map fun i => (s.freqAt i).toNat).sum =
      (l.map fun i => (s.freqAt i).toNat).sum := by
  induction l with
  | nil => rfl
  | cons i l ih =>
    rw [List.map_cons, List.sum_cons, ← ih]
    by_cases hi : s.freqAt i = 0
    · rw [List.filter_cons_of_neg (by simp [hi]), hi]
      exact (Nat.zero_add _).symm
    · rw [List.filter_cons_of_pos (by exact decide_eq_true hi), List.map_cons, List.sum_cons]

theorem FreqOk.sum_present {s : State} (h : s.FreqOk) :
    (s.present.map fun i => (s.freqAt i).toNat).sum = s.total.toNat + 1 :=
  (sum_freqAt_filter s _).trans h.2.1

/-- Each counted symbol adds at least one to the sum TOTAL + 1. -/
theorem FreqOk.length_present_le_total {s : State} (h : s.FreqOk) : s.present.length ≤ s.total.toNat + 1 := by
  rw [← FreqOk.sum_present h, ← List.length_map (as := s.present) fun i => (s.freqAt i).toNat]
  refine List.length_le_sum_of_one_le _ fun n hn => ?_
  obtain ⟨i, hi, rfl⟩ := List.mem_map.mp hn
  have hne : s.freqAt i ≠ 0 := of_decide_eq_true (List.mem_filter.mp hi).2
  exact Nat.pos_of_ne_zero fun h0 => hne (BitVec.eq_of_toNat_eq h0)

theorem FreqOk.present_eq_of_length {s : State} (h : s.FreqOk) (hl : s.present.length = 1) :
    s.present = [eofIndex] := by
  obtain ⟨i, hi⟩ := List.length_eq_one_iff.mp hl
  have hmem := eofIndex_mem_present h
  rw [hi, List.mem_singleton] at hmem
  rw [hi, hmem]

/-- Symbol 256 is the only counted one exactly when no byte was counted. -/
theorem FreqOk.length_present_eq_one_iff {s : State} (h : s.FreqOk) : s.present.length = 1 ↔ s.total = 0 := by
  constructor
  · intro hl
    have hsum := FreqOk.sum_present h
    rw [FreqOk.present_eq_of_length h hl, List.map_singleton, List.sum_singleton, h.1] at hsum
    exact BitVec.eq_of_toNat_eq (Nat.succ.inj hsum).symm
  · intro h0
    have hle := FreqOk.length_present_le_total h
    rw [h0] at hle
    exact Nat.le_antisymm hle (List.length_pos_of_mem (eofIndex_mem_present h))

/-- Settles O32: TOTAL is 0 exactly when symbol 256 alone has a count, and the tree of L leaves has 2L - 1 nodes. -/
theorem singleLeafTreeIsTheEmptyInput : Obligations.SingleLeafTreeIsTheEmptyInput := by
  intro s t h hinv hv e
  have B := built_of_exec h hinv hv e
  have hfreq := hinv.freq hv
  have hiff := FreqOk.length_present_eq_one_iff hfreq
  have hcount : t.ncount.toNat + 1 = 2 * s.present.length := B.ncount
  have hroot := B.root
  refine ⟨?_, fun h0 => ⟨?_, ?_⟩, fun h0 => ?_⟩
  · have h1 : t.ncount = 1 ↔ t.ncount.toNat = 1 := (BitVec.toNat_inj (y := 1)).symm
    rw [← hiff, h1]
    omega
  · have hl := hiff.mpr h0
    exact BitVec.eq_of_toNat_eq (show t.root.toNat = 0 by omega)
  · have hp := FreqOk.present_eq_of_length hfreq (hiff.mpr h0)
    rw [exec_build_leaf h hv e (x := 0) (i := eofIndex) (by rw [hp]; rfl), hfreq.1]
    rfl
  · have hne := mt hiff.mp h0
    have hpos := List.length_pos_of_mem (eofIndex_mem_present hfreq)
    omega

end Sys2Proof.Machine
end

section
/-! PROOFS. GENCODES as a command, and the properties of the codes of a built tree (41_code_table.md R130, R131). -/

namespace Sys2Proof

/-- A tree of at least two leaves has an internal root, so its codes are its paths (41_code_table.md R132). -/
theorem HTree.codeList_eq_paths {t : HTree} (h : 2 ≤ t.symbols.length) : t.codeList = t.paths := by
  cases t with
  | leaf sym => exact absurd h (by simp [HTree.symbols])
  | node l r => rfl

namespace Machine

/-! ### GENCODES as a command (41_code_table.md R130) -/

/-- With a built tree GENCODES completes, and its table is the one of that tree. -/
theorem exec_gencodes_ready {s : State} {tree : HTree} (h : s.Ready) (hinv : s.Inv) (hv : s.treeValid = true)
    (hsrc : s.treeSrc = false) (ht : s.holds tree s.root = true) :
    ∃ t, exec .gencodes s = .next t ∧ (∀ i, t.codeAt i = codeFor tree i) ∧
      t = { s with curOp := 0x04, codes := t.codes, codesValid := true } := by
  have hm : firstUnmet gencodesPrim.needs s = none := firstUnmet_none fun p hp => by
    simp only [gencodesPrim, List.mem_cons, List.not_mem_nil, or_false] at hp
    rcases hp with rfl | rfl
    · exact hv
    · rw [Precondition.holds, hsrc]
      rfl
  obtain ⟨u, e, hcodes, hframe⟩ := gencodesPrim_spec (s := { s with busy := true, curOp := 0x04 })
    (TreeOk.congr (hinv.tree hv) rfl rfl rfl) (BuiltOk.congr (hinv.built hv hsrc) rfl rfl rfl)
    ((holds_congr (by rfl) tree s.root).trans ht)
  refine ⟨{ u with busy := false }, (runCommand_met (p := gencodesPrim) h hm).trans (congrArg finish e), hcodes, ?_⟩
  rw [hframe, h.1]

/-! ### The entries of the code table (41_code_table.md R131) -/

/-- A symbol with a leaf has its code, whose length is its LEN. -/
theorem codeFor_mem_codeList {t : HTree} (hh : t.height ≤ 256) {i : Fin 257} (hi : BitVec.ofNat 9 i.val ∈ t.symbols) :
    (BitVec.ofNat 9 i.val, (codeFor t i).bits) ∈ t.codeList ∧ (codeFor t i).len.toNat = (codeFor t i).bits.length ∧
      1 ≤ (codeFor t i).len.toNat := by
  rcases codeFor_cases hh i with ⟨hn, _⟩ | ⟨b, hm, rfl, hlen, hpos, _⟩
  · exact absurd hi hn
  · exact ⟨hm, hlen, hlen ▸ hpos⟩

theorem codeFor_len_ne_zero_iff {t : HTree} (hh : t.height ≤ 256) (i : Fin 257) :
    (codeFor t i).len ≠ 0 ↔ BitVec.ofNat 9 i.val ∈ t.symbols := by
  refine ⟨fun hne => ?_, fun hi h0 => ?_⟩
  · by_contra hn
    rcases codeFor_cases hh i with ⟨_, e⟩ | ⟨b, hm, _⟩
    · exact hne (by rw [e]; rfl)
    · exact hn (HTree.map_fst_codeList t ▸ List.mem_map_of_mem (f := Prod.fst) hm)
  · have hpos := (codeFor_mem_codeList hh hi).2.2
    rw [h0] at hpos
    exact absurd hpos (by decide)

theorem codeFor_bits_of_mem {t : HTree} (hnd : t.symbols.Nodup) {i : Fin 257} {b : Bits}
    (h : (BitVec.ofNat 9 i.val, b) ∈ t.codeList) : (codeFor t i).bits = b := by
  rw [codeFor, lookup_of_mem hnd h]

/-! ### The codes of a built tree (41_code_table.md R131) -/

section Built

variable {s : State} {tree : HTree} (hok : s.TreeOk) (hbuilt : s.BuiltOk) (ht : s.holds tree s.root = true)

include hok hbuilt ht

theorem length_symbols_eq_present : tree.symbols.length = s.present.length := by
  rw [(symbols_perm hok hbuilt ht).length_eq, List.length_map]

/-- R131 (a): exactly the symbols with a count have a code. -/
theorem codeFor_len_ne_zero_iff_counted (i : Fin 257) : (codeFor tree i).len ≠ 0 ↔ s.freqAt i ≠ 0 :=
  (codeFor_len_ne_zero_iff (TreeOk.height hok ht) i).trans (mem_symbols hok hbuilt ht i)

/-- R131 (b): with two leaves or more, a code is the path to the leaf of its symbol, so at most L - 1 bits long. -/
theorem codeFor_path (hL : 2 ≤ s.present.length) {i : Fin 257} (hi : (codeFor tree i).len ≠ 0) :
    (BitVec.ofNat 9 i.val, (codeFor tree i).bits) ∈ tree.paths ∧
      (codeFor tree i).len.toNat = (codeFor tree i).bits.length ∧ 1 ≤ (codeFor tree i).len.toNat ∧
      (codeFor tree i).len.toNat ≤ s.present.length - 1 := by
  have hlen := length_symbols_eq_present hok hbuilt ht
  have hheight := TreeOk.height hok ht
  obtain ⟨hm, hbits, hpos⟩ := codeFor_mem_codeList hheight ((codeFor_len_ne_zero_iff hheight i).mp hi)
  rw [HTree.codeList_eq_paths (by omega)] at hm
  have hpath := HTree.paths_length_le hm
  have hlt := tree.height_lt
  exact ⟨hm, hbits, hpos, by omega⟩

/-- The counted symbols with their codes are the leaves with their paths. -/
theorem codes_perm_paths (hL : 2 ≤ s.present.length) :
    (s.present.map fun i => (BitVec.ofNat 9 i.val, (codeFor tree i).bits)).Perm tree.paths := by
  have hnd := nodup_symbols hok hbuilt ht
  have hinj : Function.Injective fun i : Fin 257 => (BitVec.ofNat 9 i.val, (codeFor tree i).bits) :=
    fun _ _ e => ofNat_symbol_injective (congrArg Prod.fst e)
  have hpaths : tree.paths.Nodup := List.Nodup.of_map Prod.fst (by rwa [HTree.map_fst_paths])
  rw [List.perm_ext_iff_of_nodup ((nodup_present s).map hinj) hpaths]
  rintro ⟨sym, b⟩
  rw [List.mem_map]
  constructor
  · rintro ⟨i, hi, e⟩
    have hcode := (codeFor_len_ne_zero_iff_counted hok hbuilt ht i).mpr (mem_present.mp hi)
    exact e ▸ (codeFor_path hok hbuilt ht hL hcode).1
  · intro hp
    have hsym : sym ∈ tree.symbols := HTree.map_fst_paths tree ▸ List.mem_map_of_mem (f := Prod.fst) hp
    obtain ⟨i, hi, rfl⟩ := List.mem_map.mp ((symbols_perm hok hbuilt ht).mem_iff.mp hsym)
    have hlen := length_symbols_eq_present hok hbuilt ht
    rw [← HTree.codeList_eq_paths (by omega)] at hp
    exact ⟨i, hi, congrArg _ (codeFor_bits_of_mem hnd hp)⟩

/-- R131 (d): the codes share out the whole of 2^256, because the paths do. -/
theorem sum_two_pow_codes (hL : 2 ≤ s.present.length) :
    (s.present.map fun i => 2 ^ (256 - (codeFor tree i).len.toNat)).sum = 2 ^ 256 := by
  have hlen : ∀ i ∈ s.present, 2 ^ (256 - (codeFor tree i).len.toNat) = 2 ^ (256 - (codeFor tree i).bits.length) := by
    intro i hi
    have hcode := (codeFor_len_ne_zero_iff_counted hok hbuilt ht i).mpr (mem_present.mp hi)
    rw [(codeFor_path hok hbuilt ht hL hcode).2.1]
  have hperm := (codes_perm_paths hok hbuilt ht hL).map fun q => 2 ^ (256 - q.2.length)
  rw [List.map_map] at hperm
  rw [List.map_congr_left hlen, ← HTree.sum_two_pow_paths tree 256 (TreeOk.height hok ht)]
  exact hperm.sum_eq

end Built

/-- Settles O35: the codes are the paths to the leaves of a full tree, one leaf for each counted symbol. -/
theorem codesArePrefixFreeAndFull : Obligations.CodesArePrefixFreeAndFull := by
  intro s t h hinv hv hsrc e hL
  have hok := hinv.tree hv
  have hbuilt := hinv.built hv hsrc
  obtain ⟨tree, ht, -, -⟩ := TreeOk.tree hok
  obtain ⟨t', e', hcodes, -⟩ := exec_gencodes_ready h hinv hv hsrc ht
  obtain rfl : t = t' := Host.Outcome.next.inj (e.symm.trans e')
  have hcounted := codeFor_len_ne_zero_iff_counted hok hbuilt ht
  have hpath := fun i => codeFor_path hok hbuilt ht hL (i := i)
  simp only [hcodes]
  refine ⟨hcounted, ⟨tree, ht, hpath⟩, fun i j hi hj hpre => ?_, ?_⟩
  · exact ofNat_symbol_injective (HTree.paths_prefix_free (hpath i hi).1 (hpath j hj).1 hpre).1
  · simp only [hcounted]
    exact sum_two_pow_codes hok hbuilt ht hL

end Machine

end Sys2Proof
end

section
/-! PROOFS. The magic number and the tree header, written and read back (42_header_codec.md R140, R145, R148, R149). -/

namespace Sys2Proof.Machine

/-! ### WRMAGIC (42_header_codec.md R140) -/

theorem exec_wrmagic_ready {s : State} (h : s.Ready) : exec .wrmagic s = .next { s with
    curOp := 0x05
    outBits := s.outBits ++ bin 32 s.magic.toNat
    portTrace := { inPos := s.inPos, outLen := s.outBits.length + 32 } :: s.portTrace } := by
  refine (runCommand_met (p := wrmagicPrim) h rfl).trans ?_
  have hlen : (s.outBits ++ bin 32 s.magic.toNat).length = s.outBits.length + 32 := by simp
  rw [← hlen, h.1]
  rfl

/-- Settles O27: WRMAGIC is one write of the 32 bits of MAGIC, wherever OUT ends. -/
theorem wrmagicWritesTheMagicNumber : Obligations.WrmagicWritesTheMagicNumber :=
  ⟨rfl, fun _ => exec_wrmagic_ready⟩

/-! ### RDMAGIC (42_header_codec.md R145, 60_exceptions.md R201) -/

/-- RDMAGIC with fewer than 32 bits left. -/
theorem exec_rdmagic_short {s : State} (h : s.Ready) (hl : s.unread.length < 32) :
    ∃ t, exec .rdmagic s = .next t ∧ ErrorEntry 1 1 0x09 0 { s with
      curOp := 0x09, inPos := s.inBits.length, portTrace := t.portTrace } t := by
  have e := rdmagicPrim_short (s := { s with busy := true, curOp := 0x09 }) hl
  exact ⟨_, (runCommand_met (p := rdmagicPrim) h rfl).trans (congrArg finish e), rfl⟩

/-- RDMAGIC on 32 bits is its test of them, just behind them. -/
theorem exec_rdmagic_read {s : State} {v : Word} {rest : Bits} (h : s.Ready)
    (hu : s.unread = bin 32 v.toNat ++ rest) : exec .rdmagic s =
      finish (.next (checkMagic v (State.seek { s with busy := true, curOp := 0x09 } (s.inPos + 32)))) := by
  have e := rdmagicPrim_read (s := { s with busy := true, curOp := 0x09 }) hu
  exact (runCommand_met (p := rdmagicPrim) h rfl).trans (congrArg finish e)

theorem checkMagic_of_ne {v : Word} {s : State} (hv : v ≠ s.magic) :
    checkMagic v s = raise .badMagicNumber 2 v s := if_neg hv

theorem checkMagic_of_eq {v : Word} {s : State} (hv : v = s.magic) : checkMagic v s = s := if_pos hv

/-- RDMAGIC on another number. -/
theorem exec_rdmagic_badMagic {s : State} {v : Word} {rest : Bits} (h : s.Ready)
    (hu : s.unread = bin 32 v.toNat ++ rest) (hv : v ≠ s.magic) :
    ∃ t, exec .rdmagic s = .next t ∧ ErrorEntry 1 2 0x09 v { s with
      curOp := 0x09, inPos := s.inPos + 32, portTrace := t.portTrace } t :=
  ⟨_, (exec_rdmagic_read h hu).trans (congrArg (fun t => finish (.next t)) (checkMagic_of_ne hv)), rfl⟩

/-- RDMAGIC on the magic number. -/
theorem exec_rdmagic_magic {s : State} {rest : Bits} (h : s.Ready) (hu : s.unread = bin 32 s.magic.toNat ++ rest) :
    ∃ t, exec .rdmagic s = .next t ∧
      t = { s with curOp := 0x09, inPos := s.inPos + 32, portTrace := t.portTrace } := by
  refine ⟨_, (exec_rdmagic_read h hu).trans (congrArg (fun t => finish (.next t)) (checkMagic_of_eq rfl)), ?_⟩
  rw [h.1]
  rfl

/-- Settles O37: RDMAGIC reads 32 bits or finds too few, and the 32 bits are MAGIC or another number. -/
theorem rdmagicChecksTheMagicNumber : Obligations.RdmagicChecksTheMagicNumber :=
  ⟨rfl, fun _ h => ⟨exec_rdmagic_short h, fun _ _ => exec_rdmagic_badMagic h, fun _ => exec_rdmagic_magic h⟩⟩

/-! ### RDTREE on a header (42_header_codec.md R148, R149) -/

/-- RDTREE as a command, on a header with room for its nodes. -/
theorem exec_rdtree_header {s : State} {tree : HTree} {rest : Bits} (h : s.Ready)
    (hu : s.unread = tree.header ++ rest) (hs : tree.symbolsOk = true) (hz : tree.size ≤ 513) :
    ∃ t, exec .rdtree s = .next t ∧ t.holds tree t.root = true ∧ t.TreeOk ∧ t.ncount.toNat = tree.size ∧
      t.marks = t.ncount ∧ (∀ x < t.ncount.toNat, (t.nodes[x]?.map Node.weight) = some 0) ∧
      t = { s with
        curOp := 0x0A, nodes := t.nodes, ncount := t.ncount, root := t.root, treeValid := true, treeSrc := true
        codesValid := false, marks := t.marks, rdStack := [], inPos := s.inPos + tree.header.length
        portTrace := t.portTrace } := by
  obtain ⟨u, e, hholds, hok, hcount, hmarks, -, hweight, hframe⟩ :=
    rdtreePrim_header (s := { s with busy := true, curOp := 0x0A }) hu hs hz
  refine ⟨{ u with busy := false }, (runCommand_met (p := rdtreePrim) h rfl).trans (congrArg finish e),
    (holds_congr (by rfl) tree u.root).trans hholds, TreeOk.congr hok rfl rfl rfl, hcount, hmarks, hweight, ?_⟩
  rw [h.1]
  exact congrArg (fun v : State => { v with busy := false }) hframe

/-- Settles O41: what WRTREE writes is the header of the tree at ROOT, whose nodes are the NCOUNT entries in use, and
RDTREE rebuilds the tree of a header. -/
theorem headerRoundTripKeepsTheTree : Obligations.HeaderRoundTripKeepsTheTree := by
  intro s u rest h hinv hv hready
  have hok := hinv.tree hv
  obtain ⟨tree, ht, hsymbols, hroom⟩ := TreeOk.tree hok
  obtain ⟨trace, ewrite⟩ := exec_wrtree_ready h hv ht (TreeOk.height hok ht)
  refine ⟨_, tree.header, ewrite, rfl, fun hu => ?_⟩
  obtain ⟨v, eread, hheld, -, hcount, -, -, hframe⟩ :=
    exec_rdtree_header hready hu hsymbols (hroom.trans (ncount_le hok))
  have hsame : v.ncount = s.ncount := BitVec.eq_of_toNat_eq (hcount.trans (TreeOk.size hok ht))
  exact ⟨v, tree, eread, hframe ▸ hready.2, hframe ▸ rfl, hframe ▸ rfl, ht, hheld, hsame⟩

end Sys2Proof.Machine
end

section
/-! PROOFS. ENCODE after COUNT, REWIND, BUILD and GENCODES: the length of the payload (43_encoder.md R160, R162). -/

namespace Sys2Proof.Machine

/-! ### Sums over the tally of an input -/

theorem tally_cons (b : Byte) (bs : List Byte) (i : Fin 257) :
    tally (b :: bs) i = tally bs i + if i = byteIndex b.toNat then 1 else 0 := by
  by_cases hi : i = eofIndex
  · have hne : i ≠ byteIndex b.toNat := hi ▸ (byteIndex_ne_eof b.toNat).symm
    rw [tally, tally, if_pos hi, if_pos hi, if_neg hne]
  · rw [tally, tally, if_neg hi, if_neg hi, List.countP_cons]
    simp only [decide_eq_true_eq]

/-- Summing over the symbols, each as often as it is counted, is summing over the input and its end. -/
theorem sum_tally_mul (bs : List Byte) (f : Fin 257 → Nat) :
    ((List.finRange 257).map fun i => tally bs i * f i).sum =
      (bs.map fun b => f (byteIndex b.toNat)).sum + f eofIndex := by
  rw [← Fin.sum_univ_def]
  induction bs with
  | nil => simp [tally]
  | cons b bs ih =>
    simp only [tally_cons, add_mul, ite_mul, one_mul, zero_mul, Finset.sum_add_distrib, ih, Finset.sum_ite_eq',
      Finset.mem_univ, if_true, List.map_cons, List.sum_cons]
    omega

/-! ### The payload of a code table -/

/-- A code of a tree is as long as its LEN says, an absent one included. -/
theorem codeFor_len_eq_length {t : HTree} (hh : t.height ≤ 256) (i : Fin 257) :
    (codeFor t i).len.toNat = (codeFor t i).bits.length := by
  rcases codeFor_cases hh i with ⟨-, habsent⟩ | ⟨b, -, hbits, hlen, -, -⟩
  · rw [habsent]
    rfl
  · rw [hlen, hbits]

theorem length_payload {s : State} (h : ∀ i, (s.codeAt i).len.toNat = (s.codeAt i).bits.length) (bs : List Byte) :
    (bs.flatMap s.codeBits ++ s.eofBits).length =
      ((List.finRange 257).map fun i => tally bs i * (s.codeAt i).len.toNat).sum := by
  simp only [sum_tally_mul, h, List.length_append, List.length_flatMap, State.codeBits, State.eofBits]

/-! ### The commands in sequence -/

/-- A command whose pseudocode ends keeps the invariant. -/
theorem Ends.inv {p : Primitive} (hp : Ends p) {s t : State} (h : s.Inv) (e : runCommand p s = .next t) : t.Inv := by
  obtain ⟨t', e', -, hinv⟩ := runCommand_ends hp h
  obtain rfl : t = t' := Host.Outcome.next.inj (e.symm.trans e')
  exact hinv

/-- BUILD and then GENCODES, after a count: exactly the counted symbols have a code, and each code has the length LEN. -/
theorem exec_build_gencodes {s : State} (h : s.Ready) (hinv : s.Inv) (hv : s.freqValid = true) :
    ∃ u t, exec .build s = .next u ∧ exec .gencodes u = .next t ∧ (∀ i, (t.codeAt i).len ≠ 0 ↔ s.freqAt i ≠ 0) ∧
      (∀ i, (t.codeAt i).len.toNat = (t.codeAt i).bits.length) ∧
      t = { s with
        curOp := 0x04, nodes := t.nodes, ncount := t.ncount, root := t.root, pq := [], treeSrc := false
        treeValid := true, codes := t.codes, codesValid := true } := by
  obtain ⟨u, ebuild, B⟩ := exec_build_ready h hinv hv
  obtain ⟨tree, ht, -, -⟩ := TreeOk.tree B.tree
  have hready : u.Ready := by rw [B.frame]; exact h
  have hvalid : u.treeValid = true := by rw [B.frame]
  have hsrc : u.treeSrc = false := by rw [B.frame]
  have hfreq : ∀ i, u.freqAt i = s.freqAt i := fun i => by rw [B.frame]; rfl
  obtain ⟨t, egen, hcodes, hframe⟩ := exec_gencodes_ready hready (buildPrim_ends.inv hinv ebuild) hvalid hsrc ht
  refine ⟨u, t, ebuild, egen, fun i => ?_, fun i => ?_, ?_⟩
  · rw [hcodes, ← hfreq]
    exact codeFor_len_ne_zero_iff_counted B.tree B.built ht i
  · rw [hcodes]
    exact codeFor_len_eq_length (TreeOk.height B.tree ht) i
  · rw [hframe, B.frame]

/-- ENCODE as a command, when every byte and the end of the stream have a code. -/
theorem exec_encode_ready {s : State} {bs : List Byte} {rest : Bits} (h : s.Ready) (hv : s.codesValid = true)
    (hu : s.unread = bitsOf bs ++ rest) (hr : rest.length < 8) (hc : ∀ b ∈ bs, s.hasCode b = true)
    (hz : (s.codeAt eofIndex).len ≠ 0) :
    ∃ trace, exec .encode s = .next { s with
      curOp := 0x07, outBits := s.outBits ++ bs.flatMap s.codeBits ++ s.eofBits, inPos := s.inBits.length
      portTrace := trace } := by
  have hm : firstUnmet encodePrim.needs s = none :=
    firstUnmet_none fun p hp => by rw [List.mem_singleton.mp hp]; exact hv
  obtain ⟨trace, e⟩ := encodePrim_spec (s := { s with busy := true, curOp := 0x07 }) h.2 hu hr hc hz
  refine ⟨trace, (runCommand_met (p := encodePrim) h hm).trans ((congrArg finish e).trans ?_)⟩
  rw [finish_next, h.1]
  rfl

/-- Settles O47: the counts are the tally of the very bytes ENCODE reads, so the payload sums over the symbols. -/
theorem payloadLengthIsTheWeightedCodeLength : Obligations.PayloadLengthIsTheWeightedCodeLength := by
  intro s bs rest h hinv hpos hin hr hl
  have hstart : s.unread = bitsOf bs ++ rest := by rw [State.unread, hpos, hin, List.drop_zero]
  obtain ⟨s1, ecount, -, htally, hframe1⟩ := exec_count_ready h hinv.width hstart hr hl
  have hready1 : s1.Ready := by rw [hframe1]; exact h
  obtain ⟨s2, erewind, hframe2⟩ : ∃ s2, exec .rewind s1 = .next s2 ∧
      s2 = { s1 with curOp := 0x02, inPos := 0, portTrace := s2.portTrace } := ⟨_, exec_rewind_ready hready1, rfl⟩
  have hready2 : s2.Ready := by rw [hframe2]; exact hready1
  have hinv2 : s2.Inv := rewindPrim_ends.inv (countPrim_ends.inv hinv ecount) erewind
  have hfreq2 : ∀ i, s2.freqAt i = s1.freqAt i := fun i => by rw [hframe2]; rfl
  obtain ⟨s3, s4, ebuild, egen, hcounted, hlen, hframe4⟩ :=
    exec_build_gencodes hready2 hinv2 (by rw [hframe2, hframe1])
  have hready4 : s4.Ready := by rw [hframe4]; exact hready2
  have hu4 : s4.unread = bitsOf bs ++ rest := by rw [← hin, hframe4, hframe2, hframe1]; rfl
  have hout4 : s4.outBits = s.outBits := by rw [hframe4, hframe2, hframe1]
  have hcode : ∀ i, tally bs i ≠ 0 → (s4.codeAt i).len ≠ 0 := fun i hi =>
    (hcounted i).mpr fun hzero => hi (by rw [← htally, ← hfreq2, hzero]; rfl)
  obtain ⟨trace, eencode⟩ := exec_encode_ready hready4 (by rw [hframe4]) hu4 hr
    (fun b hb => decide_eq_true (hcode _ (tally_pos hb))) (hcode eofIndex (by rw [tally_eof]; decide))
  refine ⟨s1, s2, s3, s4, _, ecount, erewind, ebuild, egen, eencode, hready4.2, ?_⟩
  simp only [htally]
  rw [List.append_assoc, List.length_append, length_payload hlen, hout4]

end Sys2Proof.Machine
end

section
/-! PROOFS. DECODE as a command: the coded bytes up to the end-of-stream code, a payload cut short, and a root that is a
leaf (44_decoder.md R170, R171, R173). -/

namespace Sys2Proof.Machine

/-! ### The outcomes of the command -/

theorem exec_decode_eq {s : State} (h : s.Ready) (hv : s.treeValid = true) :
    exec .decode s = finish (decodePrim.body { s with busy := true, curOp := 0x0B }) :=
  runCommand_met h (firstUnmet_none fun p hp => by rw [List.mem_singleton.mp hp]; exact hv)

/-- DECODE as a command, on coded bytes and the end-of-stream code. -/
theorem exec_decode_ready {s : State} {tree : HTree} {ws : List (Byte × Bits)} {p rest : Bits} (h : s.Ready)
    (hv : s.treeValid = true) (ht : s.holds tree s.root = true)
    (hp : ∀ w ∈ ws, tree.spells (byteSymbol w.1) w.2 = true) (hz : tree.spells 256 p = true)
    (hu : s.unread = ws.flatMap Prod.snd ++ p ++ rest) :
    ∃ c trace, exec .decode s = .next { s with
      curOp := 0x0B, cur := c, outBits := s.outBits ++ bitsOf (ws.map Prod.fst)
      inPos := s.inPos + (ws.flatMap Prod.snd).length + p.length, portTrace := trace } := by
  have ht' := (holds_congr (s := s) (t := { s with busy := true, curOp := 0x0B }) rfl tree s.root).trans ht
  obtain ⟨c, trace, e⟩ := decodePrim_spec ht' hp hz hu
  refine ⟨c, trace, (exec_decode_eq h hv).trans ((congrArg finish e).trans ?_)⟩
  rw [finish_next, h.1]

/-- DECODE as a command, when IN ends before the end-of-stream code. -/
theorem exec_decode_truncated {s : State} {tree : HTree} {ws : List (Byte × Bits)} {p : Bits} (h : s.Ready)
    (hv : s.treeValid = true) (ht : s.holds tree s.root = true)
    (hp : ∀ w ∈ ws, tree.spells (byteSymbol w.1) w.2 = true) (hq : tree.unfinished p = true)
    (hu : s.unread = ws.flatMap Prod.snd ++ p) :
    ∃ t, exec .decode s = .next t ∧ ErrorEntry 3 1 0x0B 0 { s with
      curOp := 0x0B, outBits := s.outBits ++ bitsOf (ws.map Prod.fst), inPos := s.inBits.length
      portTrace := t.portTrace } t := by
  have ht' := (holds_congr (s := s) (t := { s with busy := true, curOp := 0x0B }) rfl tree s.root).trans ht
  obtain ⟨c, trace, e⟩ := decodePrim_short ht' hp hq hu
  exact ⟨_, (exec_decode_eq h hv).trans (congrArg finish e), rfl⟩

/-- Settles O48: the bits of each byte and of the end-of-stream code lead to their leaves, and no bit after them is
read. -/
theorem decodeWritesTheBytesUpToTheEndCode : Obligations.DecodeWritesTheBytesUpToTheEndCode := by
  intro s tree ws p rest h hv ht hp hz hu
  obtain ⟨c, trace, e⟩ := exec_decode_ready h hv ht hp hz hu
  refine ⟨_, e, ?_, rfl⟩
  have hread : s.unread.drop ((ws.flatMap Prod.snd).length + p.length) = rest := by
    rw [hu, ← List.length_append, List.drop_left]
  rw [State.unread, List.drop_drop, ← Nat.add_assoc] at hread
  exact hread

/-! ### A root that is a leaf (44_decoder.md R171) -/

/-- One round of DECODE at a leaf: a bit of either value is read, and the walk stays. -/
theorem decodeLoop_stay {k : Nat} {s : State} {b : Bool} {rest : Bits} {d : Node} (hu : s.unread = b :: rest)
    (hd : s.nodeAt s.cur = some d) (hl : d.leaf = true) :
    decodeLoop (k + 1) s = atLeaf k d.sym (s.seek (s.inPos + 1)) := by
  have hd' : (s.seek (s.inPos + 1)).nodeAt (s.seek (s.inPos + 1)).cur = some d := hd
  simp only [decodeLoop, (readBit hu).1, hd', walkBit, hl, if_true, atLeaf]

/-- DECODE as a command, over a root leaf of the end-of-stream symbol and a bit to read. -/
theorem exec_decode_endLeaf {s : State} {d : Node} {b : Bool} {rest : Bits} (h : s.Ready) (hv : s.treeValid = true)
    (hd : s.nodeAt s.root = some d) (hl : d.leaf = true) (hsym : d.sym = 256) (hu : s.unread = b :: rest) :
    exec .decode s = .next { s with
      curOp := 0x0B, cur := s.root, inPos := s.inPos + 1
      portTrace := { inPos := s.inPos + 1, outLen := s.outBits.length } :: s.portTrace } := by
  have e := decodeLoop_stay (k := s.inBits.length - s.inPos)
    (s := { s with busy := true, curOp := 0x0B, cur := s.root }) hu hd hl
  rw [hsym, atLeaf, if_pos rfl] at e
  refine (exec_decode_eq h hv).trans ((congrArg finish e).trans ?_)
  rw [finish_next, h.1]
  rfl

theorem byteSymbol_setWidth {sym : Symbol} (h : sym.toNat < 256) : byteSymbol (sym.setWidth 8) = sym := by
  apply BitVec.eq_of_toNat_eq
  simp only [byteSymbol, BitVec.toNat_setWidth]
  omega

/-- A bit string of which every bit alone leads to the byte v. -/
def eachBitAs (v : Byte) (bits : Bits) : List (Byte × Bits) := bits.map fun b => (v, [b])

theorem flatMap_snd_eachBitAs (v : Byte) (bits : Bits) : (eachBitAs v bits).flatMap Prod.snd = bits := by
  rw [eachBitAs, List.flatMap_map]
  exact List.flatMap_singleton' bits

theorem map_fst_eachBitAs (v : Byte) (bits : Bits) :
    (eachBitAs v bits).map Prod.fst = List.replicate bits.length v := by
  rw [eachBitAs, List.map_map]
  exact List.map_const'

theorem rootLeaf_spells_eachBitAs {sym : Symbol} (h : sym.toNat < 256) (bits : Bits) :
    ∀ w ∈ eachBitAs (sym.setWidth 8) bits, (HTree.leaf sym).spells (byteSymbol w.1) w.2 = true := by
  intro w hw
  obtain ⟨b, -, rfl⟩ := List.mem_map.mp hw
  simp [HTree.spells, byteSymbol_setWidth h]

/-- DECODE as a command, over a root leaf of a byte's symbol: every bit left is that byte. -/
theorem exec_decode_byteLeaf {s : State} {d : Node} (h : s.Ready) (hv : s.treeValid = true)
    (hd : s.nodeAt s.root = some d) (hl : d.leaf = true) (hsym : d.sym.toNat < 256) :
    ∃ t, exec .decode s = .next t ∧ ErrorEntry 3 1 0x0B 0 { s with
      curOp := 0x0B, outBits := s.outBits ++ bitsOf (List.replicate s.unread.length (d.sym.setWidth 8))
      inPos := s.inBits.length, portTrace := t.portTrace } t := by
  have hu : s.unread = (eachBitAs (d.sym.setWidth 8) s.unread).flatMap Prod.snd ++ [] := by
    rw [flatMap_snd_eachBitAs, List.append_nil]
  rw [← map_fst_eachBitAs]
  exact exec_decode_truncated h hv (holds_leaf.mpr ⟨d, hd, hl, rfl⟩) (rootLeaf_spells_eachBitAs hsym _) rfl hu

/-- Settles O50: a root leaf is reached by any bit; it ends the payload, or stands for one byte per bit until IN runs
out. -/
theorem decodeReadsOneBitPerSymbolOfARootLeaf : Obligations.DecodeReadsOneBitPerSymbolOfARootLeaf := by
  intro s d h hv hd hl hbound
  refine ⟨fun hsym b rest hu => ?_, fun hcase => ?_⟩
  · exact ⟨_, exec_decode_endLeaf h hv hd hl hsym hu, rfl⟩
  · by_cases hsym : d.sym = 256
    · have hu : s.unread = [] := hcase.resolve_left (not_not_intro hsym)
      rw [hu]
      exact exec_decode_truncated h hv (holds_leaf.mpr ⟨d, hd, hl, rfl⟩) (ws := []) (List.forall_mem_nil _) rfl hu
    · have hne : d.sym.toNat ≠ 256 := fun e => hsym (BitVec.eq_of_toNat_eq e)
      exact exec_decode_byteLeaf h hv hd hl (by omega)

end Sys2Proof.Machine
end

section
/-! PROOFS. NOP, CLEAR, and DECOMPRESS as a command on the stream COMPRESS writes (45_control.md R180, R181, R183,
R184). -/

namespace Sys2Proof.Machine

/-! ### NOP (45_control.md R180) -/

theorem exec_nop_ready {s : State} (h : s.Ready) : exec .nop s = .next { s with curOp := 0x00 } := by
  refine (runCommand_met (p := nopPrim) h rfl).trans ?_
  rw [nopPrim, finish_next, h.1]

/-- Settles O23: NOP's pseudocode changes nothing, so CUROP alone tells that it ran; while ERR = 1 it is ignored like
every word but CLEAR. -/
theorem nopDoesNothing : Obligations.NopDoesNothing :=
  ⟨rfl, fun _ h => exec_nop_ready h, fun _ hb he => exec_ignored rfl (by simp) hb he, decodeCommand_wide (by decide)⟩

/-! ### CLEAR (45_control.md R181) -/

theorem exec_clear_errored {s : State} (hb : s.busy = false) (he : s.err = true) :
    exec .clear s = .next (clearAll s) := by
  simp [exec, execClear, hb, he]

theorem exec_clear_ready {s : State} (h : s.Ready) : exec .clear s = .next { clearAll s with curOp := 0x0F } := by
  have e : exec .clear s = runCommand clearPrim s := by simp [exec, execClear, h.1, h.2]
  refine e.trans ((runCommand_met h rfl).trans ?_)
  rw [clearPrim, finish_next, ← h.1]
  rfl

/-- CLEAR with ERR = 1 or 0: CUROP tells the two apart and nothing else does. -/
theorem exec_clear_idle {s : State} (hb : s.busy = false) :
    exec .clear s = .next { clearAll s with curOp := if s.err then s.curOp else 0x0F } := by
  cases he : s.err with
  | true => exact exec_clear_errored hb he
  | false => exact exec_clear_ready ⟨hb, he⟩

theorem status_eq_zero {s : State} (hb : s.busy = false) (he : s.err = false) (hf : s.freqValid = false)
    (ht : s.treeValid = false) (hsrc : s.treeSrc = false) (hc : s.codesValid = false) (hcode : s.errCode = 0) :
    s.status = 0 := by
  simp [State.status, bitAt, hb, he, hf, ht, hsrc, hc, hcode]

theorem errInfo_eq_zero {s : State} (hsub : s.subcause = 0) (hop : s.failOp = 0) : s.errInfo = 0 := by
  simp [State.errInfo, hsub, hop]

/-- Settles O24: CLEAR ends in the cleared state whether or not there was an error, and no other word acts while
ERR = 1. -/
theorem clearEndsTheErrorAndDiscardsTheFlags : Obligations.ClearEndsTheErrorAndDiscardsTheFlags :=
  ⟨rfl, fun _ _ hb he hw => exec_decodeCommand_ignored hw hb he, fun _ hb =>
    ⟨_, exec_clear_idle hb, status_eq_zero hb rfl rfl rfl rfl rfl rfl, errInfo_eq_zero rfl rfl, rfl, rfl⟩⟩

/-! ### DECOMPRESS as a command (45_control.md R183) -/

/-- What DECOMPRESS leaves while it runs is, once BUSY is 0 again, what it leaves of the state it was started in. -/
theorem Decompressed.finished {tree : HTree} {bytes : List Byte} {consumed : Nat} {s t : State} (hb : s.busy = false)
    (h : Decompressed tree bytes consumed { s with busy := true, curOp := 0x0D } t) :
    Decompressed tree bytes consumed s { t with busy := false } where
  holds := (holds_congr (by rfl) tree t.root).trans h.holds
  treeOk := TreeOk.congr h.treeOk rfl rfl rfl
  frame := by
    rw [hb]
    exact congrArg (fun u : State => { u with busy := false }) h.frame

theorem exec_decompress_ready {s : State} {tree : HTree} {ws : List (Byte × Bits)} {p rest : Bits} (h : s.Ready)
    (hs : tree.symbolsOk = true) (hz : tree.size ≤ 513)
    (hp : ∀ w ∈ ws, tree.spells (byteSymbol w.1) w.2 = true) (hq : tree.spells 256 p = true)
    (hu : s.unread = bin 32 s.magic.toNat ++ tree.header ++ ws.flatMap Prod.snd ++ p ++ rest) :
    ∃ t, exec .decompress s = .next t ∧
      Decompressed tree (ws.map Prod.fst) (32 + tree.header.length + (ws.flatMap Prod.snd).length + p.length) s t := by
  obtain ⟨t, e, D⟩ := decompress_spec (s := { s with busy := true, curOp := 0x0D }) h.2 hs hz hp hq hu
  exact ⟨_, (runCommand_met (p := decompressPrim) h rfl).trans (congrArg finish e), D.finished h.1⟩

theorem Decompressed.err {tree : HTree} {bytes : List Byte} {consumed : Nat} {s t : State}
    (h : Decompressed tree bytes consumed s t) : t.err = s.err := by
  rw [h.frame]

/-- Into an empty OUT DECOMPRESS writes its bytes and no padding, for they are aligned. -/
theorem Decompressed.outBits {tree : HTree} {bytes : List Byte} {consumed : Nat} {s t : State}
    (h : Decompressed tree bytes consumed s t) (ho : s.outBits = []) : t.outBits = bitsOf bytes := by
  rw [h.frame, ho, List.nil_append]
  exact padded_of_aligned (by rw [length_bitsOf, Nat.mul_mod_right])

/-! ### DECOMPRESS after COMPRESS (45_control.md R184) -/

/-- DECOMPRESS on the stream a COMPRESS wrote into an empty OUT, with the bytes it encoded among those it counted. -/
theorem exec_decompress_compressed {counted bs : List Byte} {s t u : State} {tree : HTree}
    (C : Compressed counted bs s t tree) (hb : ∀ b ∈ bs, b ∈ counted) (ho : s.outBits = []) (hr : u.Ready)
    (hm : u.magic = s.magic) (hu : u.unread = t.outBits) :
    ∃ consumed v, exec .decompress u = .next v ∧ Decompressed tree bs consumed u v := by
  obtain ⟨hspell, hend⟩ := C.spells hb
  obtain ⟨pad, -, hout⟩ := C.out
  have hsize : tree.size ≤ 513 := TreeOk.size C.treeOk C.holds ▸ ncount_le C.treeOk
  have hstream : u.unread = bin 32 u.magic.toNat ++ tree.header ++
      (bs.map fun b => (b, t.codeBits b)).flatMap Prod.snd ++ t.eofBits ++ List.replicate pad false := by
    rw [hu, hout, ho, hm, List.flatMap_map]
    simp only [List.nil_append, List.append_assoc]
  obtain ⟨v, e, D⟩ := exec_decompress_ready hr (TreeOk.symbolsOk C.treeOk C.holds) hsize
    (List.forall_mem_map.mpr hspell) hend hstream
  have hbytes : (bs.map fun b => (b, t.codeBits b)).map Prod.fst = bs := by
    rw [List.map_map]
    exact List.map_id bs
  exact ⟨_, v, e, hbytes ▸ D⟩

/-- Settles O54: COMPRESS completes, its OUT is whole bytes, so DECOMPRESS gets every bit of it, and the codes of the
bytes lead through the tree of the header back to the bytes. -/
theorem decompressUndoesCompress : Obligations.DecompressUndoesCompress := by
  intro s x h hinv hl
  obtain ⟨t, tree, e, C⟩ := exec_compress_ready (s := takeOut (attachIn (bitsOf x) s)) (counted := x) (bs := x)
    (rest := []) (tail := []) h hinv.width (List.append_nil _).symm (by simp) hl (List.append_nil _).symm (by simp)
    fun _ hb => hb
  have hready : t.Ready := by rw [C.frame]; exact h
  obtain ⟨_, u, e', D⟩ := exec_decompress_compressed (u := attachIn (bitsOf (wholeBytes t.outBits)) (takeOut t)) C
    (fun _ hb => hb) rfl hready (exec_magic e :) (bitsOf_wholeBytes_aligned C.aligned)
  exact ⟨t, u, e, hready.2, e', D.err.trans hready.2, D.outBits rfl⟩

end Sys2Proof.Machine
end

section
/-! PROOFS. Errors: what raising one does, what is ignored until CLEAR, and the errors of RDTREE, ENCODE and DECODE
(60_exceptions.md R202 to R204, R206, R209). -/

namespace Sys2Proof.Machine

/-! ### Error entry and return (60_exceptions.md R206, R209) -/

/-- Settles O19: raise and an illegal command word are both raiseAs, which is the error entry by definition. -/
theorem raiseDoesExactlyTheErrorEntry : Obligations.RaiseDoesExactlyTheErrorEntry := by
  intro e sub data s
  refine ⟨raiseAs_entry s.curOp e sub data s, fun w => ⟨_, illegalWord_entry w s⟩, ?_⟩
  cases e <;> rfl

/-- Settles O20: each command but CLEAR is ignored whole, and CLEAR is the return from the error. -/
theorem onlyClearActsWhileErr : Obligations.OnlyClearActsWhileErr := by
  intro i s hi hb he
  refine ⟨fun hc => exec_ignored hi hc hb he, fun hc => ?_⟩
  subst hc
  exact exec_clear_errored hb he

/-! ### A command whose pseudocode raises -/

/-- An error in the pseudocode ends the command as the error left it; `m t` is the state the error came in, some of its
fields being told by the state t after it. -/
theorem runCommand_raises {p : Primitive} {s : State} {code : BitVec 4} {sub op : BitVec 8} {data : Word}
    {m : State → State} (h : s.Ready) (hm : firstUnmet p.needs s = none)
    (hbody : ∃ t, p.body { s with busy := true, curOp := p.op } = .next t ∧ ErrorEntry code sub op data (m t) t) :
    ∃ t, runCommand p s = .next t ∧ ErrorEntry code sub op data (m t) t := by
  obtain ⟨t, e, herror⟩ := hbody
  exact ⟨t, (runCommand_met h hm).trans ((congrArg finish e).trans herror.finish_eq), herror⟩

/-! ### RDTREE (60_exceptions.md R202) -/

/-- Settles O39: after the front of a header RDTREE finds no marker, too short a field, a field above 256, or a 514th
marker; each ends the command with its own subcause. -/
theorem rdtreeRaisesMalformedHeader : Obligations.RdtreeRaisesMalformedHeader := by
  intro s ts rest h hfront hlen
  refine ⟨fun hu => ?noMarker, fun hu hl hr => ?shortField, fun v hv hu hl => ?badSymbol, fun x hu hl => ?tooMany⟩
  case noMarker =>
    exact runCommand_raises (p := rdtreePrim) h rfl (rdtreePrim_noMarker hu hfront hlen)
  case shortField =>
    exact runCommand_raises (p := rdtreePrim) h rfl (rdtreePrim_shortField hu hfront hl hr)
  case badSymbol =>
    exact runCommand_raises (p := rdtreePrim) h rfl (rdtreePrim_badSymbol hu hfront hl hv)
  case tooMany =>
    exact runCommand_raises (p := rdtreePrim) h rfl (rdtreePrim_tooMany hu hfront hl)

/-! ### ENCODE (60_exceptions.md R204) -/

theorem encodePrim_needs_met {s : State} (hv : s.codesValid = true) : firstUnmet encodePrim.needs s = none :=
  firstUnmet_none fun p hp => by rw [List.mem_singleton.mp hp]; exact hv

/-- ENCODE after its loop has ended well: the code of symbol 256. -/
theorem encodePrim_loop_done {s u : State} (e : encodeLoop s.groupBound s = .next u) (hu : u.err = false) :
    encodePrim.body s = .next (encodeSymbol eofIndex u) := by
  simp only [encodePrim, e, unlessRaised_next _ hu]

/-- ENCODE after its loop has raised: nothing more. -/
theorem encodePrim_loop_raised {s u : State} (e : encodeLoop s.groupBound s = .next u) (hu : u.err = true) :
    encodePrim.body s = .next u := by
  simp only [encodePrim, e, unlessRaised_raised _ hu]

/-- ENCODE meets a byte without a code. -/
theorem encodePrim_missingByte {s : State} {pre post : List Byte} {b : Byte} {rest : Bits} (he : s.err = false)
    (hu : s.unread = bitsOf (pre ++ b :: post) ++ rest) (hpre : ∀ x ∈ pre, s.hasCode x = true)
    (hb : s.hasCode b = false) :
    ∃ t, encodePrim.body s = .next t ∧ ErrorEntry 4 1 s.curOp (b.setWidth 32) { s with
      outBits := s.outBits ++ pre.flatMap s.codeBits
      inPos := s.inPos + 8 * (pre.length + 1), portTrace := t.portTrace } t := by
  have hbound : pre.length < s.groupBound :=
    calc pre.length ≤ (pre ++ b :: post).length := by simp
      _ < s.groupBound := groupBound_gt hu
  obtain ⟨trace, e⟩ := encodeLoop_missing pre hu hbound he hpre hb
  exact ⟨_, encodePrim_loop_raised e rfl, rfl⟩

/-- ENCODE meets the end of IN, and symbol 256 has no code. -/
theorem encodePrim_missingEnd {s : State} {bs : List Byte} {rest : Bits} (he : s.err = false)
    (hu : s.unread = bitsOf bs ++ rest) (hr : rest.length < 8) (hc : ∀ b ∈ bs, s.hasCode b = true)
    (hz : (s.codeAt eofIndex).len = 0) :
    ∃ t, encodePrim.body s = .next t ∧ ErrorEntry 4 1 s.curOp 256 { s with
      outBits := s.outBits ++ bs.flatMap s.codeBits, inPos := s.inBits.length
      portTrace := t.portTrace } t := by
  obtain ⟨trace, e⟩ := encodeLoop_spec bs hu hr (groupBound_gt hu) he hc
  exact ⟨_, (encodePrim_loop_done e he).trans (congrArg _ (encodeSymbol_absent hz)), rfl⟩

/-- Settles O46: the codes before the missing one stand, whether it is a byte's or that of symbol 256. -/
theorem encodeRaisesMissingCodeBeforeTheSymbol : Obligations.EncodeRaisesMissingCodeBeforeTheSymbol := by
  intro s pre post b rest h hv hr hpre
  refine ⟨fun hu hb => ?byte, fun hu hz => ?endOfStream⟩
  case byte =>
    exact runCommand_raises (p := encodePrim) h (encodePrim_needs_met hv) (encodePrim_missingByte h.2 hu hpre hb)
  case endOfStream =>
    exact runCommand_raises (p := encodePrim) h (encodePrim_needs_met hv) (encodePrim_missingEnd h.2 hu hr hpre hz)

/-! ### DECODE (60_exceptions.md R203) -/

/-- Settles O49: the bits of the whole bytes lead to their leaves, and the bits after them to none. -/
theorem decodeRaisesTruncatedPayload : Obligations.DecodeRaisesTruncatedPayload :=
  fun _ _ _ _ h hv ht hp hq hu => exec_decode_truncated h hv ht hp hq hu

end Sys2Proof.Machine
end

section
/-! PROOFS. Reset: what it clears and what it keeps (70_reset_and_hazards.md R230). -/

namespace Sys2Proof.Machine

/-- Past MAGIC the registers show tables alone, so with no table valid a read there is unspecified (10_state.md R43). -/
theorem register_of_no_valid_table {s : State} (hf : s.freqValid = false) (ht : s.treeValid = false)
    (hc : s.codesValid = false) {k : Nat} (hk : 0x014 ≤ k) : s.register k = none := by
  simp (disch := omega) only [State.register, if_neg, hf, ht, hc, Bool.false_and, onlyWhile, Bool.false_eq_true,
    if_false, ite_self]

/-- Reset waits for nothing (70_reset_and_hazards.md R230): a running command does not hold it back. -/
theorem step_reset (s : State) (rest : List HostMove) :
    step { s with script := .reset :: rest } = .next (resetBlock { s with script := rest }) := by
  rw [step, nextEvent]
  exact if_neg (by simp [allowedWhileBusy])

/-- Settles O17: the step is resetBlock, whether BUSY = 1 or not, and with every validity flag 0 no register past MAGIC
shows anything. -/
theorem resetClearsTheBlockAndKeepsThePorts : Obligations.ResetClearsTheBlockAndKeepsThePorts :=
  fun s rest => ⟨_, step_reset s rest, status_eq_zero rfl rfl rfl rfl rfl rfl rfl, errInfo_eq_zero rfl rfl,
    rfl, rfl, rfl, fun _ hk => register_of_no_valid_table rfl rfl rfl hk, rfl, rfl, rfl, rfl, rfl, rfl, rfl⟩

end Sys2Proof.Machine
end

section
/-! PROOFS. Decoder and encoder undo each other, and the opcode map (30_encoding.md R80, R81, R83, R87, R89). -/

namespace Sys2Proof

/-! ### Command words (30_encoding.md R80, R81) -/

/-- The opcode map lists, for each opcode, the command with that word. -/
theorem commandWord_of_lookup : ∀ b : Byte, ∀ i ∈ opcodeMap.lookup b,
    commandWord i = some (b.setWidth 32) ∧ i.source = .cmd ∧ WellFormed i = true := by decide

theorem setWidth_opField {w : Word} (h : w.toNat < 256) : (opField w).setWidth 32 = w := by
  apply BitVec.eq_of_toNat_eq
  rw [BitVec.toNat_setWidth, toNat_opField]
  omega

/-- A word outside the opcode map is none of the fifteen. -/
theorem definedWord_of_lookup_none : ∀ b : Byte, opcodeMap.lookup b = none → definedWord (b.setWidth 32) = false := by
  decide

/-- The decoder gives every word a command that the host writes by that very word, and a well-formed one. -/
theorem commandWord_decodeCommand (w : Word) :
    commandWord (decodeCommand w) = some w ∧ WellFormed (decodeCommand w) = true := by
  rcases Nat.lt_or_ge w.toNat 256 with hw | hw
  · rw [decodeCommand_narrow hw]
    have hop := setWidth_opField hw
    cases hl : opcodeMap.lookup (opField w) with
    | some i =>
      obtain ⟨hword, -, hwf⟩ := commandWord_of_lookup _ i hl
      exact ⟨hword.trans (congrArg some hop), hwf⟩
    | none =>
      have hdef := definedWord_of_lookup_none _ hl
      rw [hop] at hdef
      exact ⟨rfl, by rw [Option.getD_none, WellFormed, hdef]; rfl⟩
  · rw [decodeCommand_wide hw]
    have hne : ¬ w.toNat ≤ 13 ∧ ¬ w.toNat = 15 := by omega
    exact ⟨rfl, by simp [WellFormed, definedWord, hne]⟩

/-- The word of a well-formed command decodes to it. -/
theorem decodeCommand_of_commandWord {i : Instr} {w : Word} (h : WellFormed i = true) (hw : commandWord i = some w) :
    decodeCommand w = i := by
  cases i with
  | reserved v =>
    cases hw
    simp only [WellFormed, definedWord, Bool.not_eq_true', Bool.or_eq_false_iff, decide_eq_false_iff_not] at h
    rcases Nat.lt_or_ge w.toNat 256 with hlt | hge
    · exact decodeCommand_reservedOpcode (by omega)
    · exact decodeCommand_wide hge
  | hdrInternal | hdrLeaf _ | magicField _ => cases hw
  | nop | count | rewind | build | gencodes | wrmagic | wrtree | encode | close | rdmagic | rdtree | decode
  | compress | decompress | clear => cases hw; rfl

/-- Settles O5: each word is looked up in the opcode map. -/
theorem opcodeMapReadsTheFifteenWords : Obligations.OpcodeMapReadsTheFifteenWords := by
  unfold Obligations.OpcodeMapReadsTheFifteenWords
  decide

/-! ### From instructions to bits and back -/

/-- A command is encoded as the 32 bits of its word. -/
theorem encode_of_commandWord {i : Instr} {w : Word} (h : commandWord i = some w) : encode i = bin 32 w.toNat := by
  cases i with
  | hdrInternal | hdrLeaf _ | magicField _ => cases h
  | nop | count | rewind | build | gencodes | wrmagic | wrtree | encode | close | rdmagic | rdtree | decode
  | compress | decompress | clear | reserved _ => cases h; rfl

theorem source_of_commandWord {i : Instr} {w : Word} (h : commandWord i = some w) : i.source = .cmd := by
  cases i with
  | hdrInternal | hdrLeaf _ | magicField _ => cases h
  | nop | count | rewind | build | gencodes | wrmagic | wrtree | encode | close | rdmagic | rdtree | decode
  | compress | decompress | clear | reserved _ => rfl

theorem ofNat_val_bin {n : Nat} (v : BitVec n) (rest : Bits) :
    BitVec.ofNat n (val ((bin n v.toNat ++ rest).take n)) = v := by
  rw [List.take_left' (length_bin n _), val_bin_of_lt v.isLt, BitVec.ofNat_toNat, BitVec.setWidth_eq]

theorem bin_ofNat_val_take {n : Nat} {b : Bits} (h : n ≤ b.length) :
    bin n (BitVec.ofNat n (val (b.take n))).toNat ++ b.drop n = b := by
  rw [BitVec.toNat_ofNat, bin_mod, bin_val_take h, List.take_append_drop]

theorem decode_cmd_bin (w : Word) (rest : Bits) : decode .cmd (bin 32 w.toNat ++ rest) = .ok (decodeCommand w, rest) := by
  have hl : ¬ (bin 32 w.toNat ++ rest).length < 32 := by simp
  rw [decode, if_neg hl, ofNat_val_bin, List.drop_left' (length_bin 32 _)]

theorem decode_magic_bin (v : Word) (rest : Bits) :
    decode .magic (bin 32 v.toNat ++ rest) = .ok (.magicField v, rest) := by
  have hl : ¬ (bin 32 v.toNat ++ rest).length < 32 := by simp
  rw [decode, if_neg hl, ofNat_val_bin, List.drop_left' (length_bin 32 _)]

theorem decode_header_leaf (v : Symbol) (rest : Bits) :
    decode .header (true :: (bin 9 v.toNat ++ rest)) = .ok (.hdrLeaf v, rest) := by
  have hl : ¬ (bin 9 v.toNat ++ rest).length < tokenLength true - 1 := by simp [tokenLength]
  rw [decode, decodeToken, if_neg hl]
  show Except.ok ((Token.leaf (BitVec.ofNat 9 (val ((bin 9 v.toNat ++ rest).take 9)))).instr,
    (bin 9 v.toNat ++ rest).drop 9) = _
  rw [ofNat_val_bin, List.drop_left' (length_bin 9 _)]
  rfl

theorem decode_header_internal (rest : Bits) : decode .header (false :: rest) = .ok (.hdrInternal, rest) := rfl

/-- Settles O6: a command is found by its word, and a token or a magic field by the bits of its field. -/
theorem decodingAnEncodedInstructionGivesItBack : Obligations.DecodingAnEncodedInstructionGivesItBack := by
  intro i rest hwf
  cases hw : commandWord i with
  | some w =>
    rw [source_of_commandWord hw, encode_of_commandWord hw, decode_cmd_bin, decodeCommand_of_commandWord hwf hw]
  | none =>
    cases i with
    | hdrInternal => exact decode_header_internal rest
    | hdrLeaf v => exact decode_header_leaf v rest
    | magicField v => exact decode_magic_bin v rest
    | nop | count | rewind | build | gencodes | wrmagic | wrtree | encode | close | rdmagic | rdtree | decode
    | compress | decompress | clear | reserved _ => cases hw

/-! ### From bits to instructions and back -/

/-- What the header source can hold: an internal token, or a marker with 9 bits behind it. -/
theorem decode_header_eq_ok {b rest : Bits} {i : Instr} (h : decode .header b = .ok (i, rest)) :
    i.source = .header ∧ encode i ++ rest = b := by
  match b with
  | [] => cases h
  | false :: tail => cases h; exact ⟨rfl, rfl⟩
  | true :: tail =>
    rcases Nat.lt_or_ge tail.length 9 with hl | hl
    · have he : decode .header (true :: tail) = .error .shortLeaf := by
        rw [decode, decodeToken, if_pos (by exact hl)]
        rfl
      rw [he] at h
      cases h
    · have he := decode_header_leaf (BitVec.ofNat 9 (val (tail.take 9))) (tail.drop 9)
      rw [bin_ofNat_val_take hl, h] at he
      cases he
      exact ⟨rfl, congrArg (true :: ·) (bin_ofNat_val_take hl)⟩

theorem decode_magic_eq_ok {b rest : Bits} {i : Instr} (h : decode .magic b = .ok (i, rest)) :
    i.source = .magic ∧ encode i ++ rest = b := by
  rcases Nat.lt_or_ge b.length 32 with hl | hl
  · rw [decode, if_pos (by exact hl)] at h
    cases h
  · have he := decode_magic_bin (BitVec.ofNat 32 (val (b.take 32))) (b.drop 32)
    rw [bin_ofNat_val_take hl, h] at he
    cases he
    exact ⟨rfl, bin_ofNat_val_take hl⟩

theorem decode_cmd_eq_ok {b rest : Bits} {i : Instr} (h : decode .cmd b = .ok (i, rest)) :
    i.source = .cmd ∧ encode i ++ rest = b ∧ WellFormed i = true := by
  rcases Nat.lt_or_ge b.length 32 with hl | hl
  · rw [decode, if_pos (by exact hl)] at h
    cases h
  · have he := decode_cmd_bin (BitVec.ofNat 32 (val (b.take 32))) (b.drop 32)
    rw [bin_ofNat_val_take hl, h] at he
    cases he
    obtain ⟨hword, hwf⟩ := commandWord_decodeCommand (BitVec.ofNat 32 (val (b.take 32)))
    exact ⟨Machine.source_decodeCommand _, by rw [encode_of_commandWord hword, bin_ofNat_val_take hl], hwf⟩

/-- Settles O7: each source decodes by reading back what the encoder would have written. -/
theorem encodingADecodedInstructionGivesTheBitsBack : Obligations.EncodingADecodedInstructionGivesTheBitsBack := by
  intro src b rest i h
  cases src with
  | cmd =>
    obtain ⟨hsrc, hbits, hwf⟩ := decode_cmd_eq_ok h
    exact ⟨hsrc, hbits, fun _ => hwf⟩
  | header =>
    obtain ⟨hsrc, hbits⟩ := decode_header_eq_ok h
    exact ⟨hsrc, hbits, nofun⟩
  | magic =>
    obtain ⟨hsrc, hbits⟩ := decode_magic_eq_ok h
    exact ⟨hsrc, hbits, nofun⟩

end Sys2Proof
end

section
/-! PROOFS. One step: a command written to CMD, the host's other moves, the engine inside RDTREE and RDMAGIC, and reset
during a command (10_state.md R39, R44, 42_header_codec.md R145, R148, 70_reset_and_hazards.md R231, R241). -/

namespace Sys2Proof.Machine

/-! ### Host moves while BUSY = 0 (10_state.md R39, R43, R44) -/

theorem hostMove_writeCmd (w : Word) (s : State) : hostMove (.write 0 w) s = writeCmd w s := rfl

theorem hostMove_writeElsewhere {offset : Offset} {w : Word} {s : State} (h0 : offset ≠ 0)
    (ha : offset.toNat % 4 = 0) : hostMove (.write offset w) s = .next s := by
  have h0' : offset ≠ 0#16 := h0
  simp [hostMove, aligned, ha, h0']

theorem hostMove_read {offset : Offset} {s : State} (ha : offset.toNat % 4 = 0) :
    hostMove (.read offset) s = .next (readRegister offset s) := by
  simp [hostMove, aligned, ha]

/-- A read shows the register's value. -/
theorem readRegister_some {offset : Offset} {s : State} {v : Word} (h : s.register offset.toNat = some v) :
    readRegister offset s = { s with hostLog := s.hostLog ++ [.readValue offset v] } := by
  rw [readRegister, h]

/-- A read of an unspecified register draws a free value. -/
theorem readRegister_none {offset : Offset} {s : State} (h : s.register offset.toNat = none) :
    readRegister offset s = { s with
      hostLog := s.hostLog ++ [.readValue offset (Config.freeWord s.draws)], draws := s.draws + 1 } := by
  rw [readRegister, h]

theorem step_idle {s : State} (hb : s.busy = false) (hs : s.script = []) : step s = .next s := by
  rw [step, nextEvent, hs, hb]
  rfl

/-- Settles O9: the word written decodes to the instruction, and a CMD write runs it. -/
theorem stepRunsTheCommandWrittenToCmd : Obligations.StepRunsTheCommandWrittenToCmd := by
  intro s w i rest hb h
  have hd := decode_cmd_bin w []
  rw [List.append_nil, h] at hd
  cases hd
  exact (step_move hb).trans (hostMove_writeCmd w _)

/-- Settles O11: each move is one branch of `hostMove`, a read by whether the register has a value. -/
theorem hostMovesDoWhatTheyAreListedToDo : Obligations.HostMovesDoWhatTheyAreListedToDo := by
  intro s rest hb
  refine ⟨step_idle hb, fun _ => step_move hb, step_move hb, fun offset w h0 ha => ?_, fun offset v ha hv => ?_,
    fun offset ha hn => ?_⟩
  · exact (step_move hb).trans (hostMove_writeElsewhere h0 ha)
  · exact (step_move hb).trans ((hostMove_read ha).trans (congrArg _ (readRegister_some hv)))
  · exact (step_move hb).trans ((hostMove_read ha).trans (congrArg _ (readRegister_none hn)))

/-! ### While BUSY = 1 (70_reset_and_hazards.md R241) -/

theorem exec_busy {i : Instr} {s : State} (hi : i.source = .cmd) (hb : s.busy = true) :
    exec i s = .refused .hostBusy := by
  cases i with
  | hdrInternal | hdrLeaf _ | magicField _ => cases hi
  | clear => simp [exec, execClear, hb]
  | reserved w => simp [exec, execReserved, hb]
  | nop | count | rewind | build | gencodes | wrmagic | wrtree | encode | close | rdmagic | rdtree | decode
  | compress | decompress => exact runCommand_busy hb

/-- With a move to come that the host may not make yet, the engine goes on. -/
theorem step_waits {s : State} {m : HostMove} {rest : List HostMove} (hb : s.busy = true)
    (hm : allowedWhileBusy m = false) :
    step { s with script := m :: rest } = engineStep { s with script := m :: rest } := by
  simp [step, nextEvent, hb, hm]

/-- A move the host may make at any time comes first. -/
theorem step_allowed {m : HostMove} (hm : allowedWhileBusy m = true) (s : State) (rest : List HostMove) :
    step { s with script := m :: rest } = hostMove m { s with script := rest } := by
  simp [step, nextEvent, hm]

theorem step_engine {s : State} (hb : s.busy = true) (hs : s.script = []) : step s = engineStep s := by
  simp [step, nextEvent, hb, hs]

/-- Settles O12: a command is refused, and `nextEvent` lets only the allowed moves pass the engine. -/
theorem onlyStatusReadsAndResetComeWhileBusy : Obligations.OnlyStatusReadsAndResetComeWhileBusy :=
  fun s rest hb => ⟨fun _ hi => exec_busy hi hb, fun _ hm => step_waits hb hm, step_allowed rfl s rest,
    step_reset s rest⟩

/-! ### The engine inside RDTREE and RDMAGIC (42_header_codec.md R145, R148) -/

theorem engineStep_token {s t : State} {tok : Token} (hop : s.curOp = 0x0A) (h : fetchToken s = .token tok t) :
    engineStep s = exec tok.instr t := by
  rw [engineStep, if_pos hop, h]

theorem engineStep_raised {s t : State} (hop : s.curOp = 0x0A) (h : fetchToken s = .raised t) :
    engineStep s = .next t := by
  rw [engineStep, if_pos hop, h]

/-- An error inside the command with opcode op. -/
theorem raise_entry {e : ErrorKind} {sub : BitVec 8} {data : Word} {op : Byte} {s : State} (hop : s.curOp = op) :
    ErrorEntry e.code sub op data s (raise e sub data s) := by
  rw [← hop]
  exact raiseAs_entry s.curOp e sub data s

/-- The engine inside RDTREE, at a token. -/
theorem engineStep_header_ok {s : State} {i : Instr} {rest : Bits} (hop : s.curOp = 0x0A) (hm : s.marks.toNat < 513)
    (h : decode .header s.unread = .ok (i, rest)) :
    ∃ trace, engineStep s = exec i { s with
      inPos := s.inPos + (encode i).length, marks := s.marks + 1, portTrace := trace } := by
  obtain ⟨hsrc, hbits⟩ := decode_header_eq_ok h
  cases i with
  | hdrInternal => exact ⟨_, engineStep_token hop (fetchToken_internal hbits.symm hm)⟩
  | hdrLeaf v =>
    have hf := fetchToken_leaf (rest := bin 9 v.toNat ++ rest) hbits.symm hm (by simp)
    rw [ofNat_val_bin] at hf
    have hlen : s.inPos + (encode (.hdrLeaf v)).length = s.inPos + 1 + 9 := by
      simp [encode, Config.leafBits]
    rw [hlen]
    exact ⟨_, engineStep_token hop hf⟩
  | nop | count | rewind | build | gencodes | wrmagic | wrtree | encode | close | rdmagic | rdtree | decode
  | compress | decompress | clear | reserved _ | magicField _ => cases hsrc

theorem decode_header_noMarker {b : Bits} (h : decode .header b = .error .noMarker) : b = [] := by
  match b with
  | [] => rfl
  | false :: _ => cases h
  | true :: tail =>
    rw [decode, decodeToken] at h
    split at h <;> cases h

theorem decode_header_shortLeaf {b : Bits} (h : decode .header b = .error .shortLeaf) :
    ∃ tail, b = true :: tail ∧ tail.length < 9 := by
  match b with
  | [] => cases h
  | false :: _ => cases h
  | true :: tail =>
    rw [decode, decodeToken] at h
    split at h
    · next hl => exact ⟨tail, rfl, hl⟩
    · cases h

/-- The engine inside RDMAGIC, at a whole field. -/
theorem engineStep_magic_ok {s : State} {i : Instr} {rest : Bits} (hop : s.curOp = 0x09)
    (h : decode .magic s.unread = .ok (i, rest)) :
    ∃ trace, engineStep s = exec i { s with inPos := s.inPos + 32, portTrace := trace } := by
  have hne : s.curOp ≠ 0x0A := by rw [hop]; decide
  rcases Nat.lt_or_ge s.unread.length 32 with hl | hl
  · rw [decode, if_pos (by exact hl)] at h
    cases h
  · have hd := decode_magic_bin (BitVec.ofNat 32 (val (s.unread.take 32))) (s.unread.drop 32)
    rw [bin_ofNat_val_take hl, h] at hd
    cases hd
    rw [engineStep, if_neg hne, if_pos hop, Config.magicBits, readBits_some hl (by omega)]
    exact ⟨_, rfl⟩

theorem decode_magic_short {b : Bits} {e : DecodeError} (h : decode .magic b = .error e) : b.length < 32 := by
  by_contra hl
  rw [decode, if_neg (by exact hl)] at h
  cases h

theorem engineStep_magic_short {s : State} (hop : s.curOp = 0x09) (hl : s.unread.length < 32) :
    engineStep s = .next (raise .badMagicNumber 1 0 (s.seek s.inBits.length)) := by
  have hne : s.curOp ≠ 0x0A := by rw [hop]; decide
  rw [engineStep, if_neg hne, if_pos hop, Config.magicBits, readBits_none hl]

/-- Settles O10: the decoder and `fetchToken` see the same bits; the marker count decides before a leaf's field is
read. -/
theorem stepRunsTheTokenAtTheFrontOfIn : Obligations.StepRunsTheTokenAtTheFrontOfIn := by
  intro s hb hs
  rw [step_engine hb hs]
  refine ⟨fun hop hm i rest h => engineStep_header_ok hop hm h, fun hop h => ?noMarker, fun hop hm h => ?shortLeaf,
    fun hop hm hu => ?tooMany, fun hop i rest h => engineStep_magic_ok hop h, fun hop h => ?shortMagic⟩
  case noMarker =>
    exact ⟨_, _, engineStep_raised hop (fetchToken_eos (decode_header_noMarker h)),
      raise_entry (s := s.seek s.inBits.length) hop⟩
  case shortLeaf =>
    obtain ⟨tail, hu, hl⟩ := decode_header_shortLeaf h
    exact ⟨_, _, engineStep_raised hop (fetchToken_short hu hm hl),
      raise_entry (s := (countMark (s.seek (s.inPos + 1))).seek s.inBits.length) hop⟩
  case tooMany =>
    obtain ⟨x, tail, hu⟩ := List.exists_cons_of_ne_nil hu
    exact ⟨_, _, engineStep_raised hop (fetchToken_full hu hm),
      raise_entry (s := countMark (s.seek (s.inPos + 1))) hop⟩
  case shortMagic =>
    exact ⟨_, _, engineStep_magic_short hop (decode_magic_short h), raise_entry (s := s.seek s.inBits.length) hop⟩

/-! ### Reset during a command (70_reset_and_hazards.md R231) -/

/-- The places of a command's run: where it started, and the ones of its trace, all inside IN and OUT. -/
theorem PortsMove.mark_bounds {s t : State} {m : PortMark} (h : PortsMove s t) (hs : s.portTrace = [])
    (hi : s.inPos ≤ s.inBits.length) (hm : m ∈ s.portMark :: t.portTrace) :
    m.inPos ≤ t.inBits.length ∧ s.outBits.length ≤ m.outLen ∧ m.outLen ≤ t.outBits.length := by
  obtain ⟨l, htrace, hl⟩ := h.trace
  rw [hs, List.append_nil] at htrace
  rcases List.mem_cons.mp hm with rfl | hm
  · exact ⟨h.inBits ▸ hi, le_rfl, h.outBits.length_le⟩
  · obtain ⟨hin, hlo, hhi⟩ := hl m (htrace ▸ hm)
    exact ⟨hin hi, hlo, hhi⟩

theorem hostMove_writeThenReset {w : Word} {s t : State} (h : writeCmd w s = .next t) :
    hostMove (.writeThenReset w) s = .next (resetInside s t) := by
  rw [hostMove, h]
  rfl

theorem pickMark_reverse_mem (first : PortMark) (l : List PortMark) (n : Nat) :
    pickMark first l.reverse n ∈ first :: l := by
  have := mem_pickMark first l.reverse n
  rwa [List.mem_cons, List.mem_reverse, ← List.mem_cons] at this

/-- Settles O18: the place is picked among the marks of the command's own trace. -/
theorem resetDuringACommandStopsBetweenStreamOperations :
    Obligations.ResetDuringACommandStopsBetweenStreamOperations := by
  intro s rest w t hb hi h
  have hmem := pickMark_reverse_mem s.portMark t.portTrace (Config.freeChoice t.draws)
  exact ⟨_, hmem, t.draws + 1, (step_move hb).trans (hostMove_writeThenReset (s := { s with script := rest }) h),
    (exec_ports h).mark_bounds rfl hi hmem⟩

end Sys2Proof.Machine
end

section
/-! PROOFS. Every command ends, and every step keeps the invariant (10_state.md R26, R33 to R38, R61,
70_reset_and_hazards.md R246, R247). -/

namespace Sys2Proof.Machine

/-! ### Commands (70_reset_and_hazards.md R246) -/

theorem clearAll_inv {s : State} (h : s.Inv) : (clearAll s).Inv := by
  refine ⟨⟨h.flags.idle, ?_, ?_, ?_, ?_, ?_⟩, h.width, h.inPos, h.hidden, ?_, ?_, ?_, ?_⟩ <;> simp

theorem illegalWord_inv {w : Word} {s : State} (h : s.Inv) : (illegalWord w s).Inv := by
  rw [illegalWord]
  split <;> exact raiseAs_inv h.width h.inPos

/-- Every command ends, with BUSY = 0, and keeps the invariant. -/
theorem exec_ends {i : Instr} (hi : i.source = .cmd) {s : State} (h : s.Inv) :
    ∃ t, exec i s = .next t ∧ t.busy = false ∧ t.Inv := by
  have hb := h.flags.idle
  cases i with
  | nop => exact runCommand_ends nopPrim_ends h
  | count => exact runCommand_ends countPrim_ends h
  | rewind => exact runCommand_ends rewindPrim_ends h
  | build => exact runCommand_ends buildPrim_ends h
  | gencodes => exact runCommand_ends gencodesPrim_ends h
  | wrmagic => exact runCommand_ends wrmagicPrim_ends h
  | wrtree => exact runCommand_ends wrtreePrim_ends h
  | encode => exact runCommand_ends encodePrim_ends h
  | close => exact runCommand_ends closePrim_ends h
  | rdmagic => exact runCommand_ends rdmagicPrim_ends h
  | rdtree => exact runCommand_ends rdtreePrim_ends h
  | decode => exact runCommand_ends decodePrim_ends h
  | compress => exact runCommand_ends compressPrim_ends h
  | decompress => exact runCommand_ends decompressPrim_ends h
  | clear =>
    cases he : s.err with
    | true => exact ⟨_, exec_clear_errored hb he, hb, clearAll_inv h⟩
    | false =>
      have e : exec .clear s = runCommand clearPrim s := by simp [exec, execClear, hb, he]
      rw [e]
      exact runCommand_ends clearPrim_ends h
  | reserved w =>
    cases he : s.err with
    | true => exact ⟨s, exec_ignored rfl (by simp) hb he, hb, h⟩
    | false =>
      have hinv := illegalWord_inv (w := w) h
      exact ⟨_, exec_reserved_ready ⟨hb, he⟩, hinv.flags.idle, hinv⟩
  | hdrInternal | hdrLeaf _ | magicField _ => cases hi

/-- Settles O57: each pseudocode ends in every state that meets the invariant, and `finish` clears BUSY. -/
theorem everyCommandEnds : Obligations.EveryCommandEnds := by
  intro i s h hi
  obtain ⟨t, e, hb, -⟩ := exec_ends hi h
  exact ⟨t, e, hb⟩

/-! ### Steps -/

theorem writeCmd_inv {w : Word} {s t : State} (h : s.Inv) (e : writeCmd w s = .next t) : t.Inv := by
  have h' : State.Inv { s with portTrace := [] } := h.congr (by rfl) h.inPos
  obtain ⟨t', e', -, hinv⟩ := exec_ends (source_decodeCommand w) h'
  obtain rfl : t = t' := Host.Outcome.next.inj (e.symm.trans e')
  exact hinv

theorem readRegister_inv {offset : Offset} {s : State} (h : s.Inv) : (readRegister offset s).Inv := by
  rw [readRegister]
  split <;> exact h.congr (by rfl) h.inPos

/-- Where reset stops a command, INPOS is a position of IN. -/
theorem resetInside_inv {w : Word} {s t : State} (h : s.Inv) (e : writeCmd w s = .next t) : (resetInside s t).Inv := by
  have hwidth := (writeCmd_inv h e).width
  have hmem := pickMark_reverse_mem s.portMark t.portTrace (Config.freeChoice t.draws)
  obtain ⟨hin, -, -⟩ := (exec_ports (s := { s with portTrace := [] }) e).mark_bounds rfl h.inPos hmem
  exact resetBlock_inv _ hwidth hin

theorem hostMove_inv {m : HostMove} {s t : State} (h : s.Inv) (e : hostMove m s = .next t) : t.Inv := by
  cases m with
  | write offset w =>
    rw [hostMove] at e
    split at e
    · cases e
    · split at e
      · exact writeCmd_inv h e
      · cases e
        exact h
  | read offset =>
    rw [hostMove] at e
    split at e
    · cases e
      exact readRegister_inv h
    · cases e
  | attachIn b =>
    cases e
    exact h.congr (by rfl) (Nat.zero_le _)
  | takeOut =>
    cases e
    exact h.congr (by rfl) h.inPos
  | reset =>
    cases e
    exact resetBlock_inv s h.width h.inPos
  | writeThenReset w =>
    obtain ⟨u, hu, hreset⟩ := andThen_eq_next e
    cases hreset
    exact resetInside_inv h hu

/-- Settles O56: between steps BUSY = 0, so a step is the host's next move or nothing. -/
theorem everyStepKeepsTheInvariant : Obligations.EveryStepKeepsTheInvariant := by
  intro s t h e
  cases hs : s.script with
  | nil =>
    rw [step_idle h.flags.idle hs] at e
    cases e
    exact h
  | cons m rest =>
    have hs' : s = { s with script := m :: rest } := by rw [← hs]
    rw [hs', step_move h.flags.idle] at e
    exact hostMove_inv (s := { s with script := rest }) (h.congr (by rfl) h.inPos) e

theorem reset_eq_resetBlock : State.reset = resetBlock State.reset := rfl

/-- Settles O55: what reset leaves meets the invariant in any state, State.reset among them. -/
theorem invariantHoldsAfterReset : Obligations.InvariantHoldsAfterReset := by
  rw [Obligations.InvariantHoldsAfterReset, reset_eq_resetBlock]
  exact resetBlock_inv State.reset (by decide) le_rfl

end Sys2Proof.Machine
end

section
/-! PROOFS. GENCODES and ENCODE on what they complete on, RDTREE on every bit string, and the preconditions
(30_encoding.md R81, R82, 41_code_table.md R130, 42_header_codec.md R148, 43_encoder.md R160). -/

namespace Sys2Proof.Machine

/-! ### GENCODES (41_code_table.md R130, R132, R133) -/

theorem codeFor_absent {t : HTree} (hh : t.height ≤ 256) {i : Fin 257} (hi : BitVec.ofNat 9 i.val ∉ t.symbols) :
    codeFor t i = Code.absent := by
  rcases codeFor_cases hh i with ⟨-, habsent⟩ | ⟨b, hmem, -⟩
  · exact habsent
  · exact absurd (HTree.map_fst_codeList t ▸ List.mem_map_of_mem (f := Prod.fst) hmem) hi

/-- Settles O34: the table is `codeFor` of the tree at ROOT, whose symbols are distinct. -/
theorem gencodesRecordsThePathToEachLeaf : Obligations.GencodesRecordsThePathToEachLeaf := by
  intro s h hinv hv hsrc
  have hok := hinv.tree hv
  obtain ⟨tree, ht, -, -⟩ := TreeOk.tree hok
  obtain ⟨t, e, hcodes, hframe⟩ := exec_gencodes_ready h hinv hv hsrc ht
  have hheight := TreeOk.height hok ht
  have hnodup := nodup_symbols hok (hinv.built hv hsrc) ht
  refine ⟨t, tree, e, ht, fun i p hp => ?_, fun i hi => ?_, hframe⟩
  · have hbits := codeFor_bits_of_mem hnodup hp
    rw [hcodes, codeFor_len_eq_length hheight, hbits]
    exact ⟨rfl, rfl⟩
  · rw [hcodes, codeFor_absent hheight hi]
    exact ⟨rfl, rfl⟩

/-! ### ENCODE (43_encoder.md R160) -/

/-- Settles O45: with a code for every byte and for symbol 256 the loop and the end of ENCODE write each in turn. -/
theorem encodeWritesEachCodeThenTheEndCode : Obligations.EncodeWritesEachCodeThenTheEndCode := by
  intro s bs rest h hv hu hr hc hz
  obtain ⟨trace, e⟩ := exec_encode_ready h hv hu hr hc hz
  exact ⟨_, e, rfl⟩

/-! ### RDTREE (42_header_codec.md R148, 44_decoder.md R174) -/

/-- Settles O38: a header with room for its nodes is read to its end, and the nodes are made with weight 0. -/
theorem rdtreeRebuildsTheTreeOfAHeader : Obligations.RdtreeRebuildsTheTreeOfAHeader := by
  intro s tree rest h hu hs hz
  obtain ⟨t, e, hheld, hok, hcount, hmarks, hweight, hframe⟩ := exec_rdtree_header h hu hs hz
  refine ⟨t, e, hheld, hok, hcount, hmarks, fun x d hx hd => ?_, hframe⟩
  have h0 := hweight x hx
  rw [hd] at h0
  exact Option.some.inj h0

/-- IN begins with the header of a tree that fits the node store and whose leaves are symbols. -/
def AtHeader (s : State) : Prop :=
  ∃ (tree : HTree) (rest : Bits), s.unread = tree.header ++ rest ∧ tree.symbolsOk = true ∧ tree.size ≤ 513

theorem ErrorEntry.errCode {code : BitVec 4} {sub op : BitVec 8} {data : Word} {s t : State}
    (h : ErrorEntry code sub op data s t) : t.errCode = code := by
  rw [show t = _ from h]

theorem exec_rdtree_completes {s : State} (h : s.Ready) (hat : AtHeader s) :
    ∃ t, exec .rdtree s = .next t ∧ t.err = false := by
  obtain ⟨tree, rest, hu, hs, hz⟩ := hat
  obtain ⟨t, e, -, -, -, -, -, hframe⟩ := exec_rdtree_header h hu hs hz
  exact ⟨t, e, hframe ▸ h.2⟩

/-- A bit string that is no header breaks the grammar in one of the four ways of 60_exceptions.md R202. -/
theorem exec_rdtree_raises {s : State} (h : s.Ready) (hat : ¬ AtHeader s) :
    ∃ t, exec .rdtree s = .next t ∧ t.err = true ∧ t.errCode = 2 := by
  have raised {sub : BitVec 8} {data : Word} {m : State → State}
      (hx : ∃ t, exec .rdtree s = .next t ∧ ErrorEntry 2 sub 0x0A data (m t) t) :
      ∃ t, exec .rdtree s = .next t ∧ t.err = true ∧ t.errCode = 2 := by
    obtain ⟨t, e, herror⟩ := hx
    exact ⟨t, e, herror.raised, herror.errCode⟩
  have ways (ts : List Token) (n : Nat) (rest : Bits) (hm : missingAfter 1 ts = some (n + 1)) (hl : ts.length ≤ 513) :=
    rdtreeRaisesMalformedHeader s ts rest h (headerFront_iff.mpr ⟨n, hm⟩) hl
  cases reading 513 1 s.unread with
  | whole ts rest hu hm hl =>
    obtain ⟨tree, rfl, hs⟩ := tree_of_missing hm
    rw [HTree.flatMap_tokens] at hu
    rw [HTree.length_tokens] at hl
    exact absurd ⟨tree, rest, hu, hs, hl⟩ hat
  | noMarker ts n hu hm hl =>
    obtain ⟨noMarker, -⟩ := ways ts n [] hm hl
    exact raised (noMarker hu)
  | shortField ts n rest hu hr hm hl =>
    obtain ⟨-, shortField, -⟩ := ways ts n rest hm hl.le
    exact raised (shortField hu hl hr)
  | badSymbol ts n v hv rest hu hm hl =>
    obtain ⟨-, -, badSymbol, -⟩ := ways ts n rest hm hl.le
    exact raised (badSymbol v hv hu hl)
  | tooMany ts n x rest hu hm hl =>
    obtain ⟨-, -, -, tooMany⟩ := ways ts n rest hm hl.le
    exact raised (tooMany x hu hl)

/-- Settles O40: RDTREE completes on a header and raises on anything else. -/
theorem rdtreeCompletesExactlyOnHeaders : Obligations.RdtreeCompletesExactlyOnHeaders := by
  intro s h
  by_cases hat : AtHeader s
  · obtain ⟨t, e, he⟩ := exec_rdtree_completes h hat
    exact ⟨t, e, by simp [he], fun _ => hat, fun _ => he⟩
  · obtain ⟨t, e, he, hcode⟩ := exec_rdtree_raises h hat
    exact ⟨t, e, fun _ => hcode, by simp [he], fun hx => absurd hx hat⟩

/-! ### The stream rows (30_encoding.md R87, R89; log 4) -/

theorem inside_of {s : State} {op : Byte} (hb : s.busy = true) (hop : s.curOp = op) : s.inside op = true := by
  simp [State.inside, hb, hop]

/-- What a token on its own ends in: the command is over when the tree is complete or an error was raised. -/
def Parsed.outcome : Parsed → Outcome
  | .more u | .raised u => .next u
  | .complete u => .next { u with busy := false }
  | .full => .fault .nodeStoreFull

theorem oneToken_inside {tok : Token} {s : State} (hb : s.busy = true) (hop : s.curOp = 0x0A) :
    oneToken tok s = (takeToken tok s).outcome := by
  rw [oneToken, if_pos (inside_of hb hop)]
  cases takeToken tok s <;> rfl

/-- Settles O42: an internal token pushes a call of rd() and reads nothing. -/
theorem internalTokenAsksForTwoSubtrees : Obligations.InternalTokenAsksForTwoSubtrees :=
  fun _ hb hop => oneToken_inside (tok := .internal) hb hop

theorem exec_magicField_inside {v : Word} {s : State} (hb : s.busy = true) (hop : s.curOp = 0x09) :
    exec (.magicField v) s = finish (.next (checkMagic v s)) := by
  rw [exec, execMagicField, if_pos (inside_of hb hop)]

/-- Settles O44: the field is RDMAGIC's test of it and the end of the command. -/
theorem magicFieldIsComparedWithMagic : Obligations.MagicFieldIsComparedWithMagic := by
  intro v s hb hop
  rw [exec_magicField_inside hb hop]
  refine ⟨fun hv => by rw [checkMagic_of_eq hv, finish_next], fun hv _ => ?_⟩
  have herror : ErrorEntry 1 2 0x09 v s (raise .badMagicNumber 2 v s) := raise_entry hop
  rw [checkMagic_of_ne hv]
  exact ⟨_, herror.finish_eq, herror⟩

/-! ### A leaf token (42_header_codec.md R148) -/

theorem afterClosing_cases (st : List RdFrame) :
    afterClosing st = [] ∨ ∃ up, afterClosing st = .waitLeft :: up := by
  induction st with
  | nil => exact .inl rfl
  | cons f st ih =>
    cases f with
    | waitLeft => exact .inr ⟨st, rfl⟩
    | waitRight l => exact ih

/-- What the calls of rd() that a finished subtree ends leave: their nodes over one another, from the node before the
first of them up, and the store below untouched. -/
structure Closed (st : List RdFrame) (s u : State) : Prop where
  ncount : u.ncount.toNat = s.ncount.toNat + (closing st).length
  made : ∀ j l, (closing st)[j]? = some l →
    u.nodes[s.ncount.toNat + j]? = some (parentNode 0 l (BitVec.ofNat 10 (s.ncount.toNat + j - 1)))
  kept : ∀ x, x < s.ncount.toNat ∨ u.ncount.toNat ≤ x → u.nodes[x]? = s.nodes[x]?
  frame : u = { s with nodes := u.nodes, ncount := u.ncount }

/-- The node a finished subtree ends in, once the calls it ends have made theirs. -/
def lastNode (st : List RdFrame) (s : State) : NodeIx := BitVec.ofNat 10 (s.ncount.toNat + (closing st).length - 1)

/-- How rd() goes on when the calls that end have ended: the next call waits for its right subtree, or the tree is
complete. -/
def goesOn : List RdFrame → NodeIx → State → Parsed
  | .waitLeft :: up, i, u => .more { u with rdStack := .waitRight i :: up }
  | _, i, u => .complete { u with root := i, treeSrc := true, treeValid := true, rdStack := [] }

/-- A subtree that ends no call ends in its own node. -/
theorem lastNode_eq {st : List RdFrame} {i : NodeIx} {s : State} (h : closing st = [])
    (hi : i.toNat + 1 = s.ncount.toNat) : lastNode st s = i := by
  rw [lastNode, h, List.length_nil, Nat.add_zero, ← hi, Nat.add_sub_cancel, BitVec.ofNat_toNat, BitVec.setWidth_eq]

theorem Closed.refl {st : List RdFrame} (h : closing st = []) (s : State) : Closed st s s :=
  ⟨by rw [h]; rfl, by simp [h], fun _ _ => rfl, rfl⟩

theorem subtreeDone_waitRight {l i p : NodeIx} {st : List RdFrame} {s v : State}
    (h : newNode (parentNode 0 l i) s = some (p, v)) : subtreeDone (.waitRight l :: st) i s = subtreeDone st p v := by
  rw [parentNode] at h
  rw [subtreeDone, h]

/-- One call makes its node over the finished subtree, and the others go on from there. -/
theorem Closed.cons {l i p : NodeIx} {st : List RdFrame} {s v u : State}
    (h : newNode (parentNode 0 l i) s = some (p, v)) (hi : i.toNat + 1 = s.ncount.toNat) (C : Closed st v u) :
    Closed (.waitRight l :: st) s u := by
  have hcount := newNode_ncount h
  have hlen : (closing (.waitRight l :: st)).length = (closing st).length + 1 := rfl
  have hsize := C.ncount
  refine ⟨by omega, fun j l' hj => ?_, fun x hx => ?_, ?_⟩
  · cases j with
    | zero =>
      cases hj
      rw [Nat.add_zero, C.kept _ (.inl (by omega)), newNode_nodes h, if_pos rfl, ← hi, Nat.add_sub_cancel,
        BitVec.ofNat_toNat, BitVec.setWidth_eq]
    | succ j =>
      have hmade := C.made j l' hj
      rw [hcount] at hmade
      rw [show s.ncount.toNat + (j + 1) = s.ncount.toNat + 1 + j by omega]
      exact hmade
  · rw [C.kept x (by omega), newNode_nodes h, if_neg (by omega)]
  · have hframe := C.frame
    rw [newNode_frame h] at hframe
    exact hframe

theorem subtreeDone_closes (st : List RdFrame) {i : NodeIx} {s : State} (hi : i.toNat + 1 = s.ncount.toNat)
    (hc : s.ncount.toNat + (closing st).length ≤ 513) :
    ∃ u, subtreeDone st i s = goesOn (afterClosing st) (lastNode st s) u ∧ Closed st s u := by
  induction st generalizing i s with
  | nil =>
    rw [lastNode_eq rfl hi]
    exact ⟨s, rfl, .refl rfl s⟩
  | cons f st ih =>
    cases f with
    | waitLeft =>
      rw [lastNode_eq rfl hi]
      exact ⟨s, rfl, .refl rfl s⟩
    | waitRight l =>
      rw [closing, List.length_cons] at hc
      obtain ⟨v, hnew⟩ : ∃ v, newNode (parentNode 0 l i) s = some (s.ncount, v) := ⟨_, newNode_some (by omega)⟩
      have hcount := newNode_ncount hnew
      obtain ⟨u, e, C⟩ := ih (i := s.ncount) (s := v) hcount.symm (by omega)
      have hlast : lastNode (.waitRight l :: st) s = lastNode st v := by
        rw [lastNode, lastNode, hcount, closing, List.length_cons, Nat.add_assoc, Nat.add_comm 1]
      rw [subtreeDone_waitRight hnew, hlast]
      exact ⟨u, e, C.cons hnew hi⟩

/-- A leaf token that is no symbol is an error. -/
theorem takeToken_badSymbol {v : Symbol} {s : State} (h : 256 < v.toNat) :
    takeToken (.leaf v) s = .raised (raise .malformedHeader 3 (v.setWidth 32) s) :=
  if_pos (by rw [gt_iff_lt, BitVec.lt_def]; exact h)

/-- A leaf token that is a symbol makes its leaf, and its subtree is finished. -/
theorem takeToken_symbol {v : Symbol} {s t : State} {i : NodeIx} (h : v.toNat ≤ 256)
    (hnew : newNode (leafNode v 0) s = some (i, t)) : takeToken (.leaf v) s = subtreeDone s.rdStack i t := by
  have hle : ¬ v > 256 := by rw [gt_iff_lt, BitVec.lt_def]; exact Nat.not_lt.mpr h
  have hstack : t.rdStack = s.rdStack := by rw [newNode_frame hnew]
  rw [leafNode] at hnew
  rw [takeToken, if_neg hle, hnew, ← hstack]

/-- The state in which rd() goes on, or has made the tree. -/
theorem goesOn_outcome (st : List RdFrame) (i : NodeIx) (u : State) :
    ∃ t, (goesOn (afterClosing st) i u).outcome = .next t ∧ t.nodes = u.nodes ∧ t.ncount = u.ncount ∧
      (∀ up, afterClosing st = .waitLeft :: up → t = { u with rdStack := .waitRight i :: up }) ∧
      (afterClosing st = [] →
        t = { u with root := i, treeValid := true, treeSrc := true, rdStack := [], busy := false }) := by
  rcases afterClosing_cases st with h | ⟨up, h⟩
  · rw [h]
    exact ⟨_, rfl, rfl, rfl, nofun, fun _ => rfl⟩
  · rw [h]
    refine ⟨_, rfl, rfl, rfl, fun up' h' => ?_, nofun⟩
    cases h'
    rfl

/-- Settles O43: the leaf is the node the finished calls start from, and what waits after them tells how rd() goes on. -/
theorem leafTokenMakesTheLeafAndEndsItsParents : Obligations.LeafTokenMakesTheLeafAndEndsItsParents := by
  intro sym s hb hop
  have hexec : exec (.hdrLeaf sym) s = (takeToken (.leaf sym) s).outcome := oneToken_inside hb hop
  refine ⟨fun hbad => ?_, fun hsym hroom => ?_⟩
  · rw [hexec, takeToken_badSymbol hbad]
    exact ⟨_, rfl, raise_entry hop⟩
  · obtain ⟨v, hnew⟩ : ∃ v, newNode (leafNode sym 0) s = some (s.ncount, v) := ⟨_, newNode_some (by omega)⟩
    have hcount := newNode_ncount hnew
    obtain ⟨u, hdone, C⟩ := subtreeDone_closes s.rdStack (i := s.ncount) (s := v) hcount.symm (by omega)
    have hlast : lastNode s.rdStack v = BitVec.ofNat 10 (s.ncount.toNat + (closing s.rdStack).length) := by
      rw [lastNode, hcount, Nat.add_right_comm, Nat.add_sub_cancel]
    have hframe : u = { s with nodes := u.nodes, ncount := u.ncount } := by
      have h := C.frame
      rw [newNode_frame hnew] at h
      exact h
    rw [hlast] at hdone
    obtain ⟨t, houtcome, hnodes, htcount, hmore, hcomplete⟩ :=
      goesOn_outcome s.rdStack (BitVec.ofNat 10 (s.ncount.toNat + (closing s.rdStack).length)) u
    have htsize : t.ncount.toNat = s.ncount.toNat + 1 + (closing s.rdStack).length := by
      rw [htcount, C.ncount, hcount]
    refine ⟨t, ?_, htsize, ?_, fun j l hj => ?_, fun x hx => ?_, fun up hup => ?_, fun hup => ?_⟩
    · rw [hexec, takeToken_symbol hsym hnew, hdone, houtcome]
    · rw [hnodes, C.kept _ (.inl (by omega)), newNode_nodes hnew, if_pos rfl]
    · have hmade := C.made j l hj
      rw [hcount, Nat.add_right_comm, Nat.add_sub_cancel] at hmade
      rw [hnodes, Nat.add_right_comm]
      exact hmade
    · rw [hnodes, C.kept x (by rw [← htcount]; omega), newNode_nodes hnew, if_neg (by omega)]
    · rw [hmore up hup]
      exact congrArg (fun w : State => { w with
        rdStack := .waitRight (BitVec.ofNat 10 (s.ncount.toNat + (closing s.rdStack).length)) :: up }) hframe
    · rw [hcomplete hup]
      exact congrArg (fun w : State => { w with
        root := BitVec.ofNat 10 (s.ncount.toNat + (closing s.rdStack).length)
        treeValid := true, treeSrc := true, rdStack := [], busy := false }) hframe

end Sys2Proof.Machine
end

section
/-! PROOFS. STATUS, and the preconditions of the commands (10_state.md R36, 30_encoding.md R81, R82, 60_exceptions.md
R205). -/

namespace Sys2Proof.Machine

/-! ### STATUS (10_state.md R36) -/

theorem getLsbD_bitAt (b : Bool) {i : Nat} (j : Nat) (hi : i < 32) :
    (bitAt b i).getLsbD j = (b && decide (i = j)) := by
  cases b with
  | false => simp [bitAt]
  | true => simp [bitAt, BitVec.getLsbD_twoPow, hi]

/-- A bit of STATUS is a flag, or a bit of ERRCODE from bit 8 up. -/
theorem getLsbD_status (s : State) {j : Nat} (hj : j < 32) : s.status.getLsbD j =
    ((s.busy && decide (0 = j)) || (s.err && decide (1 = j)) || (s.freqValid && decide (2 = j)) ||
      (s.treeValid && decide (3 = j)) || (s.treeSrc && decide (4 = j)) || (s.codesValid && decide (5 = j)) ||
      (decide (8 ≤ j) && s.errCode.getLsbD (j - 8))) := by
  have hlt : j - 8 < 32 := by omega
  simp only [State.status, BitVec.getLsbD_or, getLsbD_bitAt, Nat.reduceLT, BitVec.getLsbD_shiftLeft, hj,
    BitVec.getLsbD_setWidth, hlt, decide_true, Bool.true_and, ← decide_not, not_lt]

theorem status_errCode (s : State) : s.status.extractLsb' 8 4 = s.errCode := by
  ext i hi
  rw [BitVec.getElem_extractLsb', getLsbD_status s (by omega)]
  have hne : ¬ 0 = 8 + i ∧ ¬ 1 = 8 + i ∧ ¬ 2 = 8 + i ∧ ¬ 3 = 8 + i ∧ ¬ 4 = 8 + i ∧ ¬ 5 = 8 + i := by omega
  simp [hne, hi]

/-- Bits 6, 7 and those above ERRCODE are 0. -/
theorem status_unused (s : State) {k n : Nat} (h : k = 6 ∧ n = 2 ∨ 12 ≤ k ∧ k + n ≤ 32) :
    s.status.extractLsb' k n = 0 := by
  ext i hi
  rw [BitVec.getElem_extractLsb', getLsbD_status s (by omega)]
  have hne : ¬ 0 = k + i ∧ ¬ 1 = k + i ∧ ¬ 2 = k + i ∧ ¬ 3 = k + i ∧ ¬ 4 = k + i ∧ ¬ 5 = k + i := by omega
  have hcode : 8 ≤ k + i → s.errCode.getLsbD (k + i - 8) = false := fun _ => BitVec.getLsbD_of_ge _ _ (by omega)
  simpa [hne] using hcode

/-- Settles O13: each bit of STATUS is one flag or one bit of ERRCODE, and a write to it is a write elsewhere. -/
theorem statusHoldsTheFlagsAndTheErrorCode : Obligations.StatusHoldsTheFlagsAndTheErrorCode := by
  refine ⟨fun s => ⟨rfl, ?_, ?_, ?_, ?_, ?_, ?_, status_unused s (by omega), status_errCode s,
    status_unused s (by omega), fun hf he => ?_, fun w rest hb => ?_⟩, by decide⟩
  iterate 6 rw [getLsbD_status s (by omega)]; simp
  · rw [status_errCode, (hf.noError he).1]
  · exact (step_move hb).trans (hostMove_writeElsewhere (by decide) (by decide))

/-! ### Preconditions (30_encoding.md R82, 60_exceptions.md R205) -/

/-- A command raises the SequenceError of its first unmet precondition. -/
theorem runCommand_unmet {p : Primitive} {s : State} {q : Precondition} (h : s.Ready)
    (hq : firstUnmet p.needs s = some q) :
    ∃ t, runCommand p s = .next t ∧ ErrorEntry 7 q.subcause p.op (p.op.setWidth 32) { s with curOp := p.op } t := by
  have hq' : firstUnmet p.needs { s with busy := true, curOp := p.op } = some q :=
    (firstUnmet_congr (s := s) rfl rfl rfl rfl).trans hq
  refine ⟨_, (runCommand_ready h).trans (congrArg finish (run_unmet hq')), rfl⟩

theorem firstUnmet_cons_unmet {p : Precondition} {ps : List Precondition} {s : State} (h : p.holds s = false) :
    firstUnmet (p :: ps) s = some p := by
  simp [firstUnmet, h]

theorem firstUnmet_cons_met {p : Precondition} {ps : List Precondition} {s : State} (h : p.holds s = true) :
    firstUnmet (p :: ps) s = firstUnmet ps s := by
  simp [firstUnmet, h]

/-- Settles O21: each command checks its preconditions in the order listed. -/
theorem unmetPreconditionsRaiseSequenceError : Obligations.UnmetPreconditionsRaiseSequenceError := by
  intro s h
  refine ⟨fun hf => runCommand_unmet (p := buildPrim) h (firstUnmet_cons_unmet hf),
    fun ht => runCommand_unmet (p := gencodesPrim) h (firstUnmet_cons_unmet ht),
    fun ht hsrc => runCommand_unmet (p := gencodesPrim) (q := .treeBuilt) h ?_,
    fun ht => runCommand_unmet (p := wrtreePrim) h (firstUnmet_cons_unmet ht),
    fun hc => runCommand_unmet (p := encodePrim) h (firstUnmet_cons_unmet hc),
    fun ht => runCommand_unmet (p := decodePrim) h (firstUnmet_cons_unmet ht)⟩
  exact (firstUnmet_cons_met (p := .treeValid) ht).trans
    (firstUnmet_cons_unmet (by rw [Precondition.holds, hsrc]; rfl))

end Sys2Proof.Machine
end

section
/-! PROOFS. COMPRESS and DECOMPRESS as commands: what they leave when they complete, and where they end in an error
(45_control.md R182, R183, 60_exceptions.md R207, R208). -/

namespace Sys2Proof.Machine

/-! ### COMPRESS (45_control.md R182) -/

theorem exec_compress_full {s : State} {counted : List Byte} {rest : Bits} (h : s.Ready) (hw : s.WidthOk)
    (hu : s.unread = bitsOf counted ++ rest) (hl : 2 ^ s.wCnt - 2 < counted.length) :
    ∃ t, exec .compress s = .next t ∧ ErrorEntry 5 1 0x01 0 { s with
      curOp := 0x01, freq := t.freq, total := t.total, inPos := s.inPos + 8 * (2 ^ s.wCnt - 1)
      portTrace := t.portTrace } t :=
  runCommand_raises (p := compressPrim) h rfl (compress_full (s := { s with busy := true, curOp := 0x0C }) hw hu hl)

/-- The counters of the bytes are their number of occurrences, and that of symbol 256 is 1. -/
theorem freq_of_tally {t : State} {bs : List Byte} (h : ∀ i, (t.freqAt i).toNat = tally bs i) :
    (∀ b : Byte, (t.freqAt (byteIndex b.toNat)).toNat = bs.count b) ∧ t.freqAt eofIndex = 1 :=
  ⟨fun b => (h _).trans (tally_byteIndex bs b), BitVec.eq_of_toNat_eq ((h eofIndex).trans (tally_eof bs))⟩

/-- Settles O52: COUNT, then the tables of the tally, then ENCODE from the start of IN; each case is the step the
pipeline ends in. -/
theorem compressLeavesTheTablesOfItsInput : Obligations.CompressLeavesTheTablesOfItsInput := by
  intro s counted rest h hinv hu hr
  refine ⟨fun hl bs tail hi ht hb => ?completes, fun hl pre post b tail hi hpre hb => ?missing, fun hl => ?full⟩
  case completes =>
    obtain ⟨t, tree, e, C⟩ := exec_compress_ready h hinv.width hu hr hl hi ht hb
    obtain ⟨n, hn, hout⟩ := C.out
    refine ⟨t, tree, List.replicate n false, e, compressPrim_ends.inv hinv e, C.holds, C.weights, C.total,
      (freq_of_tally C.freq).1, hout, by rw [List.length_replicate]; omega, fun _ => List.eq_of_mem_replicate,
      C.aligned, ?_⟩
    rw [hinv.hidden.1]
    exact C.frame
  case missing =>
    obtain ⟨t, tree, e, hholds, hok, hbuilt, hweights, hcodes, hfreq, htotal, herror⟩ :=
      compress_missing (s := { s with busy := true, curOp := 0x0C }) h.2 hinv.width hu hr hl hi hpre hb
    obtain ⟨hbytes, heof⟩ := freq_of_tally hfreq
    refine ⟨t, tree, ?_, hholds, hok, hbuilt, hweights, hcodes, htotal, hbytes, heof, herror⟩
    exact (runCommand_met (p := compressPrim) h rfl).trans ((congrArg finish e).trans herror.finish_eq)
  case full => exact exec_compress_full h hinv.width hu hl

/-! ### DECOMPRESS (45_control.md R183) -/

/-- Settles O53: the magic, the header and the payload are read in turn, and an aligned OUT needs no padding. -/
theorem decompressWritesTheBytesOfTheStream : Obligations.DecompressWritesTheBytesOfTheStream := by
  intro s tree ws p rest h hs hz hp hq ho hu
  obtain ⟨t, e, D⟩ := exec_decompress_ready h hs hz hp hq hu
  have hframe := D.frame
  have halign : (s.outBits ++ bitsOf (ws.map Prod.fst)).length % 8 = 0 := by
    rw [List.length_append, length_bitsOf]
    omega
  rw [padded_of_aligned halign] at hframe
  have hread : s.unread.drop (32 + tree.header.length + (ws.flatMap Prod.snd).length + p.length) = rest := by
    rw [hu, List.drop_left' (by simp [Nat.add_assoc])]
  refine ⟨t, e, ?_, D.holds, ?_, ?_⟩
  · rw [← hread, State.unread, State.unread, List.drop_drop, hframe]
  · have hout : t.outBits = bitsOf (wholeBytes s.outBits ++ ws.map Prod.fst) := by
      rw [hframe, bitsOf_append, bitsOf_wholeBytes_aligned ho]
    rw [hout, wholeBytes_bitsOf]
  · have hpos : t.inPos = s.inPos + (32 + tree.header.length + (ws.flatMap Prod.snd).length + p.length) := by
      rw [hframe]
    rw [hpos]
    exact hframe

/-- DECOMPRESS as a command, when what follows the magic number is no header. -/
theorem exec_decompress_malformed {s : State} {rest : Bits} {sub : BitVec 8} {data : Word} {p : Nat} (h : s.Ready)
    (hu : s.unread = bin 32 s.magic.toNat ++ rest)
    (hbody : ∀ a : State, a.unread = rest → a.inPos = s.inPos + 32 → a.inBits = s.inBits →
      ∃ t, rdtreePrim.body a = .next t ∧ ErrorEntry 2 sub a.curOp data { a with
        busy := false, nodes := t.nodes, ncount := t.ncount, inPos := p, portTrace := t.portTrace } t) :
    ∃ t, exec .decompress s = .next t ∧ ErrorEntry 2 sub 0x0A data { s with
      curOp := 0x0A, nodes := t.nodes, ncount := t.ncount, inPos := p, portTrace := t.portTrace } t :=
  runCommand_raises (p := decompressPrim) h rfl
    (decompress_malformed (s := { s with busy := true, curOp := 0x0D }) h.2 hu hbody)

/-- Settles O60: RDMAGIC, RDTREE or DECODE raises, and nothing of the steps after it runs. -/
theorem decompressEndsAtItsFirstFailingStep : Obligations.DecompressEndsAtItsFirstFailingStep := by
  intro s h
  refine ⟨fun hl => ?short, fun v rest hu hv => ?badMagic, fun ts rest hf hlen hu => ?header,
    fun tree ws p hs hz hp hq hu => ?truncated⟩
  case short =>
    exact runCommand_raises (p := decompressPrim) h rfl
      (decompress_short (s := { s with busy := true, curOp := 0x0D }) hl)
  case badMagic =>
    exact runCommand_raises (p := decompressPrim) h rfl
      (decompress_badMagic (s := { s with busy := true, curOp := 0x0D }) hu hv)
  case header =>
    rw [List.append_assoc] at hu
    refine ⟨fun hrest => ?noMarker, fun more hrest hl hm => ?shortField, fun v more hrest hl hv => ?badSymbol,
      fun hrest hl => ?tooMany⟩
    case noMarker =>
      subst hrest
      refine exec_decompress_malformed h hu fun a ha _ hin => ?_
      rw [List.append_nil] at ha
      rw [← hin]
      exact rdtreePrim_noMarker ha hf hlen
    case shortField =>
      subst hrest
      refine exec_decompress_malformed h hu fun a ha _ hin => ?_
      rw [← hin]
      exact rdtreePrim_shortField ha hf hl hm
    case badSymbol =>
      subst hrest
      refine exec_decompress_malformed h hu fun a ha hpos _ => ?_
      rw [← List.append_assoc] at ha
      rw [← hpos]
      exact rdtreePrim_badSymbol ha hf hl hv
    case tooMany =>
      obtain ⟨x, more, rfl⟩ := List.exists_cons_of_ne_nil hrest
      refine exec_decompress_malformed h hu fun a ha hpos _ => ?_
      rw [← hpos]
      exact rdtreePrim_tooMany ha hf hl
  case truncated =>
    obtain ⟨t, e, hheld, herror⟩ :=
      decompress_truncated (s := { s with busy := true, curOp := 0x0D }) h.2 hs hz hp hq hu
    refine ⟨t, ?_, hheld, herror⟩
    exact (runCommand_met (p := decompressPrim) h rfl).trans ((congrArg finish e).trans herror.finish_eq)

end Sys2Proof.Machine
end

section
/-! PROOFS. The bounds of the counts and weights, and that BUILD depends on the counts alone (40_count_and_build.md R112,
R117). -/

namespace Sys2Proof.Machine

/-! ### The counts of a completed COUNT (40_count_and_build.md R112) -/

theorem tally_le_length (bs : List Byte) {i : Fin 257} (hi : i ≠ eofIndex) : tally bs i ≤ bs.length := by
  rw [tally, if_neg hi]
  exact List.countP_le_length

/-- A COUNT that ends without an error was within its capacity: its counters are the tally of the bytes it read. -/
theorem exec_count_completed {s t : State} (h : s.Ready) (hw : s.WidthOk) (e : exec .count s = .next t)
    (ht : t.err = false) : ∃ bs : List Byte, bs.length ≤ 2 ^ s.wCnt - 2 ∧ t.total.toNat = bs.length ∧
      (∀ i, (t.freqAt i).toNat = tally bs i) ∧ t.wCnt = s.wCnt := by
  obtain ⟨rest, hr, hu⟩ := bitsOf_wholeBytes s.unread
  rcases Nat.lt_or_ge (2 ^ s.wCnt - 2) (wholeBytes s.unread).length with hl | hl
  · obtain ⟨t', e', herror⟩ := exec_count_full h hw hu hl
    obtain rfl : t = t' := Host.Outcome.next.inj (e.symm.trans e')
    exact absurd herror.raised (by simp [ht])
  · obtain ⟨t', e', htotal, hfreq, hframe⟩ := exec_count_ready h hw hu hr hl
    obtain rfl : t = t' := Host.Outcome.next.inj (e.symm.trans e')
    exact ⟨_, hl, htotal, hfreq, by rw [hframe]⟩

/-! ### The weights of a built tree (40_count_and_build.md R112) -/

theorem weightAt_of_node {s : State} {i : NodeIx} {d : Node} (h : s.nodes[i.toNat]? = some d) :
    s.weightAt i = d.weight := by
  rw [State.weightAt, State.nodeAt, h]
  rfl

/-- A parent weighs as much as its two children together. -/
theorem WeightsOk.child_le {s : State} (h : s.WeightsOk) {p x : Nat} {d c : Node} (hp : p < s.ncount.toNat)
    (hd : s.nodes[p]? = some d) (hx : s.isParent p x = true) (hc : s.nodes[x]? = some c) :
    c.weight.toNat ≤ d.weight.toNat := by
  rw [State.isParent, hd] at hx
  simp only [Bool.and_eq_true, Bool.not_eq_true', Bool.or_eq_true, decide_eq_true_eq] at hx
  obtain ⟨hl, hchild⟩ := hx
  obtain ⟨-, -, -, -, hsum⟩ := (h p d hp hd).2 hl
  rcases hchild with rfl | rfl <;> rw [weightAt_of_node hc] at hsum <;> omega

/-- Following parents up to the root, no node weighs more than it. -/
theorem WeightsOk.le_root {s : State} (hok : s.TreeOk) (h : s.WeightsOk) {x : Nat} {c : Node}
    (hx : x < s.ncount.toNat) (hc : s.nodes[x]? = some c) : c.weight.toNat ≤ (s.weightAt s.root).toNat := by
  induction hk : s.ncount.toNat - x using Nat.strongRecOn generalizing x c with
  | _ k ih =>
    by_cases hroot : x = s.root.toNat
    · subst hroot
      rw [weightAt_of_node hc]
    · obtain ⟨-, hnodes, -, hone⟩ := id hok
      obtain ⟨p, hp, hpx⟩ := exists_parent (j := x) (by rw [hone x hx hroot]; decide)
      have hlt := isParent_lt hnodes hp hpx
      have hd := Vector.getElem?_eq_getElem (xs := s.nodes) (show p < 513 from hp.trans_le (ncount_le hok))
      exact (WeightsOk.child_le h hp hd hpx hc).trans (ih (s.ncount.toNat - p) (by omega) hp hd rfl)

/-- Settles O31: the counts are a tally of TOTAL bytes and one end, and the root carries their sum. -/
theorem weightsAreAtMostTotalPlusOne : Obligations.WeightsAreAtMostTotalPlusOne := by
  refine ⟨fun s t h hw e ht => ?counts, fun s t h hinv hv e => ?weights⟩
  case counts =>
    obtain ⟨bs, hl, htotal, hfreq, hwidth⟩ := exec_count_completed h hw e ht
    obtain ⟨-, hsum, hcap⟩ := freqOk_of_tally hl hw htotal hfreq hwidth
    rw [hwidth] at hcap
    refine ⟨hsum, by omega, fun i hi => ?_⟩
    rw [hfreq, htotal]
    exact tally_le_length bs hi
  case weights =>
    have B := built_of_exec h hinv hv e
    have hroot : (t.weightAt t.root).toNat = s.total.toNat + 1 := B.total.trans (hinv.freq hv).2.1
    exact ⟨hroot, fun x d hx hd => hroot ▸ WeightsOk.le_root B.tree B.weights hx hd⟩

/-! ### BUILD in two states with the same counts (40_count_and_build.md R117) -/

/-- Two states in which BUILD has made the same nodes so far, and the same of them wait in PQ. -/
structure Alike (s s' : State) : Prop where
  ncount : s'.ncount = s.ncount
  pq : s'.pq = s.pq
  bound : ∀ i ∈ s.pq, i.toNat < s.ncount.toNat
  nodes : ∀ x < s.ncount.toNat, s'.nodes[x]? = s.nodes[x]?

theorem Alike.weightAt {s s' : State} (h : Alike s s') {i : NodeIx} (hi : i.toNat < s.ncount.toNat) :
    s'.weightAt i = s.weightAt i := by
  rw [State.weightAt, State.weightAt, State.nodeAt, State.nodeAt, h.nodes _ hi]

/-- Nodes leave PQ by the weights of those that are in it. -/
theorem firstOf_congr {s s' : State} (m : NodeIx) (as : List NodeIx)
    (h : ∀ x ∈ m :: as, s'.weightAt x = s.weightAt x) : s'.firstOf m as = s.firstOf m as := by
  induction as generalizing m with
  | nil => rfl
  | cons a as ih =>
    have hm := h m (by simp)
    have ha := h a (by simp)
    rw [State.firstOf, State.firstOf, before_congr ha hm]
    apply ih
    intro x hx
    rcases List.mem_cons.mp hx with rfl | hx
    · split
      · exact ha
      · exact hm
    · exact h x (by simp [hx])

theorem Alike.popMin {s s' u : State} {i : NodeIx} (h : Alike s s') (e : popMin s = some (i, u)) :
    i ∈ s.pq ∧ ∃ u', popMin s' = some (i, u') ∧ Alike u u' := by
  cases hpq : s.pq with
  | nil =>
    rw [Machine.popMin, hpq] at e
    cases e
  | cons a as =>
    have hfirst : s'.firstOf a as = s.firstOf a as :=
      firstOf_congr a as fun x hx => h.weightAt (h.bound x (hpq ▸ hx))
    have hmem := (firstOf_spec s a as).1
    rw [Machine.popMin, hpq] at e
    cases e
    refine ⟨hmem, { s' with pq := s'.pq.erase (s'.firstOf a as) }, ?_, h.ncount, ?_, ?_, h.nodes⟩
    · simp only [Machine.popMin, h.pq, hpq, hfirst]
    · rw [hfirst, h.pq, hpq]
    · exact fun x hx => h.bound x (hpq ▸ List.mem_of_mem_erase hx)

theorem Alike.enqueueNode {n : Node} {s s' t : State} (h : Alike s s') (e : enqueueNode n s = .next t) :
    ∃ t', enqueueNode n s' = .next t' ∧ Alike t t' := by
  rw [Machine.enqueueNode] at e
  split at e
  · next i u hnew =>
    cases e
    have hlt := newNode_lt hnew
    obtain ⟨u', hnew'⟩ : ∃ u', newNode n s' = some (i, u') := by
      rw [newNode_index hnew, ← h.ncount]
      exact ⟨_, newNode_some (by rw [h.ncount]; exact hlt)⟩
    have hcount := newNode_ncount hnew
    have hcount' := newNode_ncount hnew'
    refine ⟨{ u' with pq := u'.pq ++ [i] }, by rw [Machine.enqueueNode, hnew'], ?_, ?_, ?_, ?_⟩
    · exact BitVec.eq_of_toNat_eq (by rw [hcount, hcount', h.ncount])
    · rw [newNode_frame hnew, newNode_frame hnew', h.pq]
    · intro x hx
      rcases List.mem_append.mp hx with hx | hx
      · have := h.bound x (by rwa [newNode_frame hnew] at hx)
        exact this.trans (Nat.lt_of_succ_le hcount.ge)
      · rw [List.mem_singleton.mp hx, newNode_index hnew]
        exact Nat.lt_of_succ_le hcount.ge
    · intro x hx
      replace hx : x < u.ncount.toNat := hx
      rw [newNode_nodes hnew, newNode_nodes hnew', h.ncount]
      split
      · rfl
      · exact h.nodes x (by omega)
  · cases e

theorem Alike.buildLeaves {l : List (Word × Nat)} {s s' t : State} (h : Alike s s') (e : buildLeaves l s = .next t) :
    ∃ t', buildLeaves l s' = .next t' ∧ Alike t t' := by
  induction l generalizing s s' with
  | nil =>
    cases e
    exact ⟨s', rfl, h⟩
  | cons p l ih =>
    obtain ⟨w, sym⟩ := p
    rw [Machine.buildLeaves] at e ⊢
    split at e
    · next hw =>
      rw [if_pos hw]
      exact ih h e
    · next hw =>
      obtain ⟨u, hu, hrest⟩ := andThen_eq_next e
      obtain ⟨u', hu', h'⟩ := h.enqueueNode hu
      rw [if_neg hw, hu', andThen_next]
      exact ih h' hrest

theorem Alike.mergeOnce {s s' t : State} (h : Alike s s') (e : mergeOnce s = .next t) :
    ∃ t', mergeOnce s' = .next t' ∧ Alike t t' := by
  rw [Machine.mergeOnce] at e
  split at e
  · cases e
  · next a u hpop =>
    split at e
    · cases e
    · next b v hpop2 =>
      obtain ⟨ha, u', hpop', hu⟩ := h.popMin hpop
      obtain ⟨hb, v', hpop2', hv⟩ := hu.popMin hpop2
      have hcount : v.ncount = s.ncount := by
        obtain ⟨_, rfl⟩ := popMin_eq_some hpop
        obtain ⟨_, rfl⟩ := popMin_eq_some hpop2
        rfl
      have hbu : b.toNat < s.ncount.toNat := by
        have := hu.bound b hb
        obtain ⟨_, rfl⟩ := popMin_eq_some hpop
        exact this
      obtain ⟨t', e', ht⟩ := hv.enqueueNode e
      refine ⟨t', ?_, ht⟩
      rw [Machine.mergeOnce, hpop']
      dsimp only
      rw [hpop2']
      dsimp only
      rw [hv.weightAt (by rw [hcount]; exact h.bound a ha), hv.weightAt (by rw [hcount]; exact hbu), e']

/-- The same tree in both node stores. -/
def SameTree (s s' : State) : Prop :=
  s'.ncount = s.ncount ∧ s'.root = s.root ∧ ∀ x < s.ncount.toNat, s'.nodes[x]? = s.nodes[x]?

theorem Alike.mergeLoop {k : Nat} {s s' t : State} (h : Alike s s') (e : mergeLoop k s = .next t) :
    ∃ t', mergeLoop k s' = .next t' ∧ SameTree t t' := by
  induction k generalizing s s' with
  | zero => cases e
  | succ k ih =>
    rw [Machine.mergeLoop] at e ⊢
    rw [h.pq]
    split at e
    · cases e
    · cases e
      exact ⟨_, rfl, h.ncount, rfl, h.nodes⟩
    · obtain ⟨u, hu, hrest⟩ := andThen_eq_next e
      obtain ⟨u', hu', h'⟩ := h.mergeOnce hu
      rw [hu', andThen_next]
      exact ih h' hrest

theorem buildPrim_sameFreq {s s' t : State} (hf : s.freq = s'.freq) (e : buildPrim.body s = .next t) :
    ∃ t', buildPrim.body s' = .next t' ∧ SameTree t t' := by
  have hstart : Alike { s with treeValid := false, codesValid := false, ncount := 0, pq := [] }
      { s' with treeValid := false, codesValid := false, ncount := 0, pq := [] } :=
    ⟨rfl, rfl, by simp, by simp⟩
  obtain ⟨u, hleaves, hmerges⟩ := andThen_eq_next e
  obtain ⟨u', hleaves', hu⟩ := hstart.buildLeaves hleaves
  obtain ⟨t', hmerges', ht⟩ := hu.mergeLoop hmerges
  refine ⟨t', ?_, ht⟩
  rw [hf] at hleaves'
  rw [← hu.pq] at hmerges'
  simp only [buildPrim, hleaves', andThen_next, hmerges']

/-- Settles O33: run side by side, the two BUILDs make the same nodes and hold the same ones in PQ. -/
theorem buildIsAFunctionOfFreqAlone : Obligations.BuildIsAFunctionOfFreqAlone := by
  intro s s' t h h' hv hv' hf e
  obtain ⟨m, hm, rfl⟩ := finish_eq_next ((exec_build_eq h hv).symm.trans e)
  obtain ⟨m', hm', hcount, hroot, hnodes⟩ :=
    buildPrim_sameFreq (s := { s with busy := true, curOp := 0x03 }) (s' := { s' with busy := true, curOp := 0x03 }) hf hm
  exact ⟨{ m' with busy := false }, (exec_build_eq h' hv').trans (congrArg finish hm'), hcount, hroot, hnodes⟩

end Sys2Proof.Machine
end

section
/-! PROOFS. What each instruction leaves alone, and the frame of the ports (20_memory.md R60). -/

namespace Sys2Proof.Machine

/-! ### Frames by the operations an instruction is made of -/

/-- Two states with the same port positions, tables and validity flags. -/
structure SameData (s t : State) : Prop where
  inPos : t.inPos = s.inPos
  outBits : t.outBits = s.outBits
  freq : t.freq = s.freq
  total : t.total = s.total
  freqValid : t.freqValid = s.freqValid
  nodes : t.nodes = s.nodes
  ncount : t.ncount = s.ncount
  root : t.root = s.root
  treeValid : t.treeValid = s.treeValid
  treeSrc : t.treeSrc = s.treeSrc
  codes : t.codes = s.codes
  codesValid : t.codesValid = s.codesValid

/-- The relation holds across the operations of COUNT. -/
structure AcrossCount (R : State → State → Prop) : Prop where
  start : ∀ s, R s (countStart s)
  byte : ∀ v s, R s (countByte v s)
  done : ∀ s, R s (countEnd s)

/-- The relation holds across the operations of BUILD. -/
structure AcrossBuild (R : State → State → Prop) : Prop where
  newNode : AcrossNewNode R
  start : ∀ s, R s { s with treeValid := false, codesValid := false, ncount := 0, pq := [] }
  done : ∀ s r, R s { s with root := r, pq := [], treeSrc := false, treeValid := true }

/-- The relation holds across the operations of GENCODES. -/
structure AcrossGencodes (R : State → State → Prop) : Prop where
  start : ∀ s, R s { s with codesValid := false, codes := Vector.replicate 257 Code.absent }
  code : ∀ i p s, R s (State.setCode s i p)
  done : ∀ s, R s { s with codesValid := true }

/-- The relation holds across the operations of RDTREE on the node store. -/
structure AcrossHeader (R : State → State → Prop) : Prop where
  newNode : AcrossNewNode R
  start : ∀ s, R s { s with treeValid := false, codesValid := false, ncount := 0, marks := 0, rdStack := [] }
  done : ∀ s i, R s { s with root := i, treeSrc := true, treeValid := true, rdStack := [] }

/-- The relation holds across every operation instruction i is made of: the hidden registers, an error and CLEAR for all,
the ports and the tables for those that use them. -/
structure AcrossInstr (R : State → State → Prop) (i : Instr) : Prop where
  along : Along R
  hidden : ∀ s t, SameData s t → R s t
  raise : AcrossRaise R
  clear : ∀ s, R s (clearAll s)
  read : i ∈ [.count, .rewind, .encode, .rdmagic, .rdtree, .decode, .compress, .decompress] → AcrossSeek R
  write : i ∈ [.wrmagic, .wrtree, .encode, .close, .decode, .compress, .decompress] → AcrossWrite R
  count : i ∈ [.count, .compress] → AcrossCount R
  build : i ∈ [.build, .compress] → AcrossBuild R
  gencodes : i ∈ [.gencodes, .compress] → AcrossGencodes R
  header : i ∈ [.rdtree, .decompress] ∨ i.source = .header → AcrossHeader R

/-- The relation holds across a primitive. -/
def Primitive.Keeps (p : Primitive) (R : State → State → Prop) : Prop := ∀ s t, p.body s = .next t → R s t

section
variable {R : State → State → Prop} {i : Instr} (h : AcrossInstr R i)
include h

theorem AcrossInstr.countPrim (hr : AcrossSeek R) (hc : AcrossCount R) : countPrim.Keeps R :=
  fun _ _ => countPrim_along h.along hr h.raise hc.start hc.byte hc.done

theorem AcrossInstr.buildPrim (hb : AcrossBuild R) : buildPrim.Keeps R :=
  fun _ _ => buildPrim_along h.along hb.newNode (fun s _ => h.hidden s _ (by constructor <;> rfl)) hb.start hb.done

theorem AcrossInstr.gencodesPrim (hg : AcrossGencodes R) : gencodesPrim.Keeps R :=
  fun _ _ => gencodesPrim_along h.along hg.start hg.code hg.done

theorem AcrossInstr.rdtreePrim (hr : AcrossSeek R) (ht : AcrossHeader R) : rdtreePrim.Keeps R :=
  fun _ _ => rdtreePrim_along h.along hr h.raise (fun s => h.hidden s _ (by constructor <;> rfl)) ht.newNode
    (fun s _ => h.hidden s _ (by constructor <;> rfl)) ht.start ht.done

theorem AcrossInstr.encodePrim (hr : AcrossSeek R) (hw : AcrossWrite R) : encodePrim.Keeps R :=
  fun _ _ => encodePrim_along h.along hr hw h.raise

theorem AcrossInstr.decodePrim (hr : AcrossSeek R) (hw : AcrossWrite R) : decodePrim.Keeps R :=
  fun _ _ => decodePrim_along h.along hr hw h.raise (fun s _ => h.hidden s _ (by constructor <;> rfl))

theorem AcrossInstr.runCommand {p : Primitive} (hp : p.Keeps R) {s t : State} (e : runCommand p s = .next t) : R s t :=
  runCommand_along h.along h.raise (fun s _ => h.hidden s _ (by constructor <;> rfl))
    (fun s => h.hidden s _ (by constructor <;> rfl)) (hp _ _) e

theorem AcrossInstr.runSteps {ps : List Primitive} (hps : ∀ p ∈ ps, p.Keeps R) {k : Nat} {s t : State}
    (e : runSteps k ps s = .next t) : R s t :=
  runSteps_along h.along h.raise (fun s _ _ => h.hidden s _ (by constructor <;> rfl)) ps (fun p hp => hps p hp _ _) k e

theorem AcrossInstr.compressPrim (hr : AcrossSeek R) (hw : AcrossWrite R) (hc : AcrossCount R) (hb : AcrossBuild R)
    (hg : AcrossGencodes R) : compressPrim.Keeps R := by
  refine fun s t => h.runSteps ?_
  simp only [compressSteps, List.mem_cons, List.not_mem_nil, or_false, forall_eq_or_imp, forall_eq]
  exact ⟨h.countPrim hr hc, fun _ _ => rewindPrim_along hr, h.buildPrim hb, h.gencodesPrim hg,
    fun _ _ => wrmagicPrim_along hw, fun _ _ => wrtreePrim_along h.along hw, h.encodePrim hr hw,
    fun _ _ => closePrim_along h.along hw⟩

theorem AcrossInstr.decompressPrim (hr : AcrossSeek R) (hw : AcrossWrite R) (ht : AcrossHeader R) :
    decompressPrim.Keeps R := by
  refine fun s t => h.runSteps ?_
  simp only [decompressSteps, List.mem_cons, List.not_mem_nil, or_false, forall_eq_or_imp, forall_eq]
  exact ⟨fun _ _ => rdmagicPrim_along h.along hr h.raise, h.rdtreePrim hr ht, h.decodePrim hr hw,
    fun _ _ => closePrim_along h.along hw⟩

theorem AcrossInstr.oneToken (ht : AcrossHeader R) {tok : Token} {s t : State} (e : oneToken tok s = .next t) :
    R s t := by
  have htok := fun x (hx : (takeToken tok s).state? = some x) => takeToken_along h.along h.raise ht.newNode
    (fun s _ => h.hidden s _ (by constructor <;> rfl)) ht.done hx
  rw [Machine.oneToken] at e
  split at e
  · split at e
    · next u hu => cases e; exact htok _ (by rw [hu]; rfl)
    · next u hu =>
      cases e
      exact h.along.trans (htok u (by rw [hu]; rfl)) (h.hidden u _ (by constructor <;> rfl))
    · next u hu => cases e; exact htok _ (by rw [hu]; rfl)
    · cases e
  · cases e

theorem AcrossInstr.magicField {v : Word} {s t : State} (e : execMagicField v s = .next t) : R s t := by
  rw [execMagicField] at e
  split at e
  · cases e
    exact h.along.trans (checkMagic_along h.along h.raise v s) (h.hidden _ _ (by constructor <;> rfl))
  · cases e

theorem AcrossInstr.clearWord {s t : State} (e : execClear s = .next t) : R s t := by
  rw [execClear] at e
  split at e
  · cases e
  · split at e
    · cases e; exact h.clear s
    · exact h.runCommand (p := clearPrim) (fun s _ e => by cases e; exact h.clear s) e

theorem AcrossInstr.reservedWord {w : Word} {s t : State} (e : execReserved w s = .next t) : R s t := by
  rw [execReserved] at e
  split at e
  · cases e
  · split at e
    · cases e; exact h.along.refl s
    · cases e
      rw [illegalWord]
      split <;> exact h.raise _ _ _ _ s

/-- A relation that holds across the operations an instruction is made of holds across the instruction. -/
theorem AcrossInstr.exec {s t : State} (e : exec i s = .next t) : R s t := by
  have hread := h.read
  have hwrite := h.write
  have hcount := h.count
  have hbuild := h.build
  have hgen := h.gencodes
  have hheader := h.header
  cases i with
  | nop => exact h.runCommand (p := nopPrim) (fun s _ e => by cases e; exact h.along.refl s) e
  | count => exact h.runCommand (h.countPrim (hread (by simp)) (hcount (by simp))) e
  | rewind => exact h.runCommand (p := rewindPrim) (fun _ _ => rewindPrim_along (hread (by simp))) e
  | build => exact h.runCommand (h.buildPrim (hbuild (by simp))) e
  | gencodes => exact h.runCommand (h.gencodesPrim (hgen (by simp))) e
  | wrmagic => exact h.runCommand (p := wrmagicPrim) (fun _ _ => wrmagicPrim_along (hwrite (by simp))) e
  | wrtree => exact h.runCommand (p := wrtreePrim) (fun _ _ => wrtreePrim_along h.along (hwrite (by simp))) e
  | encode => exact h.runCommand (h.encodePrim (hread (by simp)) (hwrite (by simp))) e
  | close => exact h.runCommand (p := closePrim) (fun _ _ => closePrim_along h.along (hwrite (by simp))) e
  | rdmagic => exact h.runCommand (p := rdmagicPrim) (fun _ _ => rdmagicPrim_along h.along (hread (by simp)) h.raise) e
  | rdtree => exact h.runCommand (h.rdtreePrim (hread (by simp)) (hheader (by simp))) e
  | decode => exact h.runCommand (h.decodePrim (hread (by simp)) (hwrite (by simp))) e
  | compress =>
    exact h.runCommand (h.compressPrim (hread (by simp)) (hwrite (by simp)) (hcount (by simp)) (hbuild (by simp))
      (hgen (by simp))) e
  | decompress =>
    exact h.runCommand (h.decompressPrim (hread (by simp)) (hwrite (by simp)) (hheader (by simp))) e
  | clear => exact h.clearWord e
  | reserved w => exact h.reservedWord e
  | hdrInternal => exact h.oneToken (tok := .internal) (hheader (.inr rfl)) e
  | hdrLeaf v => exact h.oneToken (tok := .leaf v) (hheader (.inr rfl)) e
  | magicField v => exact h.magicField e

end

/-! ### The ports (20_memory.md R60) -/

/-- A relation that new_node keeps because it does not look at the node store. -/
theorem acrossNewNode_of {R : State → State → Prop}
    (h : ∀ s nodes ncount, R s { s with nodes := nodes, ncount := ncount }) : AcrossNewNode R := by
  intro n s i t e
  obtain ⟨_, -, rfl⟩ := newNode_eq_some e
  exact h _ _ _

theorem acrossInstr_inPos {i : Instr}
    (hi : i ∉ [.count, .rewind, .encode, .rdmagic, .rdtree, .decode, .compress, .decompress]) :
    AcrossInstr (fun s t => t.inPos = s.inPos) i where
  along := ⟨fun _ => rfl, fun h g => g.trans h⟩
  hidden _ _ h := h.inPos
  raise _ _ _ _ _ := rfl
  clear _ := rfl
  read h := absurd h hi
  write _ _ _ := rfl
  count _ := ⟨fun _ => rfl, fun _ _ => rfl, fun _ => rfl⟩
  build _ := ⟨acrossNewNode_of fun _ _ _ => rfl, fun _ => rfl, fun _ _ => rfl⟩
  gencodes _ := ⟨fun _ => rfl, fun _ _ _ => rfl, fun _ => rfl⟩
  header _ := ⟨acrossNewNode_of fun _ _ _ => rfl, fun _ => rfl, fun _ _ => rfl⟩

theorem acrossInstr_outBits {i : Instr}
    (hi : i ∉ [.wrmagic, .wrtree, .encode, .close, .decode, .compress, .decompress]) :
    AcrossInstr (fun s t => t.outBits = s.outBits) i where
  along := ⟨fun _ => rfl, fun h g => g.trans h⟩
  hidden _ _ h := h.outBits
  raise _ _ _ _ _ := rfl
  clear _ := rfl
  read _ _ _ _ := rfl
  write h := absurd h hi
  count _ := ⟨fun _ => rfl, fun _ _ => rfl, fun _ => rfl⟩
  build _ := ⟨acrossNewNode_of fun _ _ _ => rfl, fun _ => rfl, fun _ _ => rfl⟩
  gencodes _ := ⟨fun _ => rfl, fun _ _ _ => rfl, fun _ => rfl⟩
  header _ := ⟨acrossNewNode_of fun _ _ _ => rfl, fun _ => rfl, fun _ _ => rfl⟩

/-- Settles O58, from what reads and writes do to the ports and which instructions have any. -/
theorem outOnlyGrowsAndInNeverChanges : Obligations.OutOnlyGrowsAndInNeverChanges := by
  intro i s t e
  have hports := exec_ports e
  exact ⟨hports.inBits, hports.inPos, hports.outBits, fun hi => (acrossInstr_inPos hi).exec e,
    fun hi => (acrossInstr_outBits hi).exec e⟩

end Sys2Proof.Machine
end

section
/-! PROOFS. Which errors each command's pseudocode raises (60_exceptions.md R200 to R204). -/

namespace Sys2Proof.Machine

/-- The errors a command raises after its preconditions: opcode, kind, subcause and datum (60_exceptions.md R200 to
R204). -/
inductive Raisable (magic : Word) : Byte → ErrorKind → BitVec 8 → Word → Prop
  | shortMagic : Raisable magic 0x09 .badMagicNumber 1 0
  | wrongMagic (v : Word) (h : v ≠ magic) : Raisable magic 0x09 .badMagicNumber 2 v
  | noMarker : Raisable magic 0x0A .malformedHeader 1 0
  | shortField : Raisable magic 0x0A .malformedHeader 2 0
  | badSymbol (v : Symbol) (h : 256 < v.toNat) : Raisable magic 0x0A .malformedHeader 3 (v.setWidth 32)
  | tooMany : Raisable magic 0x0A .malformedHeader 4 514
  | truncated : Raisable magic 0x0B .truncatedPayload 1 0
  | missing (i : Fin 257) : Raisable magic 0x07 .missingCode 1 (BitVec.ofNat 32 i.val)
  | capacity : Raisable magic 0x01 .capacityExceeded 1 0

/-- The state after an error of the command with opcode op. -/
def RaisedBy (op : Byte) (t : State) : Prop :=
  ∃ e sub data m, t = raiseAs op e sub data m ∧ Raisable t.magic op e sub data

/-- Inside the command with opcode op, and no error has been raised. -/
structure Running (op : Byte) (s : State) : Prop where
  err : s.err = false
  curOp : s.curOp = op

theorem Running.raisedBy {op : Byte} {s : State} {e : ErrorKind} {sub : BitVec 8} {data : Word} (h : Running op s)
    (hr : Raisable s.magic op e sub data) : RaisedBy op (raise e sub data s) :=
  ⟨e, sub, data, s, by rw [raise, h.curOp], hr⟩

theorem Running.seek {op : Byte} {s : State} (h : Running op s) (p : Nat) : Running op (s.seek p) := ⟨h.err, h.curOp⟩

/-- Reading moves INPOS and nothing else. -/
theorem readBits_seek {n : Nat} (hn : 0 < n) {s t : State} {o : Option Nat} (h : readBits n s = (o, t)) :
    ∃ p, t = s.seek p := by
  rcases readBits_cases hn s with ⟨_, e⟩ | ⟨_, e⟩ <;> rw [e] at h <;> cases h <;> exact ⟨_, rfl⟩

theorem Running.readBits {op : Byte} {n : Nat} (hn : 0 < n) {s t : State} {o : Option Nat} (h : Running op s)
    (e : readBits n s = (o, t)) : Running op t := by
  obtain ⟨p, rfl⟩ := readBits_seek hn e
  exact h.seek p

/-- Where an outcome stands that goes on from Running: still so, or after an error of the command. -/
def RunsOn (op : Byte) (t : State) : Prop := Running op t ∨ RaisedBy op t

theorem RunsOn.raisedBy {op : Byte} {t : State} (h : RunsOn op t) (ht : t.err = true) : RaisedBy op t := by
  rcases h with h | h
  · exact absurd ht (by simp [h.err])
  · exact h

/-- The pseudocode of a command raises errors of its own only. -/
def Primitive.RunsOn (p : Primitive) : Prop := ∀ s t, Running p.op s → p.body s = .next t → Machine.RunsOn p.op t

/-! ### The commands that raise nothing -/

/-- No error has been raised on the way, and the markers were not counted. -/
structure Quiet (s t : State) : Prop where
  err : t.err = s.err
  curOp : t.curOp = s.curOp
  marks : t.marks = s.marks

theorem Quiet.along : Along Quiet :=
  ⟨fun _ => ⟨rfl, rfl, rfl⟩, fun h g => ⟨g.err.trans h.err, g.curOp.trans h.curOp, g.marks.trans h.marks⟩⟩

theorem Quiet.acrossWrite : AcrossWrite Quiet := fun _ _ => ⟨rfl, rfl, rfl⟩

theorem Quiet.acrossNewNode : AcrossNewNode Quiet := acrossNewNode_of fun _ _ _ => ⟨rfl, rfl, rfl⟩

theorem Quiet.running {op : Byte} {s t : State} (h : Quiet s t) (hs : Running op s) : Running op t :=
  ⟨h.err.trans hs.err, h.curOp.trans hs.curOp⟩

theorem Primitive.runsOn_of_quiet {p : Primitive} (h : p.Keeps Quiet) : p.RunsOn :=
  fun s t hs e => .inl ((h s t e).running hs)

theorem rewindPrim_runsOn : rewindPrim.RunsOn :=
  Primitive.runsOn_of_quiet fun _ _ => rewindPrim_along fun _ _ _ => ⟨rfl, rfl, rfl⟩

theorem buildPrim_runsOn : buildPrim.RunsOn :=
  Primitive.runsOn_of_quiet fun _ _ => buildPrim_along Quiet.along Quiet.acrossNewNode (fun _ _ => ⟨rfl, rfl, rfl⟩)
    (fun _ => ⟨rfl, rfl, rfl⟩) (fun _ _ => ⟨rfl, rfl, rfl⟩)

theorem gencodesPrim_runsOn : gencodesPrim.RunsOn :=
  Primitive.runsOn_of_quiet fun _ _ => gencodesPrim_along Quiet.along (fun _ => ⟨rfl, rfl, rfl⟩)
    (fun _ _ _ => ⟨rfl, rfl, rfl⟩) (fun _ => ⟨rfl, rfl, rfl⟩)

theorem wrmagicPrim_runsOn : wrmagicPrim.RunsOn :=
  Primitive.runsOn_of_quiet fun _ _ => wrmagicPrim_along Quiet.acrossWrite

theorem wrtreePrim_runsOn : wrtreePrim.RunsOn :=
  Primitive.runsOn_of_quiet fun _ _ => wrtreePrim_along Quiet.along Quiet.acrossWrite

theorem closePrim_runsOn : closePrim.RunsOn :=
  Primitive.runsOn_of_quiet fun _ _ => closePrim_along Quiet.along Quiet.acrossWrite

/-! ### COUNT, RDMAGIC -/

theorem countLoop_runsOn {k : Nat} {s t : State} (h : Running 0x01 s) (e : countLoop k s = .next t) :
    RunsOn 0x01 t := by
  induction k generalizing s with
  | zero => cases e
  | succ k ih =>
    rw [countLoop] at e
    split at e
    · next hread =>
      cases e
      exact .inl (h.readBits (by decide) hread)
    · next v u hread =>
      have hu := h.readBits (by decide) hread
      split at e
      · cases e
        exact .inr (hu.raisedBy .capacity)
      · exact ih (s := countByte v u) ⟨hu.err, hu.curOp⟩ e

theorem countPrim_runsOn : countPrim.RunsOn := by
  intro s t h e
  obtain ⟨m, hloop, ⟨-, rfl⟩ | ⟨hm, hend⟩⟩ := unlessRaised_eq_next e
  · exact countLoop_runsOn (s := countStart s) ⟨h.err, h.curOp⟩ hloop
  · cases hend
    rcases countLoop_runsOn (s := countStart s) ⟨h.err, h.curOp⟩ hloop with hrun | ⟨_, _, _, _, rfl, -⟩
    · exact .inl ⟨hrun.err, hrun.curOp⟩
    · cases hm

theorem checkMagic_runsOn {v : Word} {s : State} (h : Running 0x09 s) : RunsOn 0x09 (checkMagic v s) := by
  rw [checkMagic]
  split
  · exact .inl h
  · next hv => exact .inr (h.raisedBy (.wrongMagic v hv))

theorem rdmagicPrim_runsOn : rdmagicPrim.RunsOn := by
  intro s t h e
  simp only [rdmagicPrim] at e
  split at e
  · next hread =>
    cases e
    exact .inr ((h.readBits (by decide) hread).raisedBy .shortMagic)
  · next hread =>
    cases e
    exact checkMagic_runsOn (h.readBits (by decide) hread)

/-! ### RDTREE -/

theorem subtreeDone_quiet {st : List RdFrame} {i : NodeIx} {s t : State} (h : (subtreeDone st i s).state? = some t) :
    Quiet s t :=
  subtreeDone_along Quiet.along Quiet.acrossNewNode (fun _ _ => ⟨rfl, rfl, rfl⟩) (fun _ _ => ⟨rfl, rfl, rfl⟩) st h

/-- What a token leads to: an error for a field that is no symbol, else nothing is raised. -/
theorem takeToken_quiet {tok : Token} {s t : State} (h : (takeToken tok s).state? = some t) :
    Quiet s t ∨ ∃ v : Symbol, 256 < v.toNat ∧ takeToken tok s = .raised (raise .malformedHeader 3 (v.setWidth 32) s) := by
  cases tok with
  | internal =>
    cases h
    exact .inl ⟨rfl, rfl, rfl⟩
  | leaf v =>
    rcases Nat.lt_or_ge 256 v.toNat with hv | hv
    · exact .inr ⟨v, hv, takeToken_badSymbol hv⟩
    · refine .inl ?_
      rw [takeToken, if_neg (by rw [gt_iff_lt, BitVec.lt_def]; exact Nat.not_lt.mpr hv)] at h
      split at h
      · next hnew => exact Quiet.along.trans (Quiet.acrossNewNode _ _ _ _ hnew) (subtreeDone_quiet h)
      · cases h

/-- A token on its own is an error of RDTREE or none. -/
theorem takeToken_runsOn {tok : Token} {s t : State} (h : Running 0x0A s) (e : (takeToken tok s).state? = some t) :
    RunsOn 0x0A t := by
  rcases takeToken_quiet e with hq | ⟨v, hv, hraise⟩
  · exact .inl (hq.running h)
  · rw [hraise] at e
    cases e
    exact .inr (h.raisedBy (.badSymbol v hv))

/-- Inside RDTREE before a token, with at most the markers a node store has room for. -/
structure MarkersFit (s : State) : Prop where
  running : Running 0x0A s
  marks : s.marks.toNat ≤ 513

theorem toNat_countMark {s : State} (h : s.marks.toNat ≤ 513) : (countMark s).marks.toNat = s.marks.toNat + 1 := by
  rw [countMark, BitVec.toNat_add]
  simp
  omega

/-- Reading a token is an error of RDTREE, or leaves RDTREE before the token. -/
theorem fetchToken_cases {s : State} (h : MarkersFit s) :
    (∃ t, fetchToken s = .raised t ∧ RaisedBy 0x0A t) ∨ ∃ tok t, fetchToken s = .token tok t ∧ MarkersFit t := by
  rw [fetchToken]
  split
  · next t hread => exact .inl ⟨_, rfl, (h.running.readBits (by decide) hread).raisedBy .noMarker⟩
  · next m t hread =>
    obtain ⟨p, rfl⟩ := readBits_seek (by decide) hread
    have hcount := toNat_countMark (s := s.seek p) h.marks
    have hrun : Running 0x0A (countMark (s.seek p)) := ⟨h.running.err, h.running.curOp⟩
    have hmarks : s.marks.toNat ≤ 513 := h.marks
    simp only [gt_iff_lt, BitVec.lt_def]
    split
    · next hlt =>
      have hdata : (countMark (s.seek p)).marks = 514 := BitVec.eq_of_toNat_eq (by
        rw [seek_marks] at hcount
        rw [hcount]
        rw [hcount] at hlt
        simp at hlt ⊢
        omega)
      rw [hdata]
      exact .inl ⟨_, rfl, hrun.raisedBy .tooMany⟩
    · next hle =>
      have hfit : MarkersFit (countMark (s.seek p)) := ⟨hrun, Nat.le_of_not_lt hle⟩
      split
      · exact .inr ⟨_, _, rfl, hfit⟩
      · next hlong =>
        have hfield : 0 < tokenLength (decide (m = 1)) - 1 := by
          revert hlong
          cases decide (m = 1) <;> decide
        split
        · next hread => exact .inl ⟨_, rfl, (hrun.readBits hfield hread).raisedBy .shortField⟩
        · next hread =>
          obtain ⟨q, rfl⟩ := readBits_seek hfield hread
          exact .inr ⟨_, _, rfl, hfit.running.seek q, hfit.marks⟩

theorem readTree_runsOn {k : Nat} {s t : State} (h : MarkersFit s) (e : readTree k s = .next t) : RunsOn 0x0A t := by
  induction k generalizing s with
  | zero => cases e
  | succ k ih =>
    rw [readTree] at e
    rcases fetchToken_cases h with ⟨u, hfetch, hraised⟩ | ⟨tok, u, hfetch, hu⟩
    · rw [hfetch] at e
      cases e
      exact .inr hraised
    · rw [hfetch] at e
      dsimp only at e
      have hstate := fun v (hv : (takeToken tok u).state? = some v) => takeToken_runsOn hu.running hv
      split at e
      · next v htake =>
        rcases takeToken_quiet (tok := tok) (s := u) (t := v) (by rw [htake]; rfl) with hq | ⟨_, -, hraise⟩
        · exact ih ⟨hq.running hu.running, hq.marks ▸ hu.marks⟩ e
        · rw [hraise] at htake
          cases htake
      · next v htake => cases e; exact hstate _ (by rw [htake]; rfl)
      · next v htake => cases e; exact hstate _ (by rw [htake]; rfl)
      · cases e

theorem rdtreePrim_runsOn : rdtreePrim.RunsOn :=
  fun s _ h => readTree_runsOn
    (s := { s with treeValid := false, codesValid := false, ncount := 0, marks := 0, rdStack := [] })
    ⟨⟨h.err, h.curOp⟩, Nat.zero_le _⟩

/-! ### ENCODE, DECODE -/

theorem encodeSymbol_runsOn {i : Fin 257} {s : State} (h : Running 0x07 s) : RunsOn 0x07 (encodeSymbol i s) := by
  rw [encodeSymbol]
  split
  · exact .inr (h.raisedBy (.missing i))
  · exact .inl ⟨h.err, h.curOp⟩

/-- From a state reached inside a command, what follows runs only if nothing was raised. -/
theorem RunsOn.unlessRaised {op : Byte} {m t : State} {f : State → Outcome} (hm : RunsOn op m)
    (hf : Running op m → f m = .next t → RunsOn op t) (e : unlessRaised (.next m) f = .next t) : RunsOn op t := by
  rcases hm with hrun | hraised
  · rw [unlessRaised_next _ hrun.err] at e
    exact hf hrun e
  · obtain ⟨_, _, _, _, rfl, -⟩ := id hraised
    cases e
    exact .inr hraised

theorem encodeLoop_runsOn {k : Nat} {s t : State} (h : Running 0x07 s) (e : encodeLoop k s = .next t) :
    RunsOn 0x07 t := by
  induction k generalizing s with
  | zero => cases e
  | succ k ih =>
    rw [encodeLoop] at e
    split at e
    · next hread =>
      cases e
      exact .inl (h.readBits (by decide) hread)
    · next hread => exact (encodeSymbol_runsOn (h.readBits (by decide) hread)).unlessRaised ih e

theorem encodePrim_runsOn : encodePrim.RunsOn := by
  intro s t h e
  obtain ⟨m, hloop, -⟩ := unlessRaised_eq_next e
  refine (encodeLoop_runsOn h hloop).unlessRaised (f := fun t => .next (encodeSymbol eofIndex t)) (fun hm hend => ?_) ?_
  · cases hend
    exact encodeSymbol_runsOn hm
  · rw [← hloop]
    exact e

theorem walkBit_running {op : Byte} {d : Node} {b : Nat} {s : State} (h : Running op s) : Running op (walkBit d b s) := by
  rw [walkBit]
  split
  · exact h
  · exact ⟨h.err, h.curOp⟩

theorem decodeLoop_runsOn {k : Nat} {s t : State} (h : Running 0x0B s) (e : decodeLoop k s = .next t) :
    RunsOn 0x0B t := by
  induction k generalizing s with
  | zero => cases e
  | succ k ih =>
    rw [decodeLoop] at e
    split at e
    · next hread =>
      cases e
      exact .inr ((h.readBits (by decide) hread).raisedBy .truncated)
    · next b u hread =>
      split at e
      · cases e
      · next d _ =>
        have hw := walkBit_running (d := d) (b := b) (h.readBits (by decide) hread)
        dsimp only at e
        split at e
        · cases e
        · split at e
          · split at e
            · cases e
              exact .inl hw
            · exact ih (by exact ⟨hw.err, hw.curOp⟩) e
          · exact ih hw e

theorem decodePrim_runsOn : decodePrim.RunsOn :=
  fun s _ h => decodeLoop_runsOn (s := { s with cur := s.root }) ⟨h.err, h.curOp⟩

end Sys2Proof.Machine
end

section
/-! PROOFS. Every error is one of the tables (60_exceptions.md R200 to R205), and what may write the tables and the flags
(10_state.md R23 to R35). -/

namespace Sys2Proof.Machine

/-! ### Steps in sequence meet each other's preconditions (45_control.md R182, R183) -/

/-- After the pseudocode of p, begun where pre holds and ended without an error, post holds. -/
def Primitive.Hands (p : Primitive) (pre post : List Precondition) : Prop :=
  ∀ s t, (∀ q ∈ pre, q.holds s = true) → p.body s = .next t → t.err = false → ∀ q ∈ post, q.holds t = true

/-- Steps of which each finds its preconditions met by those before it, and raises errors of its own only. -/
inductive Chained : List Precondition → List Primitive → Prop
  | nil {pre : List Precondition} : Chained pre []
  | cons {pre post : List Precondition} {p : Primitive} {ps : List Primitive} (needs : p.needs ⊆ pre) (own : p.RunsOn)
      (hands : p.Hands pre post) (rest : Chained post ps) : Chained pre (p :: ps)

theorem firstUnmet_eq_none {ps : List Precondition} {s : State} (h : ∀ q ∈ ps, q.holds s = true) :
    firstUnmet ps s = none := by
  rw [firstUnmet, List.find?_eq_none]
  intro q hq
  simp [h q hq]

/-- An error in a chain of steps is one of a step's own. -/
theorem Chained.raisedBy {pre : List Precondition} {ps : List Primitive} (hc : Chained pre ps) {k : Nat} {s t : State}
    (hs : s.err = false) (hpre : ∀ q ∈ pre, q.holds s = true) (e : runSteps k ps s = .next t) (ht : t.err = true) :
    ∃ p ∈ ps, RaisedBy p.op t := by
  induction hc generalizing k s with
  | nil =>
    cases e
    exact absurd ht (by simp [hs])
  | @cons pre post p ps needs own hands rest ih =>
    have hstart : ∀ q ∈ pre, q.holds { s with cstep := BitVec.ofNat 3 k, curOp := p.op } = true := hpre
    rw [runSteps_cons, run_met (firstUnmet_eq_none fun q hq => hstart q (needs hq))] at e
    obtain ⟨m, hbody, ⟨hm, rfl⟩ | ⟨hm, hrest⟩⟩ := unlessRaised_eq_next e
    · exact ⟨p, by simp, (own { s with cstep := BitVec.ofNat 3 k, curOp := p.op } _ ⟨hs, rfl⟩ hbody).raisedBy hm⟩
    · obtain ⟨q, hq, hraised⟩ := ih hm (hands _ _ hstart hbody hm) hrest
      exact ⟨q, by simp [hq], hraised⟩

/-- No validity flag changes. -/
structure SameFlags (s t : State) : Prop where
  freqValid : t.freqValid = s.freqValid
  treeValid : t.treeValid = s.treeValid
  treeSrc : t.treeSrc = s.treeSrc
  codesValid : t.codesValid = s.codesValid

theorem SameFlags.along : Along SameFlags :=
  ⟨fun _ => ⟨rfl, rfl, rfl, rfl⟩, fun h g => ⟨g.freqValid.trans h.freqValid, g.treeValid.trans h.treeValid,
    g.treeSrc.trans h.treeSrc, g.codesValid.trans h.codesValid⟩⟩

theorem SameFlags.acrossWrite : AcrossWrite SameFlags := fun _ _ => ⟨rfl, rfl, rfl, rfl⟩

theorem SameFlags.holds {s t : State} (h : SameFlags s t) (q : Precondition) : q.holds t = q.holds s := by
  cases q with
  | freqValid => exact h.freqValid
  | treeValid => exact h.treeValid
  | treeBuilt => exact congrArg (! ·) h.treeSrc
  | codesValid => exact h.codesValid

theorem Primitive.hands_of_sameFlags {p : Primitive} (h : p.Keeps SameFlags) (l : List Precondition) : p.Hands l l :=
  fun s t hpre e _ q hq => ((h s t e).holds q).trans (hpre q hq)

theorem Primitive.hands_nil (p : Primitive) (l : List Precondition) : p.Hands l [] := fun _ _ _ _ _ => by simp

theorem countPrim_hands : countPrim.Hands [] [.freqValid] := by
  intro s t _ e ht q hq
  obtain ⟨m, -, ⟨hm, rfl⟩ | ⟨-, hend⟩⟩ := unlessRaised_eq_next e
  · exact absurd ht (by simp [hm])
  · cases hend
    rw [List.mem_singleton.mp hq]
    rfl

theorem mergeLoop_valid {k : Nat} {s t : State} (e : mergeLoop k s = .next t) :
    t.treeValid = true ∧ t.treeSrc = false := by
  induction k generalizing s with
  | zero => cases e
  | succ k ih =>
    rw [mergeLoop] at e
    split at e
    · cases e
    · cases e
      exact ⟨rfl, rfl⟩
    · obtain ⟨m, -, hrest⟩ := andThen_eq_next e
      exact ih hrest

theorem buildPrim_hands : buildPrim.Hands [.freqValid] [.treeValid, .treeBuilt] := by
  intro s t _ e _
  obtain ⟨m, -, hmerge⟩ := andThen_eq_next e
  obtain ⟨hvalid, hsrc⟩ := mergeLoop_valid hmerge
  simp [Precondition.holds, hvalid, hsrc]

theorem gencodesPrim_hands : gencodesPrim.Hands [.treeValid, .treeBuilt] [.treeValid, .codesValid] := by
  intro s t hpre e _
  have hkept : t.treeValid = s.treeValid := gencodesPrim_along (R := fun s t => t.treeValid = s.treeValid)
    ⟨fun _ => rfl, fun h g => g.trans h⟩ (fun _ => rfl) (fun _ _ _ => rfl) (fun _ => rfl) e
  have hvalid : s.treeValid = true := hpre .treeValid (by simp)
  obtain ⟨m, -, hend⟩ := andThen_eq_next e
  have hcodes : t.codesValid = true := by
    cases hend
    rfl
  simp [Precondition.holds, hkept, hvalid, hcodes]

/-- What rd() leaves when it is over: the tree, or an error. -/
def Parsed.Ended : Parsed → Prop
  | .complete t => t.treeValid = true
  | .raised t => t.err = true
  | .more _ | .full => True

theorem subtreeDone_ended (st : List RdFrame) (i : NodeIx) (s : State) : (subtreeDone st i s).Ended := by
  induction st generalizing i s with
  | nil => exact rfl
  | cons f st ih =>
    cases f with
    | waitLeft => exact trivial
    | waitRight l =>
      rw [subtreeDone]
      split
      · exact ih _ _
      · exact trivial

theorem takeToken_ended (tok : Token) (s : State) : (takeToken tok s).Ended := by
  cases tok with
  | internal => exact trivial
  | leaf v =>
    rw [takeToken]
    split
    · exact rfl
    · split
      · exact subtreeDone_ended _ _ _
      · exact trivial

theorem fetchToken_raised {s t : State} (h : fetchToken s = .raised t) : t.err = true := by
  rw [fetchToken] at h
  split at h
  · cases h
    rfl
  · dsimp only at h
    split at h
    · cases h
      rfl
    · split at h
      · cases h
      · split at h
        · cases h
          rfl
        · cases h

theorem readTree_valid {k : Nat} {s t : State} (e : readTree k s = .next t) (ht : t.err = false) :
    t.treeValid = true := by
  induction k generalizing s with
  | zero => cases e
  | succ k ih =>
    rw [readTree] at e
    split at e
    · next hfetch =>
      cases e
      exact absurd (fetchToken_raised hfetch) (by simp [ht])
    · next tok u _ =>
      have hended := takeToken_ended tok u
      split at e
      · exact ih e
      · next htake =>
        cases e
        rw [htake] at hended
        exact hended
      · next htake =>
        cases e
        rw [htake] at hended
        exact absurd hended (by simp [Parsed.Ended, ht])
      · cases e

theorem rdtreePrim_hands : rdtreePrim.Hands [] [.treeValid] := by
  intro s t _ e ht q hq
  rw [List.mem_singleton.mp hq]
  exact readTree_valid e ht

theorem compressSteps_chained : Chained [] compressSteps :=
  .cons (by simp [countPrim]) countPrim_runsOn countPrim_hands <|
  .cons (by simp [rewindPrim]) rewindPrim_runsOn
    (Primitive.hands_of_sameFlags (fun _ _ => rewindPrim_along fun _ _ _ => ⟨rfl, rfl, rfl, rfl⟩) _) <|
  .cons (by simp [buildPrim]) buildPrim_runsOn buildPrim_hands <|
  .cons (by simp [gencodesPrim]) gencodesPrim_runsOn gencodesPrim_hands <|
  .cons (by simp [wrmagicPrim]) wrmagicPrim_runsOn
    (Primitive.hands_of_sameFlags (fun _ _ => wrmagicPrim_along SameFlags.acrossWrite) _) <|
  .cons (by simp [wrtreePrim]) wrtreePrim_runsOn
    (Primitive.hands_of_sameFlags (fun _ _ => wrtreePrim_along SameFlags.along SameFlags.acrossWrite) _) <|
  .cons (by simp [encodePrim]) encodePrim_runsOn (Primitive.hands_nil _ _) <|
  .cons (by simp [closePrim]) closePrim_runsOn (Primitive.hands_nil _ _) .nil

theorem decompressSteps_chained : Chained [] decompressSteps :=
  .cons (by simp [rdmagicPrim]) rdmagicPrim_runsOn (Primitive.hands_nil _ _) <|
  .cons (by simp [rdtreePrim]) rdtreePrim_runsOn rdtreePrim_hands <|
  .cons (by simp [decodePrim]) decodePrim_runsOn (Primitive.hands_nil _ _) <|
  .cons (by simp [closePrim]) closePrim_runsOn (Primitive.hands_nil _ _) .nil

/-! ### The errors of an instruction -/

/-- The primitives whose pseudocode an instruction runs, wholly or from inside. -/
def stepsOf : Instr → List Primitive
  | .count => [countPrim]
  | .rewind => [rewindPrim]
  | .build => [buildPrim]
  | .gencodes => [gencodesPrim]
  | .wrmagic => [wrmagicPrim]
  | .wrtree => [wrtreePrim]
  | .encode => [encodePrim]
  | .close => [closePrim]
  | .rdmagic | .magicField _ => [rdmagicPrim]
  | .rdtree | .hdrLeaf _ => [rdtreePrim]
  | .decode => [decodePrim]
  | .compress => compressSteps
  | .decompress => decompressSteps
  | .nop | .clear | .reserved _ | .hdrInternal => []

/-- How an instruction can come to an error: a step's own, an unmet precondition, or a reserved word. -/
inductive Raises (i : Instr) (s t : State) : Prop
  | own (p : Primitive) (hp : p ∈ stepsOf i) (h : RaisedBy p.op t)
  | unmet (p : Primitive) (q : Precondition) (m : State) (hp : stepsOf i = [p]) (hq : q ∈ p.needs)
      (h : t = raiseAs p.op .sequenceError q.subcause (p.op.setWidth 32) m)
  | reserved (w : Word) (hi : i = .reserved w) (h : t = illegalWord w s)

theorem RaisedBy.finish {op : Byte} {t : State} (h : RaisedBy op t) : RaisedBy op { t with busy := false } := by
  obtain ⟨e, sub, data, m, rfl, hr⟩ := h
  exact ⟨e, sub, data, m, rfl, hr⟩

/-- A command ends in an error of its own or in its SequenceError. -/
theorem raises_of_runCommand {i : Instr} {p : Primitive} (hi : stepsOf i = [p]) (hp : p.RunsOn) {s t : State}
    (he : s.err = false) (e : runCommand p s = .next t) (ht : t.err = true) : Raises i s t := by
  obtain ⟨-, ⟨he', -⟩ | ⟨-, m, hrun, rfl⟩⟩ := runCommand_eq_next e
  · exact absurd he' (by simp [he])
  · cases hu : firstUnmet p.needs { s with busy := true, curOp := p.op } with
    | none =>
      rw [run_met hu] at hrun
      exact .own p (by simp [hi]) ((hp { s with busy := true, curOp := p.op } _ ⟨he, rfl⟩ hrun).raisedBy ht).finish
    | some q =>
      rw [run_unmet hu] at hrun
      cases hrun
      exact .unmet p q _ hi (List.mem_of_find?_eq_some hu) rfl

/-- A pipeline ends in an error of one of its steps. -/
theorem raises_of_pipeline {i : Instr} (hc : Chained [] (stepsOf i)) {op : Byte} {s t : State} (he : s.err = false)
    (e : runCommand { op := op, needs := [], body := runSteps 0 (stepsOf i) } s = .next t) (ht : t.err = true) :
    Raises i s t := by
  obtain ⟨-, ⟨he', -⟩ | ⟨-, m, hrun, rfl⟩⟩ := runCommand_eq_next e
  · exact absurd he' (by simp [he])
  · obtain ⟨p, hp, hraised⟩ := hc.raisedBy (s := { s with busy := true, curOp := op }) he (by simp) hrun ht
    exact .own p hp hraised.finish

/-- A token's next state, and where it comes from. -/
theorem oneToken_eq_next {tok : Token} {s t : State} (e : oneToken tok s = .next t) :
    s.curOp = 0x0A ∧ ∃ u, (takeToken tok s).state? = some u ∧ (t = u ∨ t = { u with busy := false }) := by
  rw [oneToken] at e
  split at e
  · next hin =>
    refine ⟨by simp [State.inside] at hin; exact hin.2, ?_⟩
    split at e
    · next u hu => cases e; exact ⟨_, by rw [hu]; rfl, .inl rfl⟩
    · next u hu => cases e; exact ⟨u, by rw [hu]; rfl, .inr rfl⟩
    · next u hu => cases e; exact ⟨_, by rw [hu]; rfl, .inl rfl⟩
    · cases e
  · cases e

theorem oneToken_raisedBy {tok : Token} {s t : State} (he : s.err = false) (e : oneToken tok s = .next t)
    (ht : t.err = true) : RaisedBy 0x0A t := by
  obtain ⟨hop, u, hu, rfl | rfl⟩ := oneToken_eq_next e
  · exact (takeToken_runsOn ⟨he, hop⟩ hu).raisedBy ht
  · exact ((takeToken_runsOn ⟨he, hop⟩ hu).raisedBy ht).finish

theorem execMagicField_raisedBy {v : Word} {s t : State} (he : s.err = false) (e : execMagicField v s = .next t)
    (ht : t.err = true) : RaisedBy 0x09 t := by
  rw [execMagicField] at e
  split at e
  · next hin =>
    cases e
    exact ((checkMagic_runsOn ⟨he, by simp [State.inside] at hin; exact hin.2⟩).raisedBy ht).finish
  · cases e

/-- A command without preconditions raises nothing that its pseudocode does not. -/
theorem runCommand_err {p : Primitive} (hn : p.needs = []) (hb : p.Keeps fun s t => s.err = false → t.err = false)
    {s t : State} (he : s.err = false) (e : runCommand p s = .next t) : t.err = false := by
  obtain ⟨-, ⟨-, rfl⟩ | ⟨-, m, hrun, rfl⟩⟩ := runCommand_eq_next e
  · exact he
  · rw [run_met (by rw [hn]; rfl)] at hrun
    exact hb { s with busy := true, curOp := p.op } m hrun he

theorem exec_raises {i : Instr} {s t : State} (he : s.err = false) (e : exec i s = .next t) (ht : t.err = true) :
    Raises i s t := by
  cases i with
  | nop =>
    have hquiet := runCommand_err (p := nopPrim) rfl (fun _ _ e h => by cases e; exact h) he e
    exact absurd ht (by simp [hquiet])
  | clear =>
    rw [exec, execClear] at e
    split at e
    · cases e
    · rw [if_neg (by simp [he])] at e
      have hquiet := runCommand_err (p := clearPrim) rfl (fun _ _ e _ => by cases e; rfl) he e
      exact absurd ht (by simp [hquiet])
  | count => exact raises_of_runCommand rfl countPrim_runsOn he e ht
  | rewind => exact raises_of_runCommand rfl rewindPrim_runsOn he e ht
  | build => exact raises_of_runCommand rfl buildPrim_runsOn he e ht
  | gencodes => exact raises_of_runCommand rfl gencodesPrim_runsOn he e ht
  | wrmagic => exact raises_of_runCommand rfl wrmagicPrim_runsOn he e ht
  | wrtree => exact raises_of_runCommand rfl wrtreePrim_runsOn he e ht
  | encode => exact raises_of_runCommand rfl encodePrim_runsOn he e ht
  | close => exact raises_of_runCommand rfl closePrim_runsOn he e ht
  | rdmagic => exact raises_of_runCommand rfl rdmagicPrim_runsOn he e ht
  | rdtree => exact raises_of_runCommand rfl rdtreePrim_runsOn he e ht
  | decode => exact raises_of_runCommand rfl decodePrim_runsOn he e ht
  | compress => exact raises_of_pipeline (i := .compress) compressSteps_chained he e ht
  | decompress => exact raises_of_pipeline (i := .decompress) decompressSteps_chained he e ht
  | reserved w =>
    rw [exec, execReserved] at e
    split at e
    · cases e
    · rw [if_neg (by simp [he])] at e
      exact .reserved w rfl (Host.Outcome.next.inj e).symm
  | hdrInternal =>
    obtain ⟨-, u, hu, h⟩ := oneToken_eq_next (tok := .internal) e
    cases hu
    rcases h with rfl | rfl <;> exact absurd ht (by simp [he])
  | hdrLeaf v => exact .own rdtreePrim (by simp [stepsOf]) (oneToken_raisedBy (tok := .leaf v) he e ht)
  | magicField v => exact .own rdmagicPrim (by simp [stepsOf]) (execMagicField_raisedBy he e ht)

/-- The instructions that run a step that raises errors of its own. -/
theorem op_of_mem_steps {i : Instr} {p : Primitive} (hp : p ∈ stepsOf i) :
    (p.op = 0x01 → i = .count ∨ i = .compress) ∧ (p.op = 0x07 → i = .encode ∨ i = .compress) ∧
    (p.op = 0x09 → i = .rdmagic ∨ i = .decompress ∨ ∃ v, i = .magicField v) ∧
    (p.op = 0x0A → i = .rdtree ∨ i = .decompress ∨ ∃ v, i = .hdrLeaf v) ∧
    (p.op = 0x0B → i = .decode ∨ i = .decompress) := by
  cases i with
  | nop | clear | reserved _ | hdrInternal => cases hp
  | count | rewind | build | gencodes | wrmagic | wrtree | encode | close | rdmagic | rdtree | decode | hdrLeaf _
  | magicField _ =>
    cases List.mem_singleton.mp hp
    simp [countPrim, rewindPrim, buildPrim, gencodesPrim, wrmagicPrim, wrtreePrim, encodePrim, closePrim, rdmagicPrim,
      rdtreePrim, decodePrim]
  | compress =>
    have hops : ∀ q ∈ compressSteps, q.op ≠ 0x09 ∧ q.op ≠ 0x0A ∧ q.op ≠ 0x0B := by
      simp [compressSteps, countPrim, rewindPrim, buildPrim, gencodesPrim, wrmagicPrim, wrtreePrim, encodePrim, closePrim]
    obtain ⟨hrdmagic, hrdtree, hdecode⟩ := hops p hp
    exact ⟨fun _ => .inr rfl, fun _ => .inr rfl, (absurd · hrdmagic), (absurd · hrdtree), (absurd · hdecode)⟩
  | decompress =>
    have hops : ∀ q ∈ decompressSteps, q.op ≠ 0x01 ∧ q.op ≠ 0x07 := by
      simp [decompressSteps, rdmagicPrim, rdtreePrim, decodePrim, closePrim]
    obtain ⟨hcount, hencode⟩ := hops p hp
    exact ⟨(absurd · hcount), (absurd · hencode), fun _ => .inr (.inl rfl), fun _ => .inr (.inl rfl), fun _ => .inr rfl⟩

/-- The instructions that have preconditions of their own. -/
theorem needs_of_steps {i : Instr} {p : Primitive} {q : Precondition} (hp : stepsOf i = [p]) (hq : q ∈ p.needs) :
    (i = .build ∧ p.op = 0x03 ∧ q = .freqValid) ∨
    (i = .gencodes ∧ p.op = 0x04 ∧ (q = .treeValid ∨ q = .treeBuilt)) ∨
    (i = .wrtree ∧ p.op = 0x06 ∧ q = .treeValid) ∨ (i = .encode ∧ p.op = 0x07 ∧ q = .codesValid) ∨
    (i = .decode ∧ p.op = 0x0B ∧ q = .treeValid) := by
  cases i with
  | nop | clear | reserved _ | hdrInternal | compress | decompress => cases hp
  | count | rewind | wrmagic | close | rdmagic | rdtree | hdrLeaf _ | magicField _ => cases hp; cases hq
  | build | gencodes | wrtree | encode | decode =>
    cases hp
    simpa [buildPrim, gencodesPrim, wrtreePrim, encodePrim, decodePrim] using hq

/-- Settles O22: an error is one of a step's own, an unmet precondition's or a reserved word's. -/
theorem everyErrorIsOneOfTheTables : Obligations.EveryErrorIsOneOfTheTables := by
  intro i s t he e ht
  have hmagic := exec_magic e
  cases exec_raises he e ht with
  | own p hp h =>
    obtain ⟨hcount, hencode, hrdmagic, hrdtree, hdecode⟩ := op_of_mem_steps hp
    obtain ⟨kind, sub, data, m, rfl, hr⟩ := h
    generalize p.op = op at *
    cases hr with
    | shortMagic => exact .inl ⟨rfl, rfl, hrdmagic rfl, .inl ⟨rfl, rfl⟩⟩
    | wrongMagic v hv => exact .inl ⟨rfl, rfl, hrdmagic rfl, .inr ⟨rfl, hmagic ▸ hv⟩⟩
    | noMarker => exact .inr (.inl ⟨rfl, rfl, hrdtree rfl, .inl ⟨rfl, rfl⟩⟩)
    | shortField => exact .inr (.inl ⟨rfl, rfl, hrdtree rfl, .inr (.inl ⟨rfl, rfl⟩)⟩)
    | badSymbol v hv =>
      have hdata : (v.setWidth 32).toNat = v.toNat := BitVec.toNat_setWidth_of_le (by decide)
      exact .inr (.inl ⟨rfl, rfl, hrdtree rfl, .inr (.inr (.inl ⟨rfl, hdata.ge.trans' hv, hdata.le.trans (by omega)⟩))⟩)
    | tooMany => exact .inr (.inl ⟨rfl, rfl, hrdtree rfl, .inr (.inr (.inr ⟨rfl, rfl⟩))⟩)
    | truncated => exact .inr (.inr (.inl ⟨rfl, rfl, hdecode rfl, rfl, rfl⟩))
    | missing sym =>
      have hdata : (BitVec.ofNat 32 sym.val).toNat = sym.val := by simp; omega
      exact .inr (.inr (.inr (.inl ⟨rfl, rfl, hencode rfl, rfl, hdata.le.trans (by omega)⟩)))
    | capacity => exact .inr (.inr (.inr (.inr (.inl ⟨rfl, rfl, hcount rfl, rfl, rfl⟩))))
  | unmet p q m hp hq h =>
    subst h
    refine .inr (.inr (.inr (.inr (.inr (.inr ⟨rfl, rfl, ?_⟩)))))
    simp only [raiseAs_failOp, raiseAs_subcause]
    rcases needs_of_steps hp hq with ⟨hi, hop, rfl⟩ | ⟨hi, hop, rfl | rfl⟩ | ⟨hi, hop, rfl⟩ | ⟨hi, hop, rfl⟩ |
      ⟨hi, hop, rfl⟩ <;> simp [hi, hop, Precondition.subcause]
  | reserved w hi h =>
    refine .inr (.inr (.inr (.inr (.inr (.inl ?_)))))
    have herror := illegalWord_entry w s
    rw [← h] at herror
    have hdata : t.errData = w := by rw [show t = _ from herror]
    have hop : t.failOp = w.setWidth 8 := by rw [show t = _ from herror]
    have hsub : t.subcause = if w.toNat < 256 then 1 else 2 := by rw [show t = _ from herror]
    rw [hdata]
    refine ⟨herror.errCode, hi, hop, ?_⟩
    rw [hsub]
    split
    · next hlt => exact .inr ⟨rfl, hlt⟩
    · next hle => exact .inl ⟨rfl, Nat.le_of_not_lt hle⟩

/-- An error clears every validity flag (60_exceptions.md R206). -/
theorem exec_raised_flags {i : Instr} {s t : State} (he : s.err = false) (e : exec i s = .next t) (ht : t.err = true) :
    t.freqValid = false ∧ t.treeValid = false ∧ t.treeSrc = false ∧ t.codesValid = false := by
  cases exec_raises he e ht with
  | own p hp h =>
    obtain ⟨_, _, _, _, rfl, -⟩ := h
    exact ⟨rfl, rfl, rfl, rfl⟩
  | unmet p q m hp hq h =>
    subst h
    exact ⟨rfl, rfl, rfl, rfl⟩
  | reserved w hi h =>
    rw [h, show illegalWord w s = _ from illegalWord_entry w s]
    exact ⟨rfl, rfl, rfl, rfl⟩

/-! ### The writers of each table (10_state.md R23 to R35) -/

/-- FREQ and TOTAL stay, and FREQ_VALID is not set. -/
structure CountsKept (s t : State) : Prop where
  freq : t.freq = s.freq
  total : t.total = s.total
  valid : t.freqValid = true → s.freqValid = true

theorem acrossInstr_counts {i : Instr} (hi : i ∉ [.count, .compress]) : AcrossInstr CountsKept i where
  along := ⟨fun _ => ⟨rfl, rfl, id⟩, fun h g => ⟨g.freq.trans h.freq, g.total.trans h.total, h.valid ∘ g.valid⟩⟩
  hidden _ _ h := ⟨h.freq, h.total, h.freqValid.symm.trans⟩
  raise _ _ _ _ _ := ⟨rfl, rfl, nofun⟩
  clear _ := ⟨rfl, rfl, nofun⟩
  read _ _ _ _ := ⟨rfl, rfl, id⟩
  write _ _ _ := ⟨rfl, rfl, id⟩
  count h := absurd h hi
  build _ := ⟨acrossNewNode_of fun _ _ _ => ⟨rfl, rfl, id⟩, fun _ => ⟨rfl, rfl, id⟩, fun _ _ => ⟨rfl, rfl, id⟩⟩
  gencodes _ := ⟨fun _ => ⟨rfl, rfl, id⟩, fun _ _ _ => ⟨rfl, rfl, id⟩, fun _ => ⟨rfl, rfl, id⟩⟩
  header _ := ⟨acrossNewNode_of fun _ _ _ => ⟨rfl, rfl, id⟩, fun _ => ⟨rfl, rfl, id⟩, fun _ _ => ⟨rfl, rfl, id⟩⟩

/-- The node store stays, and TREE_VALID is not set. -/
structure StoreKept (s t : State) : Prop where
  nodes : t.nodes = s.nodes
  ncount : t.ncount = s.ncount
  root : t.root = s.root
  valid : t.treeValid = true → s.treeValid = true

theorem acrossInstr_store {i : Instr} (hi : i ∉ [.build, .rdtree, .compress, .decompress]) (hsrc : i.source ≠ .header) :
    AcrossInstr StoreKept i where
  along := ⟨fun _ => ⟨rfl, rfl, rfl, id⟩, fun h g =>
    ⟨g.nodes.trans h.nodes, g.ncount.trans h.ncount, g.root.trans h.root, h.valid ∘ g.valid⟩⟩
  hidden _ _ h := ⟨h.nodes, h.ncount, h.root, h.treeValid.symm.trans⟩
  raise _ _ _ _ _ := ⟨rfl, rfl, rfl, nofun⟩
  clear _ := ⟨rfl, rfl, rfl, nofun⟩
  read _ _ _ _ := ⟨rfl, rfl, rfl, id⟩
  write _ _ _ := ⟨rfl, rfl, rfl, id⟩
  count _ := ⟨fun _ => ⟨rfl, rfl, rfl, nofun⟩, fun _ _ => ⟨rfl, rfl, rfl, id⟩, fun _ => ⟨rfl, rfl, rfl, id⟩⟩
  build h := absurd h (by simp at hi ⊢; tauto)
  gencodes _ := ⟨fun _ => ⟨rfl, rfl, rfl, id⟩, fun _ _ _ => ⟨rfl, rfl, rfl, id⟩, fun _ => ⟨rfl, rfl, rfl, id⟩⟩
  header h := absurd h (by simp at hi ⊢; tauto)

/-- TREE_SRC is not set. -/
def SourceKept (s t : State) : Prop := t.treeSrc = true → s.treeSrc = true

theorem acrossInstr_source {i : Instr} (hr : i ≠ .rdtree) (hd : i ≠ .decompress) (hsrc : i.source ≠ .header) :
    AcrossInstr SourceKept i where
  along := ⟨fun _ => id, fun h g => h ∘ g⟩
  hidden _ _ h := h.treeSrc.symm.trans
  raise _ _ _ _ _ := nofun
  clear _ := nofun
  read _ _ _ _ := id
  write _ _ _ := id
  count _ := ⟨fun _ => nofun, fun _ _ => id, fun _ => id⟩
  build _ := ⟨acrossNewNode_of fun _ _ _ => id, fun _ => id, fun _ _ => nofun⟩
  gencodes _ := ⟨fun _ => id, fun _ _ _ => id, fun _ => id⟩
  header h := absurd h (by simp [hr, hd, hsrc])

/-- The code table stays, and CODES_VALID is not set. -/
structure CodesKept (s t : State) : Prop where
  codes : t.codes = s.codes
  valid : t.codesValid = true → s.codesValid = true

theorem acrossInstr_codes {i : Instr} (hi : i ∉ [.gencodes, .compress]) : AcrossInstr CodesKept i where
  along := ⟨fun _ => ⟨rfl, id⟩, fun h g => ⟨g.codes.trans h.codes, h.valid ∘ g.valid⟩⟩
  hidden _ _ h := ⟨h.codes, h.codesValid.symm.trans⟩
  raise _ _ _ _ _ := ⟨rfl, nofun⟩
  clear _ := ⟨rfl, nofun⟩
  read _ _ _ _ := ⟨rfl, id⟩
  write _ _ _ := ⟨rfl, id⟩
  count _ := ⟨fun _ => ⟨rfl, nofun⟩, fun _ _ => ⟨rfl, id⟩, fun _ => ⟨rfl, id⟩⟩
  build _ := ⟨acrossNewNode_of fun _ _ _ => ⟨rfl, id⟩, fun _ => ⟨rfl, nofun⟩, fun _ _ => ⟨rfl, id⟩⟩
  gencodes h := absurd h hi
  header _ := ⟨acrossNewNode_of fun _ _ _ => ⟨rfl, id⟩, fun _ => ⟨rfl, nofun⟩, fun _ _ => ⟨rfl, id⟩⟩

/-! ### Rebuilding invalidates (10_state.md R33 to R35) -/

/-- COUNT clears the later flags before it reads, so it does the same where they were clear already. -/
theorem exec_count_clear {s : State} (h : s.Ready) :
    exec .count s = exec .count { s with treeValid := false, treeSrc := false, codesValid := false } :=
  (runCommand_ready h).trans
    (runCommand_ready (p := countPrim) (s := { s with treeValid := false, treeSrc := false, codesValid := false }) h).symm

theorem exec_build_clear {s : State} (h : s.Ready) : exec .build s = exec .build { s with codesValid := false } :=
  (runCommand_ready h).trans (runCommand_ready (p := buildPrim) (s := { s with codesValid := false }) h).symm

theorem exec_rdtree_clear {s : State} (h : s.Ready) : exec .rdtree s = exec .rdtree { s with codesValid := false } :=
  (runCommand_ready h).trans (runCommand_ready (p := rdtreePrim) (s := { s with codesValid := false }) h).symm

/-- An instruction that starts from CODES_VALID = 0 and is not GENCODES or COMPRESS leaves it so. -/
theorem exec_codesValid {i : Instr} (hi : i ∉ [.gencodes, .compress]) {s t : State} (hs : s.codesValid = false)
    (e : exec i s = .next t) : t.codesValid = false := by
  have hvalid := ((acrossInstr_codes hi).exec e).valid
  simpa [hs] using hvalid

theorem exec_count_flags {s t : State} (h : s.Ready) (e : exec .count s = .next t) :
    t.treeValid = false ∧ t.treeSrc = false ∧ t.codesValid = false := by
  rw [exec_count_clear h] at e
  have hstore := ((acrossInstr_store (by simp) (by simp [Instr.source])).exec e).valid
  have hsource := (acrossInstr_source (by simp) (by simp) (by simp [Instr.source])).exec e
  exact ⟨by simpa using hstore, by simpa [SourceKept] using hsource, exec_codesValid (by simp) rfl e⟩

/-- Settles O59, from the writers of each table and the flags an error leaves. -/
theorem tablesAndFlagsHaveTheirOnlyWriters : Obligations.TablesAndFlagsHaveTheirOnlyWriters := by
  intro i s t e
  refine ⟨fun hc hp => ?counts, fun hi hsrc => ?store, fun hr hd hsrc => (acrossInstr_source hr hd hsrc).exec e,
    fun hg hp => ?codes, fun h hi => exec_count_flags h (hi ▸ e), fun h hi => ?rebuilt,
    fun ht he => exec_raised_flags he e ht⟩
  case counts =>
    have hkept := (acrossInstr_counts (by simp [hc, hp])).exec e
    exact ⟨hkept.freq, hkept.total, hkept.valid⟩
  case store =>
    have hkept := (acrossInstr_store hi hsrc).exec e
    exact ⟨hkept.nodes, hkept.ncount, hkept.root, hkept.valid⟩
  case codes =>
    have hkept := (acrossInstr_codes (by simp [hg, hp])).exec e
    exact ⟨hkept.codes, hkept.valid⟩
  case rebuilt =>
    rcases hi with rfl | rfl
    · exact exec_codesValid (s := { s with codesValid := false }) (by simp) rfl ((exec_build_clear h).symm.trans e)
    · exact exec_codesValid (s := { s with codesValid := false }) (by simp) rfl ((exec_rdtree_clear h).symm.trans e)

end Sys2Proof.Machine
end
